-- ==== Sys2Proof/Word.lean ====
section
/-! DEFINITION. The data the spec moves: bytes, words, blocks, round keys (00_scope.md R9, R10, R12). -/

namespace Sys2Proof

/-- A byte, an element of GF(2⁸) (40_gf256.md R130). -/
abbrev Byte := BitVec 8

/-- A host bus word, a command word, a drawn random word (20_memory.md R71, R82; 30_encoding.md R100). -/
abbrev Word := BitVec 32

/-- An operand field FA..FD of a command word (30_encoding.md R101). -/
abbrev Nibble := BitVec 4

/-- A byte offset from the core's base `BASE`, which the model leaves out (20_memory.md R70; log 19). -/
abbrev Addr := BitVec 16

/-- A 16-byte block; byte `r + 4c` is row r, column c of the state matrix (00_scope.md R12). -/
abbrev Block := Vector Byte 16

/-- A 4-byte word of the key schedule (42_key_schedule.md, opening words). -/
abbrev KeyWord := Vector Byte 4

/-- The RoundKeySet: round keys 0..10 (10_state.md R38). -/
abbrev RoundKeys := Vector Block 11

/-- Sixteen bytes 0x00. -/
def Block.zero : Block := Vector.replicate 16 0

/-- Eleven blocks of bytes 0x00 (10_state.md R50). -/
def RoundKeys.zero : RoundKeys := Vector.replicate 11 Block.zero

end Sys2Proof
end

