-- ==== Sys2Proof/Config.lean ====
section
/-! DEFINITION. The implementation parameters (00_scope.md R7, R8) and the free values: opaque constants, so that no proof
can see what they are. -/

namespace Sys2Proof

/-- The parameters of 00_scope.md R7. NXREG is fixed at 8 and the RNG words are an input, so neither stands here.
`DIGEST_SIZE` is the length of `digest` (R8). DESIGN CHOICE (log 19), safe: the OPEN base address `BASE` (20_memory.md R70) is no
field, since the core never sees it: every address of the model is an offset from it. -/
structure Config where
  /-- `BUF_BYTES`, the size of IN and of OUT in bytes. -/
  bufBytes : Nat
  /-- `BIG_BITS`, the width of every big-integer register. -/
  bigBits : Nat
  /-- `MR_ROUNDS`, Miller–Rabin rounds per primality test. -/
  mrRounds : Nat
  /-- `DIGEST`, the constant byte string of the RSA padding. -/
  digest : List Byte
  deriving DecidableEq, Repr

/-- The legal values of the parameters (00_scope.md R7). -/
abbrev Config.Legal (c : Config) : Prop :=
  (c.bufBytes % 16 = 0 ∧ 256 ≤ c.bufBytes ∧ c.bufBytes ≤ 4096) ∧
  (c.bigBits % 32 = 0 ∧ 64 ≤ c.bigBits ∧ c.bigBits ≤ 4096) ∧
  (1 ≤ c.mrRounds ∧ c.mrRounds ≤ 255) ∧
  c.digest.length ≤ 255

/-- `DIGEST_SIZE`, written DS in 46_rsa.md. -/
def Config.digestSize (c : Config) : Nat := c.digest.length

/-- FREE VALUE (log 1): the length of the DIGEST that the core is built with; 00_scope.md R8 leaves it OPEN. -/
opaque Config.openDigestSize : BitVec 8

/-- FREE VALUE (log 1): byte i of the DIGEST that the core is built with; 00_scope.md R8 leaves it OPEN. -/
opaque Config.openDigestByte : Nat → Byte

/-- FREE VALUE (log 6): what the n-th read of an unspecified register returns (20_memory.md R79). -/
opaque Config.freeRead : Nat → Word

/-- FREE VALUE (log 7): byte i of OUT after the n-th loss of its contents (60_exceptions.md R267). -/
opaque Config.freeOutByte : Nat → Nat → Byte

/-- The default parameters (00_scope.md R7), with the OPEN digest (R8). -/
def Config.default : Config where
  bufBytes := 4096
  bigBits := 4096
  mrRounds := 40
  digest := (List.range Config.openDigestSize.toNat).map Config.openDigestByte

end Sys2Proof
end

