-- ==== Sys2Proof/Syntax.lean ====
section
/-! DEFINITION. The 27 commands of spec/opcode_table.json, one constructor each, with typed operands (30_encoding.md R102,
R105). -/

namespace Sys2Proof

/-- Operand kinds `xd`, `xs`: a big-integer register X0..X7. -/
abbrev XReg := Fin 8

/-- Operand kind `rnd`: a round-key index 0..10. -/
abbrev RoundIdx := Fin 11

/-- Operand kind `mask`: which keys a KEYBIND or KEYUNBIND selects; bit 0 symmetric, bit 1 public, bit 2 private. -/
structure KeyMask where
  sym : Bool
  pub : Bool
  priv : Bool
  deriving DecidableEq, Repr

/-- Operand kind `ivs`: where CBCENC takes its initialization vector from. -/
inductive IvSource where
  /-- 0: four words drawn from the RNG. -/
  | rng
  /-- 1: the IV register. -/
  | ivreg
  deriving DecidableEq, Repr

/-- A command of the core (30_encoding.md R105). Operands stand in the order FA, FB, FC, FD. -/
inductive Instr where
  | nop
  | gfmul
  | xtime
  | sbox
  | invsbox
  | subbytes
  | invsubbytes
  | shiftrows
  | invshiftrows
  | mixcolumns
  | invmixcolumns
  | addroundkey (j : RoundIdx)
  | keybind (m : KeyMask)
  | keyunbind (m : KeyMask)
  | symkeygen
  | aesenc
  | aesdec
  | cbcenc (src : IvSource)
  | cbcdec
  | bmul (a b c : XReg)
  | bmodexp (a b c d : XReg)
  | bmodinv (a b c : XReg)
  | bprime (b : XReg)
  | brandprime (a : XReg)
  | rsakeygen (a b c : XReg)
  | rsaenc
  | rsadec
  deriving DecidableEq, Repr

end Sys2Proof
end

