-- ==== Sys2Proof/WellFormed.lean ====
section
/-! DEFINITION. The checks of 30_encoding.md R104 that the operand types do not already make: a key mask selects something,
and RSAKEYGEN's two destinations differ. -/

namespace Sys2Proof

/-- Kind `mask`: legal values 1..7, so not the empty selection (30_encoding.md R102). -/
def KeyMask.nonempty (m : KeyMask) : Bool := m.sym || m.pub || m.priv

/-- An instruction that some command word encodes (30_encoding.md R102, R104). -/
def Instr.wellFormed : Instr → Bool
  | .keybind m => m.nonempty
  | .keyunbind m => m.nonempty
  | .rsakeygen a b _ => a != b
  | .nop | .gfmul | .xtime | .sbox | .invsbox | .subbytes | .invsubbytes | .shiftrows | .invshiftrows
  | .mixcolumns | .invmixcolumns | .addroundkey _ | .symkeygen | .aesenc | .aesdec | .cbcenc _ | .cbcdec
  | .bmul _ _ _ | .bmodexp _ _ _ _ | .bmodinv _ _ _ | .bprime _ | .brandprime _ | .rsaenc | .rsadec => true

end Sys2Proof
end

