-- ==== Sys2Proof/Decode.lean ====
section
/-! DEFINITION. Decoding a command word (30_encoding.md R104), total, each rejection by name; the encoder (R108); the assembler
syntax (R108). -/

namespace Sys2Proof

/-- What an operand field of an opcode holds (30_encoding.md R102). -/
inductive Kind where
  /-- `-`: unused, must be 0. -/
  | unused
  /-- `xd` or `xs`: 0..7. -/
  | xreg
  /-- `rnd`: 0..10. -/
  | rnd
  /-- `mask`: 1..7. -/
  | mask
  /-- `ivs`: 0, 1. -/
  | ivs
  deriving DecidableEq, Repr

/-- Why a word is no command (30_encoding.md R104, R106). Each ends the command with IllegalCommand. -/
inductive DecodeError where
  | reservedNotZero
  | unknownOpcode (op : Byte)
  | unusedFieldNotZero
  | registerAboveSeven
  | roundAboveTen
  | maskOutOfRange
  | ivSourceAboveOne
  | sameDestination
  deriving DecidableEq, Repr

/-- A row of the opcode map. -/
structure OpRow where
  op : Byte
  mnemonic : String
  fa : Kind
  fb : Kind
  fc : Kind
  fd : Kind
  deriving DecidableEq, Repr

/-- Rows of 40_gf256.md and 41_block_transform.md. -/
def opRowsBytes : List OpRow := [
  ⟨0x00, "NOP", .unused, .unused, .unused, .unused⟩,
  ⟨0x01, "GFMUL", .unused, .unused, .unused, .unused⟩,
  ⟨0x02, "XTIME", .unused, .unused, .unused, .unused⟩,
  ⟨0x10, "SBOX", .unused, .unused, .unused, .unused⟩,
  ⟨0x11, "INVSBOX", .unused, .unused, .unused, .unused⟩,
  ⟨0x12, "SUBBYTES", .unused, .unused, .unused, .unused⟩,
  ⟨0x13, "INVSUBBYTES", .unused, .unused, .unused, .unused⟩,
  ⟨0x14, "SHIFTROWS", .unused, .unused, .unused, .unused⟩,
  ⟨0x15, "INVSHIFTROWS", .unused, .unused, .unused, .unused⟩,
  ⟨0x16, "MIXCOLUMNS", .unused, .unused, .unused, .unused⟩,
  ⟨0x17, "INVMIXCOLUMNS", .unused, .unused, .unused, .unused⟩,
  ⟨0x18, "ADDROUNDKEY", .rnd, .unused, .unused, .unused⟩]

/-- Rows of 42_key_schedule.md, 43_block_cipher.md and 44_cbc.md. -/
def opRowsCipher : List OpRow := [
  ⟨0x20, "KEYBIND", .mask, .unused, .unused, .unused⟩,
  ⟨0x21, "KEYUNBIND", .mask, .unused, .unused, .unused⟩,
  ⟨0x22, "SYMKEYGEN", .unused, .unused, .unused, .unused⟩,
  ⟨0x30, "AESENC", .unused, .unused, .unused, .unused⟩,
  ⟨0x31, "AESDEC", .unused, .unused, .unused, .unused⟩,
  ⟨0x40, "CBCENC", .ivs, .unused, .unused, .unused⟩,
  ⟨0x41, "CBCDEC", .unused, .unused, .unused, .unused⟩]

/-- Rows of 45_bigint.md and 46_rsa.md. -/
def opRowsBig : List OpRow := [
  ⟨0x50, "BMUL", .xreg, .xreg, .xreg, .unused⟩,
  ⟨0x51, "BMODEXP", .xreg, .xreg, .xreg, .xreg⟩,
  ⟨0x52, "BMODINV", .xreg, .xreg, .xreg, .unused⟩,
  ⟨0x53, "BPRIME", .unused, .xreg, .unused, .unused⟩,
  ⟨0x54, "BRANDPRIME", .xreg, .unused, .unused, .unused⟩,
  ⟨0x60, "RSAKEYGEN", .xreg, .xreg, .xreg, .unused⟩,
  ⟨0x70, "RSAENC", .unused, .unused, .unused, .unused⟩,
  ⟨0x71, "RSADEC", .unused, .unused, .unused, .unused⟩]

/-- The opcode map of 30_encoding.md R105. -/
def opcodeMap : List OpRow := opRowsBytes ++ opRowsCipher ++ opRowsBig

/-- Fields of format C (30_encoding.md R101). -/
def fieldOP (w : Word) : Byte := w.extractLsb' 0 8
def fieldFA (w : Word) : Nibble := w.extractLsb' 8 4
def fieldFB (w : Word) : Nibble := w.extractLsb' 12 4
def fieldFC (w : Word) : Nibble := w.extractLsb' 16 4
def fieldFD (w : Word) : Nibble := w.extractLsb' 20 4
def fieldRSV (w : Word) : Byte := w.extractLsb' 24 8

/-- The check of one operand field against its kind; `none` when it is legal (30_encoding.md R104). -/
def fieldError (k : Kind) (v : Nibble) : Option DecodeError :=
  match k with
  | .unused => if v ≠ 0 then some .unusedFieldNotZero else none
  | .xreg => if v.toNat > 7 then some .registerAboveSeven else none
  | .rnd => if v.toNat > 10 then some .roundAboveTen else none
  | .mask => if v.toNat = 0 ∨ v.toNat > 7 then some .maskOutOfRange else none
  | .ivs => if v.toNat > 1 then some .ivSourceAboveOne else none

/-- The first field, in the order FA, FB, FC, FD, that breaks its kind (30_encoding.md R104). -/
def operandError (r : OpRow) (w : Word) : Option DecodeError :=
  (fieldError r.fa (fieldFA w)).or <| (fieldError r.fb (fieldFB w)).or <|
    (fieldError r.fc (fieldFC w)).or (fieldError r.fd (fieldFD w))

/-- A checked field as a register, a round index, a mask, an IV source (30_encoding.md R102, R103). -/
def xregOf (v : Nibble) : XReg := Fin.ofNat 8 v.toNat
def roundOf (v : Nibble) : RoundIdx := Fin.ofNat 11 v.toNat
def maskOf (v : Nibble) : KeyMask := ⟨v.getLsbD 0, v.getLsbD 1, v.getLsbD 2⟩
def ivSourceOf (v : Nibble) : IvSource := if v = 0 then .rng else .ivreg

/-- The instruction of an opcode, its operand fields already checked; `none` for an opcode outside R105. -/
def instrOf (op : Byte) (fa fb fc fd : Nibble) : Option Instr :=
  match op.toNat with
  | 0x00 => some .nop
  | 0x01 => some .gfmul
  | 0x02 => some .xtime
  | 0x10 => some .sbox
  | 0x11 => some .invsbox
  | 0x12 => some .subbytes
  | 0x13 => some .invsubbytes
  | 0x14 => some .shiftrows
  | 0x15 => some .invshiftrows
  | 0x16 => some .mixcolumns
  | 0x17 => some .invmixcolumns
  | 0x18 => some (.addroundkey (roundOf fa))
  | 0x20 => some (.keybind (maskOf fa))
  | 0x21 => some (.keyunbind (maskOf fa))
  | 0x22 => some .symkeygen
  | 0x30 => some .aesenc
  | 0x31 => some .aesdec
  | 0x40 => some (.cbcenc (ivSourceOf fa))
  | 0x41 => some .cbcdec
  | 0x50 => some (.bmul (xregOf fa) (xregOf fb) (xregOf fc))
  | 0x51 => some (.bmodexp (xregOf fa) (xregOf fb) (xregOf fc) (xregOf fd))
  | 0x52 => some (.bmodinv (xregOf fa) (xregOf fb) (xregOf fc))
  | 0x53 => some (.bprime (xregOf fb))
  | 0x54 => some (.brandprime (xregOf fa))
  | 0x60 => some (.rsakeygen (xregOf fa) (xregOf fb) (xregOf fc))
  | 0x70 => some .rsaenc
  | 0x71 => some .rsadec
  | _ => none

/-- Decoding of an accepted command word, in the order of 30_encoding.md R104: RSV, the opcode, the fields, and for RSAKEYGEN
that its destinations differ. -/
def decode (w : Word) : Except DecodeError Instr :=
  if fieldRSV w ≠ 0 then .error .reservedNotZero
  else match opcodeMap.find? (fun r => r.op == fieldOP w) with
    | none => .error (.unknownOpcode (fieldOP w))
    | some r =>
      match operandError r w with
      | some e => .error e
      | none =>
        match instrOf (fieldOP w) (fieldFA w) (fieldFB w) (fieldFC w) (fieldFD w) with
        | none => .error (.unknownOpcode (fieldOP w))
        | some i => if i.wellFormed then .ok i else .error .sameDestination

/-- The instruction the decoder reads from a table row's bits. A command is one 32-bit word (30_encoding.md R107), so the bits
at and above `nbits` are 0. -/
def decodeTableWord (nbits w : Nat) : Option Instr :=
  match decode (BitVec.ofNat 32 (w % 2 ^ nbits)) with
  | .ok i => some i
  | .error _ => none

/-- The word `(FD << 20) | (FC << 16) | (FB << 12) | (FA << 8) | OP` (30_encoding.md R108). -/
def packWord (op : Byte) (fa fb fc fd : Nibble) : Word := 0#8 ++ fd ++ fc ++ fb ++ fa ++ op

/-- An operand as its field (30_encoding.md R102). -/
def xregField (r : XReg) : Nibble := BitVec.ofNat 4 r.val
def roundField (j : RoundIdx) : Nibble := BitVec.ofNat 4 j.val
def maskField (m : KeyMask) : Nibble := 0#1 ++ BitVec.ofBool m.priv ++ BitVec.ofBool m.pub ++ BitVec.ofBool m.sym
def ivSourceField : IvSource → Nibble
  | .rng => 0
  | .ivreg => 1

/-- The opcode of an instruction (30_encoding.md R105). -/
def opcodeOf : Instr → Byte
  | .nop => 0x00
  | .gfmul => 0x01
  | .xtime => 0x02
  | .sbox => 0x10
  | .invsbox => 0x11
  | .subbytes => 0x12
  | .invsubbytes => 0x13
  | .shiftrows => 0x14
  | .invshiftrows => 0x15
  | .mixcolumns => 0x16
  | .invmixcolumns => 0x17
  | .addroundkey _ => 0x18
  | .keybind _ => 0x20
  | .keyunbind _ => 0x21
  | .symkeygen => 0x22
  | .aesenc => 0x30
  | .aesdec => 0x31
  | .cbcenc _ => 0x40
  | .cbcdec => 0x41
  | .bmul _ _ _ => 0x50
  | .bmodexp _ _ _ _ => 0x51
  | .bmodinv _ _ _ => 0x52
  | .bprime _ => 0x53
  | .brandprime _ => 0x54
  | .rsakeygen _ _ _ => 0x60
  | .rsaenc => 0x70
  | .rsadec => 0x71

/-- The command word of an instruction; unused fields assemble to 0 (30_encoding.md R108). -/
def encode (i : Instr) : Word :=
  match i with
  | .addroundkey j => packWord (opcodeOf i) (roundField j) 0 0 0
  | .keybind m => packWord (opcodeOf i) (maskField m) 0 0 0
  | .keyunbind m => packWord (opcodeOf i) (maskField m) 0 0 0
  | .cbcenc src => packWord (opcodeOf i) (ivSourceField src) 0 0 0
  | .bmul a b c => packWord (opcodeOf i) (xregField a) (xregField b) (xregField c) 0
  | .bmodexp a b c d => packWord (opcodeOf i) (xregField a) (xregField b) (xregField c) (xregField d)
  | .bmodinv a b c => packWord (opcodeOf i) (xregField a) (xregField b) (xregField c) 0
  | .bprime b => packWord (opcodeOf i) 0 (xregField b) 0 0
  | .brandprime a => packWord (opcodeOf i) (xregField a) 0 0 0
  | .rsakeygen a b c => packWord (opcodeOf i) (xregField a) (xregField b) (xregField c) 0
  | .nop | .gfmul | .xtime | .sbox | .invsbox | .subbytes | .invsubbytes | .shiftrows | .invshiftrows
  | .mixcolumns | .invmixcolumns | .symkeygen | .aesenc | .aesdec | .cbcdec | .rsaenc | .rsadec =>
    packWord (opcodeOf i) 0 0 0 0

/-- The mnemonic of an instruction, from its row. -/
def mnemonicOf (i : Instr) : String :=
  match opcodeMap.find? (fun r => r.op == opcodeOf i) with
  | some r => r.mnemonic
  | none => ""

/-- `x0`..`x7` (30_encoding.md R108). -/
def xregName (r : XReg) : String := "x" ++ toString r.val

/-- A mask as a `|`-list of sym, pub, priv (30_encoding.md R108). -/
def maskName (m : KeyMask) : String :=
  String.intercalate "|" ((if m.sym then ["sym"] else []) ++ (if m.pub then ["pub"] else []) ++
    (if m.priv then ["priv"] else []))

/-- The written operands of an instruction, in field order (30_encoding.md R108). -/
def operandNames : Instr → List String
  | .addroundkey j => [toString j.val]
  | .keybind m => [maskName m]
  | .keyunbind m => [maskName m]
  | .cbcenc .rng => ["rng"]
  | .cbcenc .ivreg => ["ivreg"]
  | .bmul a b c => [xregName a, xregName b, xregName c]
  | .bmodexp a b c d => [xregName a, xregName b, xregName c, xregName d]
  | .bmodinv a b c => [xregName a, xregName b, xregName c]
  | .bprime b => [xregName b]
  | .brandprime a => [xregName a]
  | .rsakeygen a b c => [xregName a, xregName b, xregName c]
  | .nop | .gfmul | .xtime | .sbox | .invsbox | .subbytes | .invsubbytes | .shiftrows | .invshiftrows
  | .mixcolumns | .invmixcolumns | .symkeygen | .aesenc | .aesdec | .cbcdec | .rsaenc | .rsadec => []

/-- A command in the assembler syntax of 30_encoding.md R108. -/
def assemblerText (i : Instr) : String :=
  match operandNames i with
  | [] => mnemonicOf i
  | ops => mnemonicOf i ++ " " ++ String.intercalate ", " ops

end Sys2Proof
end

