-- ==== Sys2Proof/Machine/State.lean ====
section
/-! DEFINITION. The state of the core (10_state.md R20, R21, R49), the events of its environment, the reasons a step can stop,
and the state after reset (70_reset_and_hazards.md R301, R302). -/

namespace Sys2Proof.Machine

/-- The core has no traps: an error is a completion code, which leaves a next state (60_exceptions.md R260). Nothing raises
a fault, so the type is closed with no constructor. -/
inductive Fault where
  deriving DecidableEq, Repr

/-- Reasons for which the model gives an instruction no meaning. -/
inductive Refusal where
  /-- Raised by an arm of `exec` for an instruction that has no meaning yet; no arm raises it. Safe: the model stops. -/
  | notModelled (mnemonic : String)
  deriving DecidableEq, Repr

/-- The sequencer state SEQ (10_state.md R20). -/
inductive Seq where
  /-- Zeroization after reset (70_reset_and_hazards.md R301). -/
  | init
  /-- Accepts a command. -/
  | idle
  /-- Executes one. -/
  | busy
  deriving DecidableEq, Repr

/-- The completion codes of 60_exceptions.md R261. -/
inductive ErrCode where
  | ok
  | illegalCommand
  | missingKey
  | publicKeyMissing
  | privateKeyMissing
  | messageTooLong
  | padError
  | invalidCiphertextLength
  | invalidPadding
  | bufferOverflow
  | badKeyLength
  | notInvertible
  | badOperand
  | aborted
  deriving DecidableEq, Repr

/-- One transaction of the host bus (20_memory.md R70, R71, R88). -/
inductive Access where
  /-- A 32-bit read at a byte offset. -/
  | read (a : Addr)
  /-- A write at a byte offset with its byte strobes `pstrb`. -/
  | write (a : Addr) (v : Word) (strb : Nibble)
  deriving DecidableEq, Repr

/-- What the environment does next, or that it is the sequencer's move (log 2). -/
inductive Event where
  /-- A host access (20_memory.md R80). -/
  | bus (acc : Access)
  /-- A host access in the very cycle in which the sequencer would finish (60_exceptions.md R270). -/
  | busAtFinish (acc : Access)
  /-- The RNG port offers a word (20_memory.md R82). -/
  | offer (w : Word)
  /-- The running command's `Draw32()` takes one offered word, and the command goes no further (20_memory.md R82; log 4). -/
  | draw
  /-- The sequencer moves. -/
  | sequencer
  /-- `rst_n` goes to 0 (70_reset_and_hazards.md R300). -/
  | resetAssert
  /-- `rst_n` goes to 1 (70_reset_and_hazards.md R300). -/
  | resetRelease
  deriving DecidableEq, Repr

/-- How the bus answered the last access (log 8). -/
inductive BusResponse where
  /-- No access has completed yet. -/
  | none
  /-- A write completed with `pslverr = 0`. -/
  | okay
  /-- A read completed with `pslverr = 0` and this `prdata`. -/
  | data (v : Word)
  /-- Refused: `pslverr = 1`, read data 0 (20_memory.md R71 to R73). -/
  | slverr
  /-- Made while `rst_n = 0`: the core does not respond (70_reset_and_hazards.md R300). -/
  | noResponse
  deriving DecidableEq, Repr

/-- Sparse byte memory: offsets strictly rising, no byte 0x00 listed (`Memory.wf` in Machine/Ops.lean). An unlisted byte reads
0x00, the reset contents of 10_state.md R50. -/
abbrev Memory := List Host.Cell

/-- The state of the core: what 10_state.md R21 and R49 list, and nothing else. Neither the parameters nor the RNG's words to
come are in it (R51; log 18). -/
structure CoreState where
  /-- SEQ (10_state.md R20). -/
  seq : Seq
  /-- CTRL.IE (10_state.md R26). -/
  ie : Bool
  /-- The hidden abort request (10_state.md R49). -/
  abortReq : Bool
  /-- STATUS.DONE (10_state.md R27). -/
  done : Bool
  /-- STATUS.WBUSY. -/
  wbusy : Bool
  /-- STATUS.KEY_VALID (10_state.md R45). -/
  keyValid : Bool
  /-- STATUS.PUB_VALID. -/
  pubValid : Bool
  /-- STATUS.PRIV_VALID. -/
  privValid : Bool
  /-- STATUS.PRIME (45_bigint.md R216). -/
  prime : Bool
  /-- STATUS.OVF (45_bigint.md R211). -/
  ovf : Bool
  /-- STATUS.ERRCODE. -/
  errcode : ErrCode
  /-- CMD (10_state.md R29). -/
  cmd : Word
  /-- ARG (R30). -/
  arg : Word
  /-- IN_LEN (R31). -/
  inLen : Word
  /-- OUT_LEN (R32). -/
  outLen : Word
  /-- OPA (R33). -/
  opa : Word
  /-- OPB (R34). -/
  opb : Word
  /-- RES (R35). -/
  res : Word
  /-- IV (R36). -/
  iv : Block
  /-- KEY (R37). -/
  key : Block
  /-- STATE (R39). -/
  state : Block
  /-- RK (R38). -/
  rk : RoundKeys
  /-- IN, keyed by bus offset 0x1000 + i (R40). -/
  inBuf : Memory
  /-- OUT, keyed by bus offset 0x2000 + i (R41). -/
  outBuf : Memory
  /-- X0..X7 (R42), each below 2^BIG_BITS. -/
  x : Vector Nat 8
  /-- PUB_E (R43). -/
  pubE : Nat
  /-- PUB_N (R43). -/
  pubN : Nat
  /-- PRIV_D (R44). -/
  privD : Nat
  /-- PRIV_N (R44). -/
  privN : Nat
  /-- The RNG position: how many words the core has taken since reset (R49). -/
  rngPos : Nat
  /-- The words the running command has drawn: its in-command temporaries are functions of them (R49; log 4). -/
  drawn : List Word
  deriving DecidableEq, Repr

/-- MODEL: what stands outside the core at its pins, an input of the steps to come, and the model's own counter. The core keeps
none of it (log 18). -/
structure Environment where
  /-- The level of `rst_n`; true when released (70_reset_and_hazards.md R300). -/
  rstn : Bool
  /-- The words the RNG port offers, not yet taken, oldest first (20_memory.md R82; log 5). -/
  rng : List Word
  /-- The events to come, oldest first (log 2). -/
  inputs : List Event
  /-- The answer to the last access (log 8). -/
  resp : BusResponse
  /-- Numbers the free values (log 6, log 7). -/
  fresh : Nat
  deriving DecidableEq, Repr

/-- What one step goes from and to: the state of the core, its environment, and beside them the configuration, which no step
changes (10_state.md R51; log 1, log 18). -/
structure State extends CoreState, Environment where
  /-- The configuration: the parameters of 00_scope.md R7, R8 (10_state.md R23 to R25). -/
  cfg : Config
  deriving DecidableEq, Repr

/-- The core with parameters `c` right after the release of reset: every register at its reset value (10_state.md R21, R50),
the sequencer in Init (70_reset_and_hazards.md R301; log 10). -/
def State.resetWith (c : Config) : State where
  cfg := c
  rstn := true
  seq := .init
  ie := false
  abortReq := false
  done := false
  wbusy := false
  keyValid := false
  pubValid := false
  privValid := false
  prime := false
  ovf := false
  errcode := .ok
  cmd := 0
  arg := 0
  inLen := 0
  outLen := 0
  opa := 0
  opb := 0
  res := 0
  iv := Block.zero
  key := Block.zero
  state := Block.zero
  rk := RoundKeys.zero
  inBuf := []
  outBuf := []
  x := Vector.replicate 8 0
  pubE := 0
  pubN := 0
  privD := 0
  privN := 0
  rngPos := 0
  drawn := []
  rng := []
  inputs := []
  resp := .none
  fresh := 0

/-- The core right after reset, with the default parameters (00_scope.md R7). -/
def State.reset : State := State.resetWith Config.default

end Sys2Proof.Machine
end

