-- ==== Sys2Proof/Machine/Bytes.lean ====
section
/-! DEFINITION. Byte order and byte strings: bus lanes, draw conversion, big-endian integers, blocks of a byte string
(00_scope.md R9, R10; 20_memory.md R75, R83, R87). -/

namespace Sys2Proof.Machine

/-- Byte lane i of a word: bits [8i+7:8i] (20_memory.md R75). -/
def wordByte (w : Word) (i : Nat) : Byte := w.extractLsb' (8 * i) 8

/-- `b0 | b1 << 8 | b2 << 16 | b3 << 24` (10_state.md R47). -/
def wordOfBytes (b0 b1 b2 b3 : Byte) : Word := b3 ++ b2 ++ b1 ++ b0

/-- `bitlen(v)`, with `bitlen(0) = 0` (00_scope.md R9). -/
def bitlen (v : Nat) : Nat := if v = 0 then 0 else v.log2 + 1

/-- `⌈a/b⌉` (00_scope.md R9). -/
def ceilDiv (a b : Nat) : Nat := (a + b - 1) / b

/-- `blen(n) = ⌈bitlen(n)/8⌉` (00_scope.md R10). -/
def blen (n : Nat) : Nat := ceilDiv (bitlen n) 8

/-- `BE(s)`: the integer whose big-endian encoding is s (00_scope.md R10). -/
def beNat (s : List Byte) : Nat := s.foldl (fun v b => v * 256 + b.toNat) 0

/-- `BE_k(v)`: the k-byte big-endian encoding of v (00_scope.md R10). -/
def beBytes (k v : Nat) : List Byte := (List.range k).map fun i => BitVec.ofNat 8 (v / 256 ^ (k - 1 - i))

/-- `Σ_j w_j · 2^(32j)` of drawn words (20_memory.md R83). -/
def natOfWords : List Word → Nat
  | [] => 0
  | w :: ws => w.toNat + 2 ^ 32 * natOfWords ws

/-- The 16 bytes of four drawn words: `b[4j+i] = w_j[8i+7:8i]` (20_memory.md R83). -/
def blockOfWords (ws : List Word) : Block := Vector.ofFn fun i : Fin 16 => wordByte (ws.getD (i.val / 4) 0) (i.val % 4)

/-- Bytewise `a ^ b` on two blocks (44_cbc.md, opening words). -/
def blockXor (a b : Block) : Block := Vector.zipWith (· ^^^ ·) a b

/-- Block k of a byte string: its bytes 16k..16k+15. -/
def blockAt (s : List Byte) (k : Nat) : Block := Vector.ofFn fun i : Fin 16 => s.getD (16 * k + i.val) 0

/-- The first n blocks of a byte string. -/
def blocksOf (s : List Byte) (n : Nat) : List Block := (List.range n).map (blockAt s)

/-- The byte string of a list of blocks. -/
def bytesOfBlocks (bs : List Block) : List Byte := bs.flatMap Vector.toList

/-- `rep(v, n)` (00_scope.md R10). -/
def rep (v : Byte) (n : Nat) : List Byte := List.replicate n v

/-- The 32-bit word at byte offset 4j of a block: bytes 4j..4j+3 in lane order (10_state.md R47). -/
def blockWord (b : Block) (j : Nat) : Word :=
  wordOfBytes (b.toList.getD (4 * j) 0) (b.toList.getD (4 * j + 1) 0) (b.toList.getD (4 * j + 2) 0)
    (b.toList.getD (4 * j + 3) 0)

/-- A block with its word j replaced (10_state.md R47). -/
def setBlockWord (b : Block) (j : Nat) (w : Word) : Block :=
  Vector.ofFn fun i : Fin 16 => if i.val / 4 = j then wordByte w (i.val % 4) else b[i]

/-- Word j of a big integer: `V[32j+31:32j]` (10_state.md R46). -/
def bigWord (v j : Nat) : Word := BitVec.ofNat 32 (v >>> (32 * j))

/-- A big integer with its word j replaced, the other bits unchanged (10_state.md R46). -/
def setBigWord (v j : Nat) (w : Word) : Nat :=
  v % 2 ^ (32 * j) + w.toNat * 2 ^ (32 * j) + v / 2 ^ (32 * (j + 1)) * 2 ^ (32 * (j + 1))

end Sys2Proof.Machine
end

