-- ==== Sys2Proof/Machine/Ops.lean ====
section
/-! DEFINITION. The shared operations: byte memory, big-integer registers, the random words of a command, the start and the
finish of a command (60_exceptions.md R264, R266, R267), which is all there is of "trap entry" (R260). -/

namespace Sys2Proof.Machine

/-! ### Byte memory -/

/-- The byte at an offset; an unlisted byte is 0x00 (10_state.md R50). -/
def memRead : Memory → Nat → Byte
  | [], _ => 0
  | (a, b) :: m, k => if k < a then 0 else if a = k then b else memRead m k

/-- The canonical form: offsets strictly rising, no byte 0x00 listed. -/
def Memory.wf : Memory → Bool
  | [] => true
  | (a, b) :: m => b != 0 && m.all (fun c => a < c.1) && Memory.wf m

/-- Every listed offset lies in the window `lo ≤ a < hi`. -/
def Memory.within (lo hi : Nat) (m : Memory) : Bool := m.all fun c => decide (lo ≤ c.1) && decide (c.1 < hi)

/-- A cell put before a memory whose offsets all lie above it; the byte 0x00 is not listed. -/
def memCons (k : Nat) (v : Byte) (m : Memory) : Memory := if v = 0 then m else (k, v) :: m

/-- Writing one byte, in canonical form. -/
def memWrite : Memory → Nat → Byte → Memory
  | [], k, v => memCons k v []
  | (a, b) :: m, k, v =>
    if k < a then memCons k v ((a, b) :: m)
    else if a = k then memCons k v m
    else (a, b) :: memWrite m k v

/-- `MemRead`: n bytes from an offset (00_scope.md R11). -/
def memReadBytes (m : Memory) (a n : Nat) : List Byte := (List.range n).map fun i => memRead m (a + i)

/-- `MemWrite`: a byte string at an offset (00_scope.md R11). -/
def memWriteBytes : Memory → Nat → List Byte → Memory
  | m, _, [] => m
  | m, a, b :: bs => memWriteBytes (memWrite m a b) (a + 1) bs

/-- The word at an offset, in lane order (20_memory.md R75). -/
def memReadWord (m : Memory) (a : Nat) : Word :=
  wordOfBytes (memRead m a) (memRead m (a + 1)) (memRead m (a + 2)) (memRead m (a + 3))

/-- Writing a word, in lane order (20_memory.md R75). -/
def memWriteWord (m : Memory) (a : Nat) (w : Word) : Memory :=
  memWriteBytes m a [wordByte w 0, wordByte w 1, wordByte w 2, wordByte w 3]

/-- The offset of byte 0 of IN and of OUT (10_state.md R21). -/
def inBase : Nat := 0x1000
def outBase : Nat := 0x2000

/-! ### Big-integer registers -/

/-- `X[i]` (10_state.md R42). -/
def xRead (s : State) (i : XReg) : Nat := s.x[i]

/-- `X[i] <- v` (10_state.md R42). -/
def xWrite (i : XReg) (v : Nat) (s : State) : State := { s with x := s.x.set i v }

/-! ### Start and finish of a command -/

/-- An accepted write of `w` to CMD (60_exceptions.md R264, start). -/
def startCommand (w : Word) (s : State) : State :=
  { s with cmd := w, seq := .busy, done := false, errcode := .ok, drawn := [] }

/-- The finish with a code (60_exceptions.md R264): ERRCODE, DONE, abort_req, SEQ; the in-command temporaries end. -/
def finish (c : ErrCode) (s : State) : State :=
  { s with errcode := c, done := true, abortReq := false, seq := .idle, drawn := [] }

/-- `finish()`: the command ends with OK, its destinations already written in `s` (00_scope.md R11). -/
def complete (s : State) : Host.Outcome State Fault Refusal := .next (finish .ok s)

/-- `raise Err(code)`: no destination changes (60_exceptions.md R266). -/
def raiseErr (c : ErrCode) (s : State) : Host.Outcome State Fault Refusal := .next (finish c s)

/-- OUT after a buffer command's error: BUF_BYTES free bytes, the n-th such loss (60_exceptions.md R267; log 7). -/
def freeOut (bufBytes n : Nat) : Memory :=
  memWriteBytes [] outBase ((List.range bufBytes).map (Config.freeOutByte n))

/-- The state a buffer command's error leaves, before its finish: OUT_LEN 0 and OUT unspecified (60_exceptions.md R267). -/
def loseOut (s : State) : State :=
  { s with outLen := 0, outBuf := freeOut s.cfg.bufBytes s.fresh, fresh := s.fresh + 1 }

/-- `raise Err(code)` in CBCENC, CBCDEC, RSAENC, RSADEC (60_exceptions.md R267). -/
def raiseBufErr (c : ErrCode) (s : State) : Host.Outcome State Fault Refusal := .next (finish c (loseOut s))

/-- The command word the sequencer runs (10_state.md R29). -/
def fetchCommand (s : State) : Word := s.cmd

/-! ### Random words -/

/-- A part of a command that draws words: from the words available, the value and the words left, or `none` when the words
run out, that is, when it waits at a `Draw32()` (20_memory.md R82). -/
abbrev Draw (α : Type) := List Word → Option (α × List Word)

/-- n calls of `Draw32()`, in order (20_memory.md R82). -/
def drawWords : Nat → Draw (List Word)
  | 0, ws => some ([], ws)
  | _ + 1, [] => none
  | n + 1, w :: ws =>
    match drawWords n ws with
    | none => none
    | some (vs, rest) => some (w :: vs, rest)

/-- The core has taken all offered words but `rest` (20_memory.md R82). -/
def takeAllBut (rest : List Word) (s : State) : State :=
  { s with rng := rest, rngPos := s.rngPos + (s.rng.length - rest.length) }

/-- The core has taken every offered word and waits for the next one: the command goes on being Busy
(70_reset_and_hazards.md R308; log 4). -/
def waitForWord (s : State) : State :=
  { s with drawn := s.drawn ++ s.rng, rng := [], rngPos := s.rngPos + s.rng.length }

/-- The RNG port offers one more word (20_memory.md R82; log 5). -/
def offerWord (w : Word) (s : State) : State := { s with rng := s.rng ++ [w] }

/-- The core takes the word `w` and leaves the words `ws` on offer (20_memory.md R82). -/
def takeWord (w : Word) (ws : List Word) (s : State) : State :=
  { s with drawn := s.drawn ++ [w], rng := ws, rngPos := s.rngPos + 1 }

/-- Runs the drawing part of a command from its beginning on the words already drawn and then on those offered
(60_exceptions.md R265, R276; log 4). With an abort pending it goes no further than the next abort point, where it takes no
word and ends by `onAbort`; an abort pending after the last abort point has no effect. -/
def withDraws {α : Type} (prog : Draw α) (onAbort : State → Host.Outcome State Fault Refusal)
    (k : α → State → Host.Outcome State Fault Refusal) (s : State) : Host.Outcome State Fault Refusal :=
  if s.abortReq then
    match prog s.drawn with
    | none => onAbort s
    | some (v, _) => k v s
  else
    match prog (s.drawn ++ s.rng) with
    | none => .next (waitForWord s)
    | some (v, rest) => k v (takeAllBut rest s)

/-! ### Reset (70_reset_and_hazards.md R301) -/

/-- `rst_n = 0`: the running command is abandoned, every register takes its reset value, SEQ is Init. The parameters, the
words the port offers and the events to come are not the core's to reset (log 11). -/
def assertReset (s : State) : State :=
  { State.resetWith s.cfg with rstn := false, rng := s.rng, inputs := s.inputs, fresh := s.fresh }

/-- `rst_n = 1`. -/
def releaseReset (s : State) : State := { s with rstn := true }

/-- The end of Init: the windows are zeroized and SEQ becomes Idle. -/
def endInit (s : State) : State :=
  { s with
    iv := Block.zero, key := Block.zero, state := Block.zero, rk := RoundKeys.zero, inBuf := [], outBuf := [],
    x := Vector.replicate 8 0, pubE := 0, pubN := 0, privD := 0, privN := 0, seq := .idle }

end Sys2Proof.Machine
end

