-- ==== Sys2Proof/Machine/Flags.lean ====
section
/-! DEFINITION. STATUS and its flags, CTRL, CFG2, the interrupt output (10_state.md R25 to R28, R48; 60_exceptions.md R261,
R268). -/

namespace Sys2Proof.Machine

/-- The number of a completion code (60_exceptions.md R261). -/
def errByte : ErrCode → Byte
  | .ok => 0x00
  | .illegalCommand => 0x01
  | .missingKey => 0x02
  | .publicKeyMissing => 0x03
  | .privateKeyMissing => 0x04
  | .messageTooLong => 0x05
  | .padError => 0x06
  | .invalidCiphertextLength => 0x07
  | .invalidPadding => 0x08
  | .bufferOverflow => 0x09
  | .badKeyLength => 0x0A
  | .notInvertible => 0x0B
  | .badOperand => 0x0C
  | .aborted => 0x0D

/-- STATUS.BUSY: 1 exactly when SEQ is not Idle (10_state.md R20). -/
def busy (s : State) : Bool := s.seq != .idle

/-- STATUS as read (10_state.md R27): bits 31..24 reserved, 23..16 ERRCODE, 15..10 reserved, 9 OVF, 8 PRIME, 7 reserved,
6 PRIV_VALID, 5 PUB_VALID, 4 KEY_VALID, 3 reserved, 2 WBUSY, 1 DONE, 0 BUSY. -/
def statusWord (s : State) : Word :=
  0#8 ++ errByte s.errcode ++ 0#6 ++ BitVec.ofBool s.ovf ++ BitVec.ofBool s.prime ++ 0#1 ++ BitVec.ofBool s.privValid ++
    BitVec.ofBool s.pubValid ++ BitVec.ofBool s.keyValid ++ 0#1 ++ BitVec.ofBool s.wbusy ++ BitVec.ofBool s.done ++
    BitVec.ofBool (busy s)

/-- A host write to STATUS: write one to clear of DONE and WBUSY (10_state.md R28). -/
def writeStatus (v : Word) (s : State) : State :=
  { s with done := s.done && !v.getLsbD 1, wbusy := s.wbusy && !v.getLsbD 2 }

/-- CTRL as read: IE in bit 0, every other bit 0 (10_state.md R26). -/
def ctrlWord (s : State) : Word := (BitVec.ofBool s.ie).setWidth 32

/-- A host write to CTRL: IE, and the ABORT action, which does something only while Busy (10_state.md R26). -/
def writeCtrl (v : Word) (s : State) : State :=
  { s with ie := v.getLsbD 0, abortReq := s.abortReq || (v.getLsbD 1 && s.seq == .busy) }

/-- CFG2 as read: DIGEST_SIZE in bits 7..0, MR_ROUNDS in 15..8, NXREG = 8 in 19..16, the rest 0 (10_state.md R25). -/
def cfg2Word (c : Config) : Word := 0#12 ++ 8#4 ++ BitVec.ofNat 8 c.mrRounds ++ BitVec.ofNat 8 c.digestSize

/-- The level of the `irq` output: `CTRL.IE & STATUS.DONE` (60_exceptions.md R268). -/
def irq (s : State) : Bool := s.ie && s.done

/-- The OVF flag of a full product: it does not fit in BIG_BITS bits (45_bigint.md R211). -/
def productOverflows (c : Config) (prod : Nat) : Bool := decide (2 ^ c.bigBits ≤ prod)

end Sys2Proof.Machine
end

