-- ==== Sys2Proof/Machine/Operands.lean ====
section
/-! DEFINITION. The sources a command reads, as they stood when it started (60_exceptions.md R266; log 3), and the
destinations it writes: every operand form of 30_encoding.md R102, R103. -/

namespace Sys2Proof.Machine

/-- `OPA[7:0]`; bits 31..8 are ignored (10_state.md R33). -/
def byteA (s : State) : Byte := s.opa.setWidth 8

/-- `OPB[7:0]`; bits 31..8 are ignored (10_state.md R34). -/
def byteB (s : State) : Byte := s.opb.setWidth 8

/-- `RES <- zext_32(b)` (10_state.md R35). -/
def writeRes (b : Byte) (s : State) : State := { s with res := b.setWidth 32 }

/-- ARG as an unsigned number (10_state.md R30). -/
def argNat (s : State) : Nat := s.arg.toNat

/-- IN_LEN as an unsigned number (10_state.md R31). -/
def inLenNat (s : State) : Nat := s.inLen.toNat

/-- `MemRead(IN, 0, n)` (10_state.md R40). -/
def inBytes (s : State) (n : Nat) : List Byte := memReadBytes s.inBuf inBase n

/-- `MemWrite(OUT, 0, len(bs), bs)` and `OUT_LEN <- len(bs)` (10_state.md R32, R41). -/
def writeOut (bs : List Byte) (s : State) : State :=
  { s with outBuf := memWriteBytes s.outBuf outBase bs, outLen := BitVec.ofNat 32 bs.length }

/-- `STATE <- b` (10_state.md R39). -/
def writeState (b : Block) (s : State) : State := { s with state := b }

end Sys2Proof.Machine
end

