-- ==== Sys2Proof/Machine/Bus.lean ====
section
/-! DEFINITION. The host bus: the register map, reads, writes, refusals and their side effects (10_state.md R21;
20_memory.md R70 to R79). -/

namespace Sys2Proof.Machine

/-- A big-integer register (10_state.md R42 to R44). -/
inductive BigReg where
  | x (i : XReg)
  | pubE
  | pubN
  | privD
  | privN
  deriving DecidableEq, Repr

/-- What a mapped word offset names (10_state.md R21): a register, or word j of a window or big-integer register. -/
inductive Target where
  | id
  | cfg0
  | cfg1
  | cfg2
  | ctrl
  | status
  | cmd
  | arg
  | inLen
  | outLen
  | opa
  | opb
  | res
  | iv (j : Nat)
  | key (j : Nat)
  | state (j : Nat)
  | rk (k : RoundIdx) (j : Nat)
  /-- The word of IN at a bus offset. -/
  | inBuf (a : Nat)
  /-- The word of OUT at a bus offset. -/
  | outBuf (a : Nat)
  | big (r : BigReg) (j : Nat)
  deriving DecidableEq, Repr

/-- The word of a big-integer slot at offset `o` in the slot; above BIG_BITS/8 it is unmapped (10_state.md R21). -/
def bigTarget (c : Config) (r : BigReg) (o : Nat) : Option Target :=
  if o < c.bigBits / 8 then some (.big r (o / 4)) else none

/-- The scalar registers (10_state.md R21). -/
def scalarTarget (a : Nat) : Option Target :=
  match a with
  | 0x0000 => some .id
  | 0x0004 => some .cfg0
  | 0x0008 => some .cfg1
  | 0x000C => some .cfg2
  | 0x0010 => some .ctrl
  | 0x0014 => some .status
  | 0x0018 => some .cmd
  | 0x001C => some .arg
  | 0x0020 => some .inLen
  | 0x0024 => some .outLen
  | 0x0028 => some .opa
  | 0x002C => some .opb
  | 0x0030 => some .res
  | _ => none

/-- Offsets below 0x1000: the scalar registers, IV, KEY, STATE, RK (10_state.md R21). -/
def lowTarget (a : Nat) : Option Target :=
  if a < 0x0040 then scalarTarget a
  else if a < 0x0050 then some (.iv ((a - 0x0040) / 4))
  else if a < 0x0060 then some (.key ((a - 0x0050) / 4))
  else if a < 0x0070 then some (.state ((a - 0x0060) / 4))
  else if a < 0x0100 then none
  else if a < 0x01B0 then some (.rk (Fin.ofNat 11 ((a - 0x0100) / 16)) ((a - 0x0100) % 16 / 4))
  else none

/-- Offsets at or above 0x4000: the big-integer slots (10_state.md R21). -/
def bigSlotTarget (c : Config) (a : Nat) : Option Target :=
  if a < 0x5000 then bigTarget c (.x (Fin.ofNat 8 ((a - 0x4000) / 0x200))) ((a - 0x4000) % 0x200)
  else if a < 0x5200 then bigTarget c .pubE (a - 0x5000)
  else if a < 0x5400 then bigTarget c .pubN (a - 0x5200)
  else if a < 0x5600 then bigTarget c .privD (a - 0x5400)
  else if a < 0x5800 then bigTarget c .privN (a - 0x5600)
  else none

/-- The register map: what the word at an aligned offset names; `none` when the offset is unmapped (10_state.md R21). -/
def targetAt (c : Config) (a : Nat) : Option Target :=
  if a < inBase then lowTarget a
  else if a < outBase then (if a < inBase + c.bufBytes then some (.inBuf a) else none)
  else if a < 0x3000 then (if a < outBase + c.bufBytes then some (.outBuf a) else none)
  else if a < 0x4000 then none
  else bigSlotTarget c a

/-- The value of a big-integer register. -/
def bigRead (s : State) : BigReg → Nat
  | .x i => xRead s i
  | .pubE => s.pubE
  | .pubN => s.pubN
  | .privD => s.privD
  | .privN => s.privN

/-- A host write to a big-integer register: the value, and the valid bit it clears (10_state.md R43 to R45). -/
def bigHostWrite (r : BigReg) (v : Nat) (s : State) : State :=
  match r with
  | .x i => xWrite i v s
  | .pubE => { s with pubE := v, pubValid := false }
  | .pubN => { s with pubN := v, pubValid := false }
  | .privD => { s with privD := v, privValid := false }
  | .privN => { s with privN := v, privValid := false }

/-- The identification register (10_state.md R22). -/
def idWord : Word := 0xC4030001

/-- What a read of a mapped word returns while SEQ is Idle, and of the readable ones in every phase. -/
def readTarget (s : State) : Target → Word
  | .id => idWord
  | .cfg0 => BitVec.ofNat 32 s.cfg.bufBytes
  | .cfg1 => BitVec.ofNat 32 s.cfg.bigBits
  | .cfg2 => cfg2Word s.cfg
  | .ctrl => ctrlWord s
  | .status => statusWord s
  | .cmd => s.cmd
  | .arg => s.arg
  | .inLen => s.inLen
  | .outLen => s.outLen
  | .opa => s.opa
  | .opb => s.opb
  | .res => s.res
  | .iv j => blockWord s.iv j
  | .key j => blockWord s.key j
  | .state j => blockWord s.state j
  | .rk k j => blockWord s.rk[k] j
  | .inBuf a => memReadWord s.inBuf a
  | .outBuf a => memReadWord s.outBuf a
  | .big r j => bigWord (bigRead s r) j

/-- The registers a host may read while SEQ is not Idle (20_memory.md R79). -/
def readableWhileBusy : Target → Bool
  | .id | .cfg0 | .cfg1 | .cfg2 | .ctrl | .status | .cmd | .arg | .inLen | .opa | .opb | .inBuf _ => true
  | .outLen | .res | .iv _ | .key _ | .state _ | .rk _ _ | .outBuf _ | .big _ _ => false

/-- A host write accepted while SEQ is Idle, with its side effect (20_memory.md R74, R77; 10_state.md R29, R45). -/
def writeTarget (v : Word) (s : State) : Target → State
  | .id | .cfg0 | .cfg1 | .cfg2 | .outLen | .res | .rk _ _ | .outBuf _ => s
  | .ctrl => writeCtrl v s
  | .status => writeStatus v s
  | .cmd => startCommand v s
  | .arg => { s with arg := v }
  | .inLen => { s with inLen := v }
  | .opa => { s with opa := v }
  | .opb => { s with opb := v }
  | .iv j => { s with iv := setBlockWord s.iv j v }
  | .key j => { s with key := setBlockWord s.key j v, keyValid := false }
  | .state j => { s with state := setBlockWord s.state j v }
  | .inBuf a => { s with inBuf := memWriteWord s.inBuf a v }
  | .big r j => bigHostWrite r (setBigWord (bigRead s r) j v) s

/-- The registers a host may write in every phase (20_memory.md R78). -/
def writableWhileBusy : Target → Bool
  | .ctrl | .status => true
  | .id | .cfg0 | .cfg1 | .cfg2 | .cmd | .arg | .inLen | .outLen | .opa | .opb | .res | .iv _ | .key _ | .state _
  | .rk _ _ | .inBuf _ | .outBuf _ | .big _ _ => false

/-- What an access names, or `none` when it is refused: misaligned or unmapped (20_memory.md R72, R73). -/
def accessTarget (c : Config) (a : Addr) : Option Target :=
  if a.toNat % 4 ≠ 0 then none else targetAt c a.toNat

/-- A host read (20_memory.md R72, R73, R76, R79; 70_reset_and_hazards.md R300). -/
def hostRead (a : Addr) (s : State) : State :=
  if !s.rstn then { s with resp := .noResponse }
  else match accessTarget s.cfg a with
    | none => { s with resp := .slverr }
    | some t =>
      if !busy s || readableWhileBusy t then { s with resp := .data (readTarget s t) }
      else { s with resp := .data (Config.freeRead s.fresh), fresh := s.fresh + 1 }

/-- A host write (20_memory.md R71 to R74, R77, R78; 70_reset_and_hazards.md R300). -/
def hostWrite (a : Addr) (v : Word) (strb : Nibble) (s : State) : State :=
  if !s.rstn then { s with resp := .noResponse }
  else if strb ≠ 0xF then { s with resp := .slverr }
  else match accessTarget s.cfg a with
    | none => { s with resp := .slverr }
    | some t =>
      if !busy s || writableWhileBusy t then { writeTarget v s t with resp := .okay }
      else { s with wbusy := true, resp := .okay }

/-- One bus transaction. -/
def access (acc : Access) (s : State) : State :=
  match acc with
  | .read a => hostRead a s
  | .write a v strb => hostWrite a v strb s

end Sys2Proof.Machine
end

