-- ==== Sys2Proof/Machine/Gf256.lean ====
section
/-! DEFINITION. GF(2⁸) and the commands NOP, GFMUL, XTIME (40_gf256.md). -/

namespace Sys2Proof.Machine

/-- Doubling, with feedback 0x1B (40_gf256.md R130). -/
def xtime (a : Byte) : Byte := (a <<< 1) ^^^ (if a.getLsbD 7 then 0x1B else 0x00)

/-- The shift-and-add loop over the low n bits of b, with accumulator p (40_gf256.md R131). -/
def gmulLoop : Nat → Byte → Byte → Byte → Byte
  | 0, _, _, p => p
  | n + 1, a, b, p => gmulLoop n (xtime a) (b >>> 1) (if b.getLsbD 0 then p ^^^ a else p)

/-- The field product (40_gf256.md R131). -/
def gmul (a b : Byte) : Byte := gmulLoop 8 a b 0

/-- NOP (40_gf256.md R133). -/
def execNop (s : State) : Host.Outcome State Fault Refusal := complete s

/-- GFMUL (40_gf256.md R134). -/
def execGfmul (s : State) : Host.Outcome State Fault Refusal := complete (writeRes (gmul (byteA s) (byteB s)) s)

/-- XTIME (40_gf256.md R135). -/
def execXtime (s : State) : Host.Outcome State Fault Refusal := complete (writeRes (xtime (byteA s)) s)

end Sys2Proof.Machine
end

