-- ==== Sys2Proof/Machine/BlockTransform.lean ====
section
/-! DEFINITION. The block transforms and their commands (41_block_transform.md). -/

namespace Sys2Proof.Machine

/-- `SubBytes` (41_block_transform.md R143). -/
def subBytes (b : Block) : Block := b.map sboxAt

/-- `InvSubBytes` (41_block_transform.md R143). -/
def invSubBytes (b : Block) : Block := b.map invSboxAt

/-- `ShiftRows(blk)[r + 4c] = blk[r + 4((c + r) mod 4)]`, with r = i mod 4 and c = i / 4 (41_block_transform.md R144). -/
def shiftRows (b : Block) : Block :=
  Vector.ofFn fun i : Fin 16 => b[i.val % 4 + 4 * ((i.val / 4 + i.val % 4) % 4)]

/-- `InvShiftRows(blk)[r + 4((c + r) mod 4)] = blk[r + 4c]`: output column i / 4 of row r takes input column
(i / 4 - r) mod 4 (41_block_transform.md R145). -/
def invShiftRows (b : Block) : Block :=
  Vector.ofFn fun i : Fin 16 => b[i.val % 4 + 4 * ((i.val / 4 + 4 - i.val % 4) % 4)]

/-- Row r of `MixColumns` of one column (41_block_transform.md R146). -/
def mixRow (r : Nat) (a0 a1 a2 a3 : Byte) : Byte :=
  match r with
  | 0 => gmul 2 a0 ^^^ gmul 3 a1 ^^^ a2 ^^^ a3
  | 1 => a0 ^^^ gmul 2 a1 ^^^ gmul 3 a2 ^^^ a3
  | 2 => a0 ^^^ a1 ^^^ gmul 2 a2 ^^^ gmul 3 a3
  | _ => gmul 3 a0 ^^^ a1 ^^^ a2 ^^^ gmul 2 a3

/-- Row r of `InvMixColumns` of one column (41_block_transform.md R147). -/
def invMixRow (r : Nat) (a0 a1 a2 a3 : Byte) : Byte :=
  match r with
  | 0 => gmul 14 a0 ^^^ gmul 11 a1 ^^^ gmul 13 a2 ^^^ gmul 9 a3
  | 1 => gmul 9 a0 ^^^ gmul 14 a1 ^^^ gmul 11 a2 ^^^ gmul 13 a3
  | 2 => gmul 13 a0 ^^^ gmul 9 a1 ^^^ gmul 14 a2 ^^^ gmul 11 a3
  | _ => gmul 11 a0 ^^^ gmul 13 a1 ^^^ gmul 9 a2 ^^^ gmul 14 a3

/-- A transform of each column `blk[4c..4c+3]` by its rows (41_block_transform.md R146, R147). -/
def mapColumns (row : Nat → Byte → Byte → Byte → Byte → Byte) (b : Block) : Block :=
  Vector.ofFn fun i : Fin 16 =>
    have : 4 * (i.val / 4) + 3 < 16 := by omega
    row (i.val % 4) b[4 * (i.val / 4)] b[4 * (i.val / 4) + 1] b[4 * (i.val / 4) + 2] b[4 * (i.val / 4) + 3]

/-- `MixColumns` (41_block_transform.md R146). -/
def mixColumns (b : Block) : Block := mapColumns mixRow b

/-- `InvMixColumns` (41_block_transform.md R147). -/
def invMixColumns (b : Block) : Block := mapColumns invMixRow b

/-- `AddRoundKey` with the round key itself (41_block_transform.md R148). -/
def addRoundKey (b rk : Block) : Block := blockXor b rk

/-- SBOX (41_block_transform.md R150). -/
def execSbox (s : State) : Host.Outcome State Fault Refusal := complete (writeRes (sboxAt (byteA s)) s)

/-- INVSBOX (41_block_transform.md R151). -/
def execInvsbox (s : State) : Host.Outcome State Fault Refusal := complete (writeRes (invSboxAt (byteA s)) s)

/-- SUBBYTES (41_block_transform.md R152). -/
def execSubbytes (s : State) : Host.Outcome State Fault Refusal := complete (writeState (subBytes s.state) s)

/-- INVSUBBYTES (41_block_transform.md R153). -/
def execInvsubbytes (s : State) : Host.Outcome State Fault Refusal := complete (writeState (invSubBytes s.state) s)

/-- SHIFTROWS (41_block_transform.md R154). -/
def execShiftrows (s : State) : Host.Outcome State Fault Refusal := complete (writeState (shiftRows s.state) s)

/-- INVSHIFTROWS (41_block_transform.md R155). -/
def execInvshiftrows (s : State) : Host.Outcome State Fault Refusal := complete (writeState (invShiftRows s.state) s)

/-- MIXCOLUMNS (41_block_transform.md R156). -/
def execMixcolumns (s : State) : Host.Outcome State Fault Refusal := complete (writeState (mixColumns s.state) s)

/-- INVMIXCOLUMNS (41_block_transform.md R157). -/
def execInvmixcolumns (s : State) : Host.Outcome State Fault Refusal := complete (writeState (invMixColumns s.state) s)

/-- ADDROUNDKEY (41_block_transform.md R158). -/
def execAddroundkey (j : RoundIdx) (s : State) : Host.Outcome State Fault Refusal :=
  if !s.keyValid then raiseErr .missingKey s
  else complete (writeState (addRoundKey s.state s.rk[j]) s)

end Sys2Proof.Machine
end

