-- ==== Sys2Proof/Machine/KeySchedule.lean ====
section
/-! DEFINITION. The key schedule and the commands KEYBIND, KEYUNBIND, SYMKEYGEN (42_key_schedule.md). -/

namespace Sys2Proof.Machine

/-- `RotWord([t0, t1, t2, t3]) = [t1, t2, t3, t0]` (42_key_schedule.md R162). -/
def rotWord (t : KeyWord) : KeyWord := #v[t[1], t[2], t[3], t[0]]

/-- `SubWord` (42_key_schedule.md R162). -/
def subWord (t : KeyWord) : KeyWord := t.map sboxAt

/-- Bytewise `^` on key words. -/
def keyWordXor (a b : KeyWord) : KeyWord := Vector.zipWith (· ^^^ ·) a b

/-- `t[0] <- t[0] ^ rcon` (42_key_schedule.md R160). -/
def xorRcon (t : KeyWord) (rcon : Byte) : KeyWord := t.set 0 (t[0] ^^^ rcon)

/-- Word i of a 16-byte key: its bytes 4i..4i+3, byte 4i first (20_memory.md R87). -/
def keyWordOf (key : Block) (i : Fin 4) : KeyWord := Vector.ofFn fun b : Fin 4 => key[4 * i.val + b.val]

/-- The loop of 42_key_schedule.md R160 for n more positions from position i: `prev` are the words w[i-4], w[i-3], w[i-2],
w[i-1]; the answer is w[i], w[i+1], … -/
def expandLoop : Nat → Nat → KeyWord → KeyWord → KeyWord → KeyWord → Byte → List KeyWord
  | 0, _, _, _, _, _, _ => []
  | n + 1, i, w4, w3, w2, w1, rcon =>
    if i % 4 = 0 then
      let w := keyWordXor w4 (xorRcon (subWord (rotWord w1)) rcon)
      w :: expandLoop n (i + 1) w3 w2 w1 w (xtime rcon)
    else
      let w := keyWordXor w4 w1
      w :: expandLoop n (i + 1) w3 w2 w1 w rcon

/-- The 44 words w[0..43] (42_key_schedule.md R160, R161: the round constant starts at 0x01). -/
def expandWords (key : Block) : List KeyWord :=
  let w0 := keyWordOf key 0
  let w1 := keyWordOf key 1
  let w2 := keyWordOf key 2
  let w3 := keyWordOf key 3
  w0 :: w1 :: w2 :: w3 :: expandLoop 40 4 w0 w1 w2 w3 0x01

/-- `KeyExpansion`: `RK_j = w[4j] ‖ w[4j+1] ‖ w[4j+2] ‖ w[4j+3]` (42_key_schedule.md R160). -/
def keyExpansion (key : Block) : RoundKeys :=
  let ws := expandWords key
  Vector.ofFn fun j : Fin 11 => Vector.ofFn fun i : Fin 16 =>
    (ws.getD (4 * j.val + i.val / 4) (Vector.replicate 4 0))[i.val % 4]

/-- The symmetric key bound: `RK <- KeyExpansion(KEY)`, `KEY_VALID <- 1` (42_key_schedule.md R163). -/
def bindSym (s : State) : State := { s with rk := keyExpansion s.key, keyValid := true }

/-- KEYBIND (42_key_schedule.md R163). -/
def execKeybind (m : KeyMask) (s : State) : Host.Outcome State Fault Refusal :=
  if m.pub && s.pubN < 2 then raiseErr .badOperand s
  else if m.priv && s.privN < 2 then raiseErr .badOperand s
  else
    let t := if m.sym then bindSym s else s
    complete { t with pubValid := t.pubValid || m.pub, privValid := t.privValid || m.priv }

/-- KEYUNBIND (42_key_schedule.md R164). -/
def execKeyunbind (m : KeyMask) (s : State) : Host.Outcome State Fault Refusal :=
  complete { s with
    keyValid := s.keyValid && !m.sym
    pubValid := s.pubValid && !m.pub
    privValid := s.privValid && !m.priv }

/-- SYMKEYGEN (42_key_schedule.md R165). -/
def execSymkeygen (s : State) : Host.Outcome State Fault Refusal :=
  if argNat s ≠ 16 then raiseErr .badKeyLength s
  else withDraws (drawWords 4) (raiseErr .aborted)
    (fun ws t => complete (bindSym { t with key := blockOfWords ws })) s

end Sys2Proof.Machine
end

