-- ==== Sys2Proof/Machine/BlockCipher.lean ====
section
/-! DEFINITION. AES-128 on one block and the commands AESENC, AESDEC (43_block_cipher.md). -/

namespace Sys2Proof.Machine

/-- A middle round of `Cipher`: SubBytes, ShiftRows, MixColumns, AddRoundKey r (43_block_cipher.md R180). -/
def cipherRound (rk : RoundKeys) (b : Block) (r : RoundIdx) : Block :=
  addRoundKey (mixColumns (shiftRows (subBytes b))) rk[r]

/-- `Cipher` (43_block_cipher.md R180). -/
def cipher (rk : RoundKeys) (b : Block) : Block :=
  let t := ([1, 2, 3, 4, 5, 6, 7, 8, 9] : List RoundIdx).foldl (cipherRound rk) (addRoundKey b rk[0])
  addRoundKey (shiftRows (subBytes t)) rk[10]

/-- A middle round of `InvCipher`: AddRoundKey r, InvMixColumns, InvShiftRows, InvSubBytes (43_block_cipher.md R181). -/
def invCipherRound (rk : RoundKeys) (b : Block) (r : RoundIdx) : Block :=
  invSubBytes (invShiftRows (invMixColumns (addRoundKey b rk[r])))

/-- `InvCipher` (43_block_cipher.md R181). -/
def invCipher (rk : RoundKeys) (b : Block) : Block :=
  let t := ([9, 8, 7, 6, 5, 4, 3, 2, 1] : List RoundIdx).foldl (invCipherRound rk)
    (invSubBytes (invShiftRows (addRoundKey b rk[10])))
  addRoundKey t rk[0]

/-- AESENC (43_block_cipher.md R182). -/
def execAesenc (s : State) : Host.Outcome State Fault Refusal :=
  if !s.keyValid then raiseErr .missingKey s
  else complete (writeState (cipher s.rk s.state) s)

/-- AESDEC (43_block_cipher.md R183). -/
def execAesdec (s : State) : Host.Outcome State Fault Refusal :=
  if !s.keyValid then raiseErr .missingKey s
  else complete (writeState (invCipher s.rk s.state) s)

end Sys2Proof.Machine
end

