-- ==== Sys2Proof/Machine/Cbc.lean ====
section
/-! DEFINITION. CBC with PKCS#7 padding and the commands CBCENC, CBCDEC (44_cbc.md). -/

namespace Sys2Proof.Machine

/-- `p = 16 − (L mod 16)` (44_cbc.md R190). -/
def padLen (len : Nat) : Nat := 16 - len % 16

/-- `Pad(M) = M ‖ rep(p, p)` (44_cbc.md R190). -/
def pad (m : List Byte) : List Byte := m ++ rep (BitVec.ofNat 8 (padLen m.length)) (padLen m.length)

/-- The cipher blocks of `CbcEncrypt`, `prev` the IV or the cipher block before (44_cbc.md R191). -/
def cbcEncryptBlocks (rk : RoundKeys) (prev : Block) : List Block → List Block
  | [] => []
  | p :: ps =>
    let c := cipher rk (blockXor p prev)
    c :: cbcEncryptBlocks rk c ps

/-- `CbcEncrypt(P, iv) = iv ‖ C_0 ‖ … ‖ C_{n−1}` (44_cbc.md R191). -/
def cbcEncrypt (rk : RoundKeys) (p : List Byte) (iv : Block) : List Byte :=
  bytesOfBlocks (iv :: cbcEncryptBlocks rk iv (blocksOf p (p.length / 16)))

/-- The plain blocks of `CbcDecrypt`, `prev` the cipher block before (44_cbc.md R192). -/
def cbcDecryptBlocks (rk : RoundKeys) (prev : Block) : List Block → List Block
  | [] => []
  | q :: qs => blockXor (invCipher rk q) prev :: cbcDecryptBlocks rk q qs

/-- `CbcDecrypt(Q_0 ‖ Q_1 ‖ … ‖ Q_n)`, Q_0 the IV (44_cbc.md R192). -/
def cbcDecrypt (rk : RoundKeys) (q : List Byte) : List Byte :=
  match blocksOf q (q.length / 16) with
  | [] => []
  | iv :: qs => bytesOfBlocks (cbcDecryptBlocks rk iv qs)

/-- The length `T = 16 + L + p` of CBCENC's output (44_cbc.md R193). -/
def cbcOutLen (len : Nat) : Nat := 16 + len + padLen len

/-- CBCENC's destinations, for the IV used (44_cbc.md R193). -/
def cbcencCommit (iv : Block) (s : State) : Host.Outcome State Fault Refusal :=
  complete { writeOut (cbcEncrypt s.rk (pad (inBytes s (inLenNat s))) iv) s with iv := iv }

/-- CBCENC (44_cbc.md R193). -/
def execCbcenc (src : IvSource) (s : State) : Host.Outcome State Fault Refusal :=
  if !s.keyValid then raiseBufErr .missingKey s
  else if s.cfg.bufBytes < inLenNat s then raiseBufErr .bufferOverflow s
  else if s.cfg.bufBytes < cbcOutLen (inLenNat s) then raiseBufErr .bufferOverflow s
  else match src with
    | .rng => withDraws (drawWords 4) (raiseBufErr .aborted) (fun ws t => cbcencCommit (blockOfWords ws) t) s
    | .ivreg => cbcencCommit s.iv s

/-- CBCDEC (44_cbc.md R194). -/
def execCbcdec (s : State) : Host.Outcome State Fault Refusal :=
  if !s.keyValid then raiseBufErr .missingKey s
  else if s.cfg.bufBytes < inLenNat s then raiseBufErr .bufferOverflow s
  else if inLenNat s < 32 ∨ inLenNat s % 16 ≠ 0 then raiseBufErr .invalidCiphertextLength s
  else
    let pt := cbcDecrypt s.rk (inBytes s (inLenNat s))
    let p := (pt.getD (inLenNat s - 17) 0).toNat
    if p = 0 ∨ 16 < p then raiseBufErr .invalidPadding s
    else complete (writeOut (pt.take (inLenNat s - 16 - p)) s)

end Sys2Proof.Machine
end

