-- ==== Sys2Proof/Machine/BigInt.lean ====
section
/-! DEFINITION. The big-integer unit and the commands BMUL, BMODEXP, BMODINV, BPRIME, BRANDPRIME (45_bigint.md). -/

namespace Sys2Proof.Machine

/-- The loop of modular exponentiation by squaring: `acc · base^e mod m` for e below 2^n (45_bigint.md R212 gives only the
result; Laws/BigInt.lean proves it; log 12). -/
def powModLoop : Nat → Nat → Nat → Nat → Nat → Nat
  | 0, _, _, _, acc => acc
  | n + 1, base, e, m, acc => powModLoop n (base * base % m) (e / 2) m (if e % 2 = 1 then acc * base % m else acc)

/-- `(base ^^ e) mod m` for m ≥ 1 (45_bigint.md R212). -/
def powMod (base e m : Nat) : Nat := powModLoop (bitlen e) (base % m) e m (1 % m)

/-- The loop of the extended Euclidean algorithm modulo m: remainders r0, r1 with r0 ≡ y0·v and r1 ≡ y1·v; at r1 = 0 the
answer is y0 (log 12). -/
def invModLoop : Nat → Nat → Nat → Nat → Nat → Nat → Nat
  | 0, _, _, y0, _, _ => y0
  | n + 1, r0, r1, y0, y1, m =>
    if r1 = 0 then y0
    else invModLoop n r1 (r0 % r1) y1 ((y0 + (m - r0 / r1 % m) * y1) % m) m

/-- The unique y with `0 ≤ y < m` and `(v · y) mod m = 1 mod m`, when v and m are coprime (45_bigint.md R213). -/
def invMod (v m : Nat) : Nat := invModLoop (v % m + 2) m (v % m) 0 (1 % m) m

/-- `n − 1 = 2^s · t` with t odd: (s, t), with at most `fuel` halvings (45_bigint.md R214). -/
def splitTwos : Nat → Nat → Nat × Nat
  | 0, t => (0, t)
  | fuel + 1, t =>
    if t % 2 = 1 then (0, t)
    else match splitTwos fuel (t / 2) with
      | (s, u) => (s + 1, u)

/-- The inner loop of a Miller–Rabin round: does some of the next k squarings of x reach n − 1 (45_bigint.md R214)? -/
def squaringsReach : Nat → Nat → Nat → Bool
  | 0, _, _ => false
  | k + 1, x, n =>
    let y := x * x % n
    if y = n - 1 then true else squaringsReach k y n

/-- One round of Miller–Rabin with a base: does n pass (45_bigint.md R214)? -/
def roundPasses (base s t n : Nat) : Bool :=
  let x := powMod base t n
  decide (x = 1) || decide (x = n - 1) || squaringsReach (s - 1) x n

/-- `RandBase(n, W)` (45_bigint.md R215). -/
def randBase (n w : Nat) : Draw Nat := fun ws =>
  match drawWords w ws with
  | none => none
  | some (vs, rest) => some (2 + natOfWords vs % (n - 3), rest)

/-- The rounds of Miller–Rabin; a failed round ends them with no further draws (45_bigint.md R214). -/
def millerRabinRounds : Nat → Nat → Nat → Nat → Nat → Draw Bool
  | 0, _, _, _, _, ws => some (true, ws)
  | k + 1, s, t, n, w, ws =>
    match randBase n w ws with
    | none => none
    | some (base, rest) => if roundPasses base s t n then millerRabinRounds k s t n w rest else some (false, rest)

/-- `MillerRabin(n)` with `rounds` rounds (45_bigint.md R214). -/
def millerRabin (rounds n : Nat) : Draw Bool := fun ws =>
  if n < 2 then some (false, ws)
  else if n = 2 ∨ n = 3 then some (true, ws)
  else if n % 2 = 0 then some (false, ws)
  else
    let st := splitTwos (bitlen (n - 1)) (n - 1)
    millerRabinRounds rounds st.1 st.2 n (ceilDiv (bitlen n) 32) ws

/-- The candidate of a draw: top bit and bit 0 forced (45_bigint.md R217). -/
def primeCandidate (bits v : Nat) : Nat := v % 2 ^ bits ||| 2 ^ (bits - 1) ||| 1

/-- The loop of `RandPrime`. Each candidate draws at least one word, so with more fuel than words it ends only by a prime or by
waiting for a word (45_bigint.md R217; log 13). -/
def randPrimeLoop : Nat → Nat → Nat → Draw Nat
  | 0, _, _, _ => none
  | fuel + 1, rounds, bits, ws =>
    match drawWords (ceilDiv bits 32) ws with
    | none => none
    | some (vs, rest) =>
      match millerRabin rounds (primeCandidate bits (natOfWords vs)) rest with
      | none => none
      | some (true, rest') => some (primeCandidate bits (natOfWords vs), rest')
      | some (false, rest') => randPrimeLoop fuel rounds bits rest'

/-- `RandPrime(bits)` (45_bigint.md R217). -/
def randPrime (rounds bits : Nat) : Draw Nat := fun ws => randPrimeLoop (ws.length + 1) rounds bits ws

/-- BMUL (45_bigint.md R211). -/
def execBmul (a b c : XReg) (s : State) : Host.Outcome State Fault Refusal :=
  let prod := xRead s b * xRead s c
  complete { xWrite a (prod % 2 ^ s.cfg.bigBits) s with ovf := productOverflows s.cfg prod }

/-- BMODEXP (45_bigint.md R212). -/
def execBmodexp (a b c d : XReg) (s : State) : Host.Outcome State Fault Refusal :=
  if xRead s d = 0 then raiseErr .badOperand s
  else complete (xWrite a (powMod (xRead s b) (xRead s c) (xRead s d)) s)

/-- BMODINV (45_bigint.md R213). -/
def execBmodinv (a b c : XReg) (s : State) : Host.Outcome State Fault Refusal :=
  if xRead s c = 0 then raiseErr .badOperand s
  else if Nat.gcd (xRead s b) (xRead s c) ≠ 1 then raiseErr .notInvertible s
  else complete (xWrite a (invMod (xRead s b) (xRead s c)) s)

/-- BPRIME (45_bigint.md R216). -/
def execBprime (b : XReg) (s : State) : Host.Outcome State Fault Refusal :=
  withDraws (millerRabin s.cfg.mrRounds (xRead s b)) (raiseErr .aborted) (fun r t => complete { t with prime := r }) s

/-- BRANDPRIME (45_bigint.md R218). -/
def execBrandprime (a : XReg) (s : State) : Host.Outcome State Fault Refusal :=
  if argNat s < 2 ∨ s.cfg.bigBits < argNat s then raiseErr .badOperand s
  else withDraws (randPrime s.cfg.mrRounds (argNat s)) (raiseErr .aborted) (fun p t => complete (xWrite a p t)) s

end Sys2Proof.Machine
end

