-- ==== Sys2Proof/Machine/Rsa.lean ====
section
/-! DEFINITION. RSA key generation and the RSA codec: the commands RSAKEYGEN, RSAENC, RSADEC (46_rsa.md). -/

namespace Sys2Proof.Machine

/-- `p <- RandPrime(bits); q <- RandPrime(bits)`, q drawn after p (46_rsa.md R241). -/
def drawPrimePair (rounds bits : Nat) : Draw (Nat × Nat) := fun ws =>
  match randPrime rounds bits ws with
  | none => none
  | some (p, rest) =>
    match randPrime rounds bits rest with
    | none => none
    | some (q, rest') => some ((p, q), rest')

/-- `φ = (p − 1)(q − 1)` (46_rsa.md R241). -/
def phiOf (p q : Nat) : Nat := (p - 1) * (q - 1)

/-- The new key pair, bound: PUB_E, PUB_N, PRIV_D, PRIV_N and their valid bits (46_rsa.md R241). -/
def writeKeyPair (e n d : Nat) (s : State) : State :=
  { s with pubE := e, pubN := n, privD := d, privN := n, pubValid := true, privValid := true }

/-- RSAKEYGEN's end, for the primes drawn (46_rsa.md R241). -/
def rsakeygenCommit (a b c : XReg) (pq : Nat × Nat) (s : State) : Host.Outcome State Fault Refusal :=
  if Nat.gcd (xRead s c) (phiOf pq.1 pq.2) ≠ 1 then raiseErr .notInvertible s
  else complete (xWrite b pq.2 (xWrite a pq.1
    (writeKeyPair (xRead s c) (pq.1 * pq.2) (invMod (xRead s c) (phiOf pq.1 pq.2)) s)))

/-- RSAKEYGEN (46_rsa.md R241). -/
def execRsakeygen (a b c : XReg) (s : State) : Host.Outcome State Fault Refusal :=
  if argNat s < 2 ∨ s.cfg.bigBits < 2 * argNat s then raiseErr .badOperand s
  else withDraws (drawPrimePair s.cfg.mrRounds (argNat s)) (raiseErr .aborted) (rsakeygenCommit a b c) s

/-- `Padded(M)`, k bytes (46_rsa.md R242). -/
def rsaPadded (digest : List Byte) (k : Nat) (m : List Byte) : List Byte :=
  rep 0x00 (k - digest.length - 1 - m.length) ++ [0x01] ++ digest ++ m

/-- The ciphertext bytes of a message (46_rsa.md R243). -/
def rsaEncrypt (digest : List Byte) (e n : Nat) (m : List Byte) : List Byte :=
  beBytes (blen n) (powMod (beNat (rsaPadded digest (blen n) m)) e n)

/-- The decrypted k-byte buffer of a ciphertext (46_rsa.md R244). -/
def rsaDecryptBuf (d n : Nat) (c : List Byte) : List Byte := beBytes (blen n) (powMod (beNat c) d n)

/-- The bytes of `buf` after its first 0x01 and the digest behind it; `none` when there is no 0x01 or no room for the digest
(46_rsa.md R244). -/
def rsaUnpad (digestSize : Nat) (buf : List Byte) : Option (List Byte) :=
  let i := buf.findIdx (· == 0x01)
  if i = buf.length then none
  else if buf.length < i + 1 + digestSize then none
  else some (buf.drop (i + 1 + digestSize))

/-- RSAENC (46_rsa.md R243). -/
def execRsaenc (s : State) : Host.Outcome State Fault Refusal :=
  if !s.pubValid then raiseBufErr .publicKeyMissing s
  else if s.cfg.bufBytes < inLenNat s then raiseBufErr .bufferOverflow s
  else if blen s.pubN < inLenNat s + s.cfg.digestSize + 2 then raiseBufErr .messageTooLong s
  else if s.cfg.bufBytes < blen s.pubN then raiseBufErr .bufferOverflow s
  else complete (writeOut (rsaEncrypt s.cfg.digest s.pubE s.pubN (inBytes s (inLenNat s))) s)

/-- RSADEC (46_rsa.md R244). -/
def execRsadec (s : State) : Host.Outcome State Fault Refusal :=
  if !s.privValid then raiseBufErr .privateKeyMissing s
  else if s.cfg.bufBytes < inLenNat s then raiseBufErr .bufferOverflow s
  else if inLenNat s ≠ blen s.privN then raiseBufErr .invalidCiphertextLength s
  else match rsaUnpad s.cfg.digestSize (rsaDecryptBuf s.privD s.privN (inBytes s (inLenNat s))) with
    | none => raiseBufErr .padError s
    | some r => complete (writeOut r s)

end Sys2Proof.Machine
end

