-- ==== Sys2Proof/Machine/Dispatch.lean ====
section
/-! DEFINITION. The dispatch of a decoded command to its meaning. -/

namespace Sys2Proof.Machine

-- 30_encoding.md R104: "execute the rule of op".
def exec (i : Instr) (s : State) : Host.Outcome State Fault Refusal :=
  match i with
  | .nop => Sys2Proof.Machine.execNop s
  | .gfmul => Sys2Proof.Machine.execGfmul s
  | .xtime => Sys2Proof.Machine.execXtime s
  | .sbox => Sys2Proof.Machine.execSbox s
  | .invsbox => Sys2Proof.Machine.execInvsbox s
  | .subbytes => Sys2Proof.Machine.execSubbytes s
  | .invsubbytes => Sys2Proof.Machine.execInvsubbytes s
  | .shiftrows => Sys2Proof.Machine.execShiftrows s
  | .invshiftrows => Sys2Proof.Machine.execInvshiftrows s
  | .mixcolumns => Sys2Proof.Machine.execMixcolumns s
  | .invmixcolumns => Sys2Proof.Machine.execInvmixcolumns s
  | .addroundkey j => Sys2Proof.Machine.execAddroundkey j s
  | .keybind m => Sys2Proof.Machine.execKeybind m s
  | .keyunbind m => Sys2Proof.Machine.execKeyunbind m s
  | .symkeygen => Sys2Proof.Machine.execSymkeygen s
  | .aesenc => Sys2Proof.Machine.execAesenc s
  | .aesdec => Sys2Proof.Machine.execAesdec s
  | .cbcenc src => Sys2Proof.Machine.execCbcenc src s
  | .cbcdec => Sys2Proof.Machine.execCbcdec s
  | .bmul a b c => Sys2Proof.Machine.execBmul a b c s
  | .bmodexp a b c d => Sys2Proof.Machine.execBmodexp a b c d s
  | .bmodinv a b c => Sys2Proof.Machine.execBmodinv a b c s
  | .bprime b => Sys2Proof.Machine.execBprime b s
  | .brandprime a => Sys2Proof.Machine.execBrandprime a s
  | .rsakeygen a b c => Sys2Proof.Machine.execRsakeygen a b c s
  | .rsaenc => Sys2Proof.Machine.execRsaenc s
  | .rsadec => Sys2Proof.Machine.execRsadec s

end Sys2Proof.Machine
end

