-- ==== Sys2Proof/Machine/Sequencer.lean ====
section
/-! DEFINITION. The sequencer's move and the effect of each event (10_state.md R20; 60_exceptions.md R264, R265, R270;
70_reset_and_hazards.md R300, R301). -/

namespace Sys2Proof.Machine

/-- The running command: its word decoded and its rule run, or IllegalCommand, which changes nothing else
(30_encoding.md R104). -/
def runCommand (s : State) : Host.Outcome State Fault Refusal :=
  match decode (fetchCommand s) with
  | .ok i => exec i s
  | .error _ => raiseErr .illegalCommand s

/-- The sequencer's move: nothing while `rst_n = 0`; the end of Init; nothing when Idle (60_exceptions.md R281); the running
command when Busy. -/
def runSequencer (s : State) : Host.Outcome State Fault Refusal :=
  if !s.rstn then .next s
  else match s.seq with
    | .init => .next (endInit s)
    | .idle => .next s
    | .busy => runCommand s

/-- A host access in the cycle in which the sequencer finishes (60_exceptions.md R270): the access is made first, as while
BUSY = 1, and the finish wins over it; an ABORT written in that cycle is not seen by the finishing command, and is discarded
with its finish. When the sequencer does not finish, the access is an ordinary one before its move. -/
def accessAtFinish (acc : Access) (s : State) : Host.Outcome State Fault Refusal :=
  if !busy s then .next (access acc s)
  else match runSequencer { access acc s with abortReq := s.abortReq } with
    | .next t => .next (if busy t then { t with abortReq := (access acc s).abortReq } else t)
    | .fault r => .fault r
    | .refused r => .refused r

/-- The command runs, and cannot finish on the words it has drawn: with none on offer it would wait, so its next act is a
`Draw32()` (20_memory.md R82; 60_exceptions.md R276). -/
def awaitsWord (s : State) : Bool :=
  match runSequencer { s with rng := [] } with
  | .next t => s.rstn && t.seq == .busy
  | .fault _ => false
  | .refused _ => false

/-- One `Draw32()` of the running command by itself: it takes the oldest word on offer. Nothing is taken when none is on offer,
when the command has drawn all its words, or when a pending abort is to end it (20_memory.md R82; 60_exceptions.md R276;
log 4). -/
def drawOne (s : State) : State :=
  match s.rng with
  | [] => s
  | w :: ws => if awaitsWord s then takeWord w ws s else s

/-- The effect of an event. -/
def handleEvent (e : Event) (s : State) : Host.Outcome State Fault Refusal :=
  match e with
  | .bus acc => .next (access acc s)
  | .busAtFinish acc => accessAtFinish acc s
  | .offer w => .next (offerWord w s)
  | .draw => .next (drawOne s)
  | .sequencer => runSequencer s
  | .resetAssert => .next (assertReset s)
  | .resetRelease => .next (releaseReset s)

/-- One step: the oldest event, or the sequencer's move when none is listed (log 2). -/
def stepEvent (s : State) : Host.Outcome State Fault Refusal :=
  match s.inputs with
  | [] => runSequencer s
  | e :: es => handleEvent e { s with inputs := es }

/-- The state in which the sequencer runs command word `w` as its next move: `w` accepted by CMD, and the sequencer's move the
oldest event (log 14). -/
def placeCommand (w : Word) (s : State) : State :=
  { startCommand w s with rstn := true, inputs := .sequencer :: s.inputs }

end Sys2Proof.Machine
end

