-- ==== Sys2Proof/Machine/HostScript.lean ====
section
/-! DEFINITION. The host-script notation as the events it expands to (30_encoding.md R109). Its loops and branches are the
host's, so `WAIT` is here one poll of STATUS after a move of the sequencer. -/

namespace Sys2Proof.Machine

/-- `WR off, v`. -/
def scriptWr (off : Addr) (v : Word) : List Event := [.bus (.write off v 0xF)]

/-- `RD t, off`; the value is in the response of the access. -/
def scriptRd (off : Addr) : List Event := [.bus (.read off)]

/-- `WRB off, s`: word by word in lane order, the last one padded with 0x00. -/
def scriptWrb (off : Addr) (s : List Byte) : List Event :=
  (List.range (ceilDiv s.length 4)).flatMap fun j =>
    scriptWr (off + BitVec.ofNat 16 (4 * j))
      (wordOfBytes (s.getD (4 * j) 0) (s.getD (4 * j + 1) 0) (s.getD (4 * j + 2) 0) (s.getD (4 * j + 3) 0))

/-- `WRBIG off, v`: BIG_BITS/32 words. -/
def scriptWrbig (c : Config) (off : Addr) (v : Nat) : List Event :=
  (List.range (c.bigBits / 32)).flatMap fun j => scriptWr (off + BitVec.ofNat 16 (4 * j)) (bigWord v j)

/-- `CMD c`. -/
def scriptCmd (i : Instr) : List Event := scriptWr 0x0018 (encode i)

/-- One poll of `WAIT`. -/
def scriptPoll : List Event := .sequencer :: scriptRd 0x0014

/-- `ACK`: clear DONE and WBUSY. -/
def scriptAck : List Event := scriptWr 0x0014 0x00000006

/-- `RUN c`, with one poll. -/
def scriptRun (i : Instr) : List Event := scriptCmd i ++ scriptPoll

end Sys2Proof.Machine
end

