-- ==== Sys2Proof/Safety.lean ====
section
/-! DEFINITION. The terms claims are made in: the invariant of the core, the step relation on states, and what the spec's
formulas say in words of their own, apart from the machine's definitions. -/

namespace Sys2Proof.Machine

/-- `t` is the state one step after `s`. -/
abbrev Steps (s t : State) : Prop := step s = .next t

/-- How many words a Miller–Rabin test of a prime draws (45_bigint.md R214): none for 2 and 3, else one base a round. -/
def primeTestWords (rounds p : Nat) : Nat := if p ≤ 3 then 0 else rounds * ceilDiv (bitlen p) 32

/-- Every big-integer register is below 2^BIG_BITS (45_bigint.md R210). -/
structure BigInRange (s : State) : Prop where
  x : ∀ i : XReg, xRead s i < 2 ^ s.cfg.bigBits
  pubE : s.pubE < 2 ^ s.cfg.bigBits
  pubN : s.pubN < 2 ^ s.cfg.bigBits
  privD : s.privD < 2 ^ s.cfg.bigBits
  privN : s.privN < 2 ^ s.cfg.bigBits

/-- IN and OUT are in canonical form and inside their windows (10_state.md R40, R41; log 15). -/
structure BuffersOk (s : State) : Prop where
  inWf : Memory.wf s.inBuf = true
  outWf : Memory.wf s.outBuf = true
  inWithin : Memory.within inBase (inBase + s.cfg.bufBytes) s.inBuf = true
  outWithin : Memory.within outBase (outBase + s.cfg.bufBytes) s.outBuf = true

/-- What holds of the core between any two steps, from every state that has it. -/
structure Inv (s : State) : Prop where
  /-- The parameters are legal (00_scope.md R7). -/
  legal : s.cfg.Legal
  big : BigInRange s
  buffers : BuffersOk s
  /-- RES[31:8] is 0 (10_state.md R35). -/
  resByte : s.res.toNat < 256
  /-- OUT_LEN never exceeds the window (10_state.md R32, R41). -/
  outLen : s.outLen.toNat ≤ s.cfg.bufBytes
  /-- A bound symmetric key has its expansion in RK (10_state.md R27, R38). -/
  boundKey : s.keyValid = true → s.rk = keyExpansion s.key
  /-- A bound public key has a modulus of at least 2 (42_key_schedule.md R163; 46_rsa.md R240). -/
  boundPub : s.pubValid = true → 2 ≤ s.pubN
  boundPriv : s.privValid = true → 2 ≤ s.privN
  /-- An abort request stands only while a command runs (10_state.md R26; 60_exceptions.md R264). -/
  abortOnlyBusy : s.abortReq = true → s.seq = .busy
  /-- Drawn words are held only by a running command (10_state.md R49). -/
  drawnOnlyBusy : s.drawn ≠ [] → s.seq = .busy
  /-- While a command runs, DONE is clear and ERRCODE is 0 (10_state.md R27; 60_exceptions.md R264). -/
  busyClear : s.seq = .busy → s.done = false ∧ s.errcode = .ok
  /-- During Init no key is bound and no command has finished (70_reset_and_hazards.md R301). -/
  initClear : s.seq = .init →
    s.keyValid = false ∧ s.pubValid = false ∧ s.privValid = false ∧ s.done = false ∧ s.errcode = .ok
  /-- While `rst_n = 0` the sequencer is in Init (70_reset_and_hazards.md R301). -/
  resetInit : s.rstn = false → s.seq = .init

/-! ### Terms of the spec's formulas -/

/-- `s` after its command has ended with code `c` and nothing else of it has changed (60_exceptions.md R264, finish). -/
def ended (c : ErrCode) (s : State) : State :=
  { s with errcode := c, done := true, abortReq := false, seq := .idle, drawn := [] }

/-- A command that runs: SEQ is Busy (10_state.md R20). -/
abbrev Running (s : State) : Prop := s.rstn = true ∧ s.seq = .busy

/-- The commands run one after another, each from the state its predecessor left. -/
def execAll : List Instr → State → Host.Outcome State Fault Refusal
  | [], s => .next s
  | i :: is, s =>
    match exec i s with
    | .next t => execAll is t
    | .fault r => .fault r
    | .refused r => .refused r

/-- The product of two bytes as polynomials over GF(2), not reduced (40_gf256.md R130). -/
def polyMul (a b : Byte) : BitVec 16 :=
  (List.range 8).foldl (fun p i => if b.getLsbD i then p ^^^ (a.setWidth 16 <<< i) else p) 0

/-- The remainder modulo `x^8 + x^4 + x^3 + x + 1`, 0x11B (40_gf256.md R130). -/
def polyMod (v : BitVec 16) : Byte :=
  ((List.range 8).foldl (fun r k => if r.getLsbD (15 - k) then r ^^^ (0x11B#16 <<< (7 - k)) else r) v).setWidth 8

/-- The product in GF(2⁸) (40_gf256.md R131). -/
def fieldProduct (a b : Byte) : Byte := polyMod (polyMul a b)

/-- `b` is `inv(a)`: 0 for 0, else the field inverse (41_block_transform.md R142). -/
def IsFieldInverse (a b : Byte) : Prop := (a = 0 ∧ b = 0) ∨ (a ≠ 0 ∧ fieldProduct a b = 1)

/-- Bit i of `affine(b)` (41_block_transform.md R142). -/
def affineBit (b : Byte) (i : Nat) : Bool :=
  ((((b.getLsbD i ^^ b.getLsbD ((i + 4) % 8)) ^^ b.getLsbD ((i + 5) % 8)) ^^ b.getLsbD ((i + 6) % 8)) ^^
    b.getLsbD ((i + 7) % 8)) ^^ (0x63#8).getLsbD i

/-- The words that 30_encoding.md R104 lets through, from the table of R105 and the legal values of R102. -/
def LegalWord (w : Word) : Prop :=
  let op := w.toNat % 256
  let fa := w.toNat / 2 ^ 8 % 16
  let fb := w.toNat / 2 ^ 12 % 16
  let fc := w.toNat / 2 ^ 16 % 16
  let fd := w.toNat / 2 ^ 20 % 16
  w.toNat < 2 ^ 24 ∧
  ((op ∈ [0x00, 0x01, 0x02, 0x10, 0x11, 0x12, 0x13, 0x14, 0x15, 0x16, 0x17, 0x22, 0x30, 0x31, 0x41, 0x70, 0x71] ∧
      fa = 0 ∧ fb = 0 ∧ fc = 0 ∧ fd = 0) ∨
    (op = 0x18 ∧ fa ≤ 10 ∧ fb = 0 ∧ fc = 0 ∧ fd = 0) ∨
    (op ∈ [0x20, 0x21] ∧ 1 ≤ fa ∧ fa ≤ 7 ∧ fb = 0 ∧ fc = 0 ∧ fd = 0) ∨
    (op = 0x40 ∧ fa ≤ 1 ∧ fb = 0 ∧ fc = 0 ∧ fd = 0) ∨
    (op ∈ [0x50, 0x52] ∧ fa ≤ 7 ∧ fb ≤ 7 ∧ fc ≤ 7 ∧ fd = 0) ∨
    (op = 0x51 ∧ fa ≤ 7 ∧ fb ≤ 7 ∧ fc ≤ 7 ∧ fd ≤ 7) ∨
    (op = 0x53 ∧ fa = 0 ∧ fb ≤ 7 ∧ fc = 0 ∧ fd = 0) ∨
    (op = 0x54 ∧ fa ≤ 7 ∧ fb = 0 ∧ fc = 0 ∧ fd = 0) ∨
    (op = 0x60 ∧ fa ≤ 7 ∧ fb ≤ 7 ∧ fc ≤ 7 ∧ fd = 0 ∧ fa ≠ fb))

/-- The offsets that 10_state.md R21 lists as unmapped, below its table. -/
def Unmapped (c : Config) (a : Nat) : Prop :=
  (0x0034 ≤ a ∧ a < 0x0040) ∨ (0x0070 ≤ a ∧ a < 0x0100) ∨ (0x01B0 ≤ a ∧ a < 0x1000) ∨
  (0x1000 + c.bufBytes ≤ a ∧ a < 0x2000) ∨ (0x2000 + c.bufBytes ≤ a ∧ a < 0x3000) ∨ (0x3000 ≤ a ∧ a < 0x4000) ∨
  (0x4000 ≤ a ∧ a < 0x5800 ∧ c.bigBits / 8 ≤ a % 0x200) ∨ 0x5800 ≤ a

/-- The offsets of the read-only registers and windows (20_memory.md R74). -/
def ReadOnlyOffset (c : Config) (a : Nat) : Prop :=
  a < 0x0010 ∨ a = 0x0024 ∨ a = 0x0030 ∨ (0x0100 ≤ a ∧ a < 0x01B0) ∨ (0x2000 ≤ a ∧ a < 0x2000 + c.bufBytes)

/-- The offsets of KEY; of PUB_E and PUB_N; of PRIV_D and PRIV_N (10_state.md R21). -/
def KeyOffset (a : Nat) : Prop := 0x0050 ≤ a ∧ a < 0x0060
def PubOffset (c : Config) (a : Nat) : Prop := 0x5000 ≤ a ∧ a < 0x5400 ∧ a % 0x200 < c.bigBits / 8
def PrivOffset (c : Config) (a : Nat) : Prop := 0x5400 ≤ a ∧ a < 0x5800 ∧ a % 0x200 < c.bigBits / 8

/-- The registers and windows that a host write only stores to: ARG, IN_LEN, OPA, OPB, IV, KEY, STATE, IN and the big-integer
registers (10_state.md R21). -/
def StoringOffset (c : Config) (a : Nat) : Prop :=
  a = 0x001C ∨ a = 0x0020 ∨ a = 0x0028 ∨ a = 0x002C ∨ (0x0040 ≤ a ∧ a < 0x0070) ∨
  (0x1000 ≤ a ∧ a < 0x1000 + c.bufBytes) ∨ (0x4000 ≤ a ∧ a < 0x5800 ∧ a % 0x200 < c.bigBits / 8)

/-- Byte i of IN, of OUT (10_state.md R40, R41). -/
def inByte (s : State) (i : Nat) : Byte := memRead s.inBuf (0x1000 + i)
def outByte (s : State) (i : Nat) : Byte := memRead s.outBuf (0x2000 + i)

/-- Block k of IN, of OUT (44_cbc.md R191, R192). -/
def inBlock (s : State) (k : Nat) : Block := Vector.ofFn fun i : Fin 16 => inByte s (16 * k + i.val)
def outBlock (s : State) (k : Nat) : Block := Vector.ofFn fun i : Fin 16 => outByte s (16 * k + i.val)

/-- `t` is `s` with new contents of OUT: the bytes `f 0 .. f (n-1)` at its start, the others as they were (10_state.md R41). -/
def OutWritten (s t : State) (n : Nat) (f : Nat → Byte) : Prop :=
  (∀ a, memRead t.outBuf a = if 0x2000 ≤ a ∧ a < 0x2000 + n then f (a - 0x2000) else memRead s.outBuf a) ∧
  t.outLen.toNat = n

/-- `BE(s)`: the bytes of s as digits base 256, the first the highest (00_scope.md R10). -/
def bigEndian (s : List Byte) : Nat := Nat.ofDigits 256 (s.reverse.map BitVec.toNat)

/-- `blen(n)`, from the bit length of n (00_scope.md R10). -/
def byteLength (n : Nat) : Nat := (Nat.size n + 7) / 8

/-- The first n bytes of IN (10_state.md R40). -/
def message (s : State) (n : Nat) : List Byte := (List.range n).map (inByte s)

/-- `Padded(M)` in k bytes (46_rsa.md R242). -/
def paddedMessage (c : Config) (k : Nat) (m : List Byte) : List Byte :=
  List.replicate (k - c.digest.length - 1 - m.length) 0x00 ++ 0x01 :: (c.digest ++ m)

/-- Byte i of a k-byte big-endian integer (00_scope.md R10). -/
def bigEndianByte (k v i : Nat) : Byte := BitVec.ofNat 8 (v / 256 ^ (k - 1 - i))

/-- The 16 bytes of four drawn words: byte 4j + i is byte i of word j (20_memory.md R83). -/
def drawnBlock (w0 w1 w2 w3 : Word) : Block :=
  Vector.ofFn fun i : Fin 16 => (([w0, w1, w2, w3].getD (i.val / 4) 0) >>> (8 * (i.val % 4))).setWidth 8

/-- Byte i of the padded message of IN (44_cbc.md R190). -/
def cbcPaddedByte (s : State) (i : Nat) : Byte :=
  if i < s.inLen.toNat then inByte s i else BitVec.ofNat 8 (16 - s.inLen.toNat % 16)

/-- What CBCENC leaves in OUT (44_cbc.md R190, R191, R193): the IV, then each block the cipher of the padded message's block
xored with the block before; OUT_LEN their length; every other byte as it was. -/
def CbcEncrypted (s t : State) (iv : Block) : Prop :=
  let n := s.inLen.toNat + (16 - s.inLen.toNat % 16)
  t.outLen.toNat = 16 + n ∧
  (∀ a, a < 0x2000 ∨ 0x2000 + (16 + n) ≤ a → memRead t.outBuf a = memRead s.outBuf a) ∧
  outBlock t 0 = iv ∧
  ∀ k, k < n / 16 →
    outBlock t (k + 1) =
      cipher s.rk (Vector.ofFn fun i : Fin 16 => cbcPaddedByte s (16 * k + i.val) ^^^ (outBlock t k)[i])

/-- Byte i of the plain text CBCDEC recovers from IN (44_cbc.md R192): its block of the inverse cipher, xored with the block
before. -/
def cbcPlainByte (s : State) (i : Nat) : Byte :=
  (invCipher s.rk (inBlock s (i / 16 + 1))).toList.getD (i % 16) 0 ^^^ inByte s i

/-- A base for which the odd n passes its round (45_bigint.md R214), with `n − 1 = 2^e · d` and d odd. -/
def RoundPassed (base n : Nat) : Prop :=
  ∃ e d, n - 1 = 2 ^ e * d ∧ d % 2 = 1 ∧ (base ^ d % n = 1 ∨ ∃ r, r < e ∧ base ^ (2 ^ r * d) % n = n - 1)

/-- The base of round j, from the words `ws` the test draws, W a round (45_bigint.md R215). -/
def roundBase (n w : Nat) (ws : List Word) (j : Nat) : Nat := 2 + natOfWords ((ws.drop (j * w)).take w) % (n - 3)

/-- The candidate of the words `ws` (45_bigint.md R217): the low `bits` bits with the top bit and bit 0 set. -/
def IsCandidate (bits : Nat) (ws : List Word) (c : Nat) : Prop :=
  ∀ k, c.testBit k = (decide (k < bits) && ((natOfWords ws).testBit k || k == bits - 1 || k == 0))

/-- The commands whose rules draw words (60_exceptions.md R276). -/
def draws : Instr → Bool
  | .symkeygen | .cbcenc .rng | .bprime _ | .brandprime _ | .rsakeygen _ _ _ => true
  | .cbcenc .ivreg | .nop | .gfmul | .xtime | .sbox | .invsbox | .subbytes | .invsubbytes | .shiftrows | .invshiftrows
  | .mixcolumns | .invmixcolumns | .addroundkey _ | .keybind _ | .keyunbind _ | .aesenc | .aesdec | .cbcdec | .bmul _ _ _
  | .bmodexp _ _ _ _ | .bmodinv _ _ _ | .rsaenc | .rsadec => false

/-- The buffer commands (60_exceptions.md R267). -/
def isBufferCommand : Instr → Bool
  | .cbcenc _ | .cbcdec | .rsaenc | .rsadec => true
  | .symkeygen | .bprime _ | .brandprime _ | .rsakeygen _ _ _ | .nop | .gfmul | .xtime | .sbox | .invsbox | .subbytes
  | .invsubbytes | .shiftrows | .invshiftrows | .mixcolumns | .invmixcolumns | .addroundkey _ | .keybind _ | .keyunbind _
  | .aesenc | .aesdec | .bmul _ _ _ | .bmodexp _ _ _ _ | .bmodinv _ _ _ => false

/-- What a buffer command's error leaves (60_exceptions.md R267): its code, OUT_LEN 0, OUT unspecified, all else as it was. -/
def BufferErrorFrom (c : ErrCode) (s t : State) : Prop :=
  ∃ out n, t = ended c { s with outLen := 0, outBuf := out, fresh := n }

end Sys2Proof.Machine
end

