-- ==== Sys2Proof/Certificates/Slice0/Obligations.lean ====
section
/-! DEFINITION. What is claimed of the core, each claim one proposition over every state. Where a claim speaks of a command's
start it takes the state an accepted CMD write leaves: no word drawn, no abort pending. -/

open Sys2Proof Sys2Proof.Machine

/-! ### Command words -/

/-- Decoding the word of a well-formed command gives the command back, at every value of every operand
(30_encoding.md R104, R108). -/
def Obligations.EncodedCommandsDecode : Prop := ∀ i : Instr, i.wellFormed = true → decode (encode i) = .ok i

/-- A word that decodes is the word of the command it decodes to, which is well-formed: no bit of the word is dropped, and no
two words are one command (30_encoding.md R104, R108). -/
def Obligations.DecodedWordsEncode : Prop :=
  ∀ (w : Word) (i : Instr), decode w = .ok i → i.wellFormed = true ∧ encode i = w

/-- The words of every operand form, `(FD << 20) | (FC << 16) | (FB << 12) | (FA << 8) | OP` (30_encoding.md R105, R108). -/
def Obligations.CommandWordFormulas : Prop :=
  (∀ j : RoundIdx, (encode (.addroundkey j)).toNat = 0x18 + j.val * 2 ^ 8) ∧
  (∀ m : KeyMask,
    (encode (.keybind m)).toNat = 0x20 + (m.sym.toNat + 2 * m.pub.toNat + 4 * m.priv.toNat) * 2 ^ 8 ∧
    (encode (.keyunbind m)).toNat = 0x21 + (m.sym.toNat + 2 * m.pub.toNat + 4 * m.priv.toNat) * 2 ^ 8) ∧
  encode (.cbcenc .rng) = 0x00000040 ∧ encode (.cbcenc .ivreg) = 0x00000140 ∧
  (∀ a b c d : XReg,
    (encode (.bmul a b c)).toNat = 0x50 + a.val * 2 ^ 8 + b.val * 2 ^ 12 + c.val * 2 ^ 16 ∧
    (encode (.bmodexp a b c d)).toNat = 0x51 + a.val * 2 ^ 8 + b.val * 2 ^ 12 + c.val * 2 ^ 16 + d.val * 2 ^ 20 ∧
    (encode (.bmodinv a b c)).toNat = 0x52 + a.val * 2 ^ 8 + b.val * 2 ^ 12 + c.val * 2 ^ 16 ∧
    (encode (.bprime b)).toNat = 0x53 + b.val * 2 ^ 12 ∧
    (encode (.brandprime a)).toNat = 0x54 + a.val * 2 ^ 8 ∧
    (encode (.rsakeygen a b c)).toNat = 0x60 + a.val * 2 ^ 8 + b.val * 2 ^ 12 + c.val * 2 ^ 16)

/-- Words written out from the table of 30_encoding.md R105 and the examples of R108 decode to the commands they stand for. -/
def Obligations.WordsOfTheSpecDecode : Prop :=
  ∀ p ∈ ([(0x00000000, .nop), (0x00000001, .gfmul), (0x00000002, .xtime), (0x00000010, .sbox), (0x00000011, .invsbox),
    (0x00000012, .subbytes), (0x00000013, .invsubbytes), (0x00000014, .shiftrows), (0x00000015, .invshiftrows),
    (0x00000016, .mixcolumns), (0x00000017, .invmixcolumns), (0x00000A18, .addroundkey 10),
    (0x00000320, .keybind ⟨true, true, false⟩), (0x00000721, .keyunbind ⟨true, true, true⟩), (0x00000022, .symkeygen),
    (0x00000030, .aesenc), (0x00000031, .aesdec), (0x00000040, .cbcenc .rng), (0x00000140, .cbcenc .ivreg),
    (0x00000041, .cbcdec), (0x00010250, .bmul 2 0 1), (0x00210351, .bmodexp 3 0 1 2), (0x00041252, .bmodinv 2 1 4),
    (0x00005053, .bprime 5), (0x00000354, .brandprime 3), (0x00014360, .rsakeygen 3 4 1), (0x00000070, .rsaenc),
    (0x00000071, .rsadec)] : List (Word × Instr)), decode p.1 = .ok p.2

/-- A running command word that 30_encoding.md R104 lets through runs the command with that opcode and those operand fields;
any other word ends with IllegalCommand and changes nothing else. -/
def Obligations.SequencerDecodesAsR104 : Prop :=
  ∀ s : State, Running s → s.inputs = [] →
    (LegalWord s.cmd → ∃ i : Instr, i.wellFormed = true ∧ encode i = s.cmd ∧ opcodeOf i = s.cmd.setWidth 8 ∧
      step s = exec i s) ∧
    (¬ LegalWord s.cmd → step s = .next (ended .illegalCommand s))

/-! ### Steps -/

/-- The step's own meaning: the oldest listed event is handled. A sequencer event, and a step with no event listed, run the
command whose word CMD holds when the core is Busy, and do nothing when it is Idle (log 2). An access is made; an offered word
stands behind those on offer and nothing else changes (20_memory.md R82; log 5); a draw takes the oldest word on offer when the
running command cannot finish on the words it has drawn, and nothing otherwise (log 4). -/
def Obligations.StepRunsTheDecodedCommand : Prop :=
  (∀ (s : State) (i : Instr), Running s → decode s.cmd = .ok i →
    (∀ es, step { s with inputs := .sequencer :: es } = exec i { s with inputs := es }) ∧
    (s.inputs = [] → step s = exec i s)) ∧
  (∀ (s : State) (es : List Event), s.rstn = true → s.seq = .idle →
    step { s with inputs := .sequencer :: es } = .next { s with inputs := es }) ∧
  (∀ (s : State) (acc : Access) (es : List Event),
    step { s with inputs := .bus acc :: es } = .next (access acc { s with inputs := es })) ∧
  (∀ (s : State) (w : Word) (es : List Event),
    step { s with inputs := .offer w :: es } = .next { s with inputs := es, rng := s.rng ++ [w] }) ∧
  (∀ (s t : State) (i : Instr) (w : Word) (ws : List Word) (es : List Event), Running s → decode s.cmd = .ok i →
    s.rng = w :: ws → exec i { s with inputs := es, rng := [] } = .next t →
    (t.seq = .busy → step { s with inputs := .draw :: es } =
      .next { s with inputs := es, drawn := s.drawn ++ [w], rng := ws, rngPos := s.rngPos + 1 }) ∧
    (t.seq ≠ .busy → step { s with inputs := .draw :: es } = .next { s with inputs := es })) ∧
  (∀ (s : State) (es : List Event), s.rng = [] ∨ ¬ Running s →
    step { s with inputs := .draw :: es } = .next { s with inputs := es })

/-- Every step, and every command from every state, has a next state: the core has no traps, and an error is a completion
code (60_exceptions.md R260). -/
def Obligations.EveryStepHasANextState : Prop :=
  (∀ s : State, ∃ t, step s = .next t) ∧ ∀ (i : Instr) (s : State), ∃ t, exec i s = .next t

/-- A write of a word to CMD while Idle starts the command; while not Idle it is dropped; a read gives the last accepted
word (10_state.md R29; 60_exceptions.md R264, start; 20_memory.md R78). -/
def Obligations.CommandWriteStartsTheCommand : Prop :=
  ∀ (s : State) (w : Word), s.rstn = true →
    (s.seq = .idle → access (.write 0x0018 w 0xF) s =
      { s with cmd := w, seq := .busy, done := false, errcode := .ok, drawn := [], resp := .okay }) ∧
    (s.seq ≠ .idle → access (.write 0x0018 w 0xF) s = { s with wbusy := true, resp := .okay }) ∧
    access (.read 0x0018) s = { s with resp := .data s.cmd }

/-! ### GF(2⁸) and the block transforms -/

/-- NOP finishes and changes nothing else; GFMUL leaves in RES the product modulo 0x11B of the low bytes of OPA and OPB, XTIME
the double of the low byte of OPA, each zero-extended (40_gf256.md R130, R131, R133 to R135). -/
def Obligations.FieldCommandResults : Prop :=
  encode .nop = 0x00000000 ∧ encode .gfmul = 0x00000001 ∧ encode .xtime = 0x00000002 ∧
  ∀ s : State,
    exec .nop s = .next (ended .ok s) ∧
    exec .gfmul s = .next (ended .ok { s with res := (fieldProduct (s.opa.setWidth 8) (s.opb.setWidth 8)).setWidth 32 }) ∧
    exec .xtime s = .next (ended .ok { s with res := (fieldProduct (s.opa.setWidth 8) 0x02).setWidth 32 })

/-- The laws of the field product (40_gf256.md R132, which the spec derives from R130 and R131). -/
def Obligations.FieldLaws : Prop :=
  (∀ a b : Byte, gmul a b = gmul b a) ∧
  (∀ a b c : Byte, gmul a (gmul b c) = gmul (gmul a b) c) ∧
  (∀ a b c : Byte, gmul a (b ^^^ c) = gmul a b ^^^ gmul a c) ∧
  (∀ a : Byte, gmul 0 a = 0 ∧ gmul 1 a = a ∧ gmul 2 a = xtime a ∧ gmul 3 a = xtime a ^^^ a) ∧
  (∀ a : Byte, a ≠ 0 → ∃ b, gmul a b = 1 ∧ ∀ c, gmul a c = 1 → c = b)

/-- SBOX leaves in RES the affine transform of the inverse of the low byte of OPA; INVSBOX leaves the byte whose SBOX it is
(41_block_transform.md R141, R142, R150, R151). -/
def Obligations.SubstitutionResults : Prop :=
  encode .sbox = 0x00000010 ∧ encode .invsbox = 0x00000011 ∧
  ∀ s : State,
    (∃ b r : Byte, IsFieldInverse (s.opa.setWidth 8) b ∧ (∀ k, k < 8 → r.getLsbD k = affineBit b k) ∧
      exec .sbox s = .next (ended .ok { s with res := r.setWidth 32 })) ∧
    (∃ r : Byte, sboxAt r = s.opa.setWidth 8 ∧ exec .invsbox s = .next (ended .ok { s with res := r.setWidth 32 }))

/-- The six keyless transforms of STATE, byte by byte: substitution, the row rotations as the byte permutations of R144 and
R145, the column products of R146 and R147; nothing else changes but the completion (41_block_transform.md R143 to R147, R152 to
R157). -/
def Obligations.StateTransformResults : Prop :=
  encode .subbytes = 0x00000012 ∧ encode .invsubbytes = 0x00000013 ∧ encode .shiftrows = 0x00000014 ∧
  encode .invshiftrows = 0x00000015 ∧ encode .mixcolumns = 0x00000016 ∧ encode .invmixcolumns = 0x00000017 ∧
  ∀ s : State,
    (∃ b : Block, (∀ i : Fin 16, b[i] = sboxAt s.state[i]) ∧ exec .subbytes s = .next (ended .ok { s with state := b })) ∧
    (∃ b : Block, (∀ i : Fin 16, sboxAt b[i] = s.state[i]) ∧ exec .invsubbytes s = .next (ended .ok { s with state := b })) ∧
    exec .shiftrows s = .next (ended .ok { s with
      state := Vector.map (fun k : Fin 16 => s.state[k]) #v[0, 5, 10, 15, 4, 9, 14, 3, 8, 13, 2, 7, 12, 1, 6, 11] }) ∧
    exec .invshiftrows s = .next (ended .ok { s with
      state := Vector.map (fun k : Fin 16 => s.state[k]) #v[0, 13, 10, 7, 4, 1, 14, 11, 8, 5, 2, 15, 12, 9, 6, 3] }) ∧
    (∃ b : Block, exec .mixcolumns s = .next (ended .ok { s with state := b }) ∧
      ∀ (c : Nat) (_ : 4 * c + 3 < 16),
        b[4 * c] = fieldProduct 2 s.state[4 * c] ^^^ fieldProduct 3 s.state[4 * c + 1] ^^^
          s.state[4 * c + 2] ^^^ s.state[4 * c + 3] ∧
        b[4 * c + 1] = s.state[4 * c] ^^^ fieldProduct 2 s.state[4 * c + 1] ^^^
          fieldProduct 3 s.state[4 * c + 2] ^^^ s.state[4 * c + 3] ∧
        b[4 * c + 2] = s.state[4 * c] ^^^ s.state[4 * c + 1] ^^^
          fieldProduct 2 s.state[4 * c + 2] ^^^ fieldProduct 3 s.state[4 * c + 3] ∧
        b[4 * c + 3] = fieldProduct 3 s.state[4 * c] ^^^ s.state[4 * c + 1] ^^^
          s.state[4 * c + 2] ^^^ fieldProduct 2 s.state[4 * c + 3]) ∧
    (∃ b : Block, exec .invmixcolumns s = .next (ended .ok { s with state := b }) ∧
      ∀ (c : Nat) (_ : 4 * c + 3 < 16),
        b[4 * c] = fieldProduct 14 s.state[4 * c] ^^^ fieldProduct 11 s.state[4 * c + 1] ^^^
          fieldProduct 13 s.state[4 * c + 2] ^^^ fieldProduct 9 s.state[4 * c + 3] ∧
        b[4 * c + 1] = fieldProduct 9 s.state[4 * c] ^^^ fieldProduct 14 s.state[4 * c + 1] ^^^
          fieldProduct 11 s.state[4 * c + 2] ^^^ fieldProduct 13 s.state[4 * c + 3] ∧
        b[4 * c + 2] = fieldProduct 13 s.state[4 * c] ^^^ fieldProduct 9 s.state[4 * c + 1] ^^^
          fieldProduct 14 s.state[4 * c + 2] ^^^ fieldProduct 11 s.state[4 * c + 3] ∧
        b[4 * c + 3] = fieldProduct 11 s.state[4 * c] ^^^ fieldProduct 13 s.state[4 * c + 1] ^^^
          fieldProduct 9 s.state[4 * c + 2] ^^^ fieldProduct 14 s.state[4 * c + 3])

/-- ADDROUNDKEY j xors round key j into STATE byte by byte when a symmetric key is bound, else ends with MissingKey
(41_block_transform.md R148, R158). -/
def Obligations.AddRoundKeyResult : Prop :=
  ∀ (s : State) (j : RoundIdx),
    (encode (.addroundkey j)).toNat = 0x00000018 + j.val * 2 ^ 8 ∧
    (s.keyValid = true → ∃ b : Block, (∀ i : Fin 16, b[i] = s.state[i] ^^^ s.rk[j][i]) ∧
      exec (.addroundkey j) s = .next (ended .ok { s with state := b })) ∧
    (s.keyValid = false → exec (.addroundkey j) s = .next (ended .missingKey s))

/-! ### Keys -/

/-- The key expansion, byte by byte: round key 0 is the key; the first word of round key j + 1 is the one before it, four words
back, xored with the rotated and substituted last word and the round constant; every other word is xored with the word before it
(42_key_schedule.md R160 to R162). -/
def Obligations.KeyExpansionRecurrence : Prop :=
  ∀ key : Block,
    (keyExpansion key)[0] = key ∧
    ∀ j : Fin 10, ∀ b : Fin 16,
      (keyExpansion key)[j.val + 1][b] =
        if b.val < 4 then
          (keyExpansion key)[j.val][b] ^^^ sboxAt ((keyExpansion key)[j.val][12 + (b.val + 1) % 4]) ^^^
            (if b.val = 0 then [0x01, 0x02, 0x04, 0x08, 0x10, 0x20, 0x40, 0x80, 0x1b, 0x36].getD j.val 0 else 0)
        else (keyExpansion key)[j.val][b] ^^^ (keyExpansion key)[j.val + 1][b.val - 4]

/-- KEYBIND binds exactly the selected keys, expanding KEY into RK when it binds the symmetric one, unless a selected modulus
is below 2: then it ends with BadOperand and binds nothing (42_key_schedule.md R163). -/
def Obligations.KeyBindResult : Prop :=
  ∀ (s : State) (m : KeyMask),
    (encode (.keybind m)).toNat = 0x00000020 + (m.sym.toNat + 2 * m.pub.toNat + 4 * m.priv.toNat) * 2 ^ 8 ∧
    ((m.pub = true → 2 ≤ s.pubN) → (m.priv = true → 2 ≤ s.privN) →
      exec (.keybind m) s = .next (ended .ok { s with
        rk := if m.sym = true then keyExpansion s.key else s.rk
        keyValid := s.keyValid || m.sym
        pubValid := s.pubValid || m.pub
        privValid := s.privValid || m.priv })) ∧
    ((m.pub = true ∧ s.pubN < 2) ∨ (m.priv = true ∧ s.privN < 2) →
      exec (.keybind m) s = .next (ended .badOperand s))

/-- KEYUNBIND clears exactly the selected valid bits; the keys keep their contents (42_key_schedule.md R164). -/
def Obligations.KeyUnbindResult : Prop :=
  ∀ (s : State) (m : KeyMask),
    (encode (.keyunbind m)).toNat = 0x00000021 + (m.sym.toNat + 2 * m.pub.toNat + 4 * m.priv.toNat) * 2 ^ 8 ∧
    ∃ t, exec (.keyunbind m) s = .next t ∧
    t = ended .ok { s with keyValid := t.keyValid, pubValid := t.pubValid, privValid := t.privValid } ∧
    (t.keyValid = true ↔ s.keyValid = true ∧ m.sym = false) ∧
    (t.pubValid = true ↔ s.pubValid = true ∧ m.pub = false) ∧
    (t.privValid = true ↔ s.privValid = true ∧ m.priv = false)

/-- SYMKEYGEN with ARG = 16 takes four words, makes them KEY in the byte order of R83, expands and binds it; with any other ARG
it ends with BadKeyLength; with an abort pending before its fourth word it ends with Aborted, and no word is taken
(42_key_schedule.md R165; 20_memory.md R83; 60_exceptions.md R276). -/
def Obligations.SymKeyGenResult : Prop :=
  encode .symkeygen = 0x00000022 ∧
  ∀ s : State,
    (∀ (w0 w1 w2 w3 : Word) (rest : List Word), s.arg = 16 → s.drawn = [] → s.abortReq = false →
      s.rng = w0 :: w1 :: w2 :: w3 :: rest →
      exec .symkeygen s = .next (ended .ok { s with
        key := drawnBlock w0 w1 w2 w3, rk := keyExpansion (drawnBlock w0 w1 w2 w3), keyValid := true
        rng := rest, rngPos := s.rngPos + 4 })) ∧
    (s.arg ≠ 16 → exec .symkeygen s = .next (ended .badKeyLength s)) ∧
    (s.arg = 16 → s.abortReq = true → s.drawn.length < 4 → exec .symkeygen s = .next (ended .aborted s))

/-! ### The block cipher and CBC -/

/-- AESENC does to the core what the commands of its rounds do one after another, and AESDEC what the inverse commands do in the
mirrored order; without a bound key both end with MissingKey (43_block_cipher.md R180 to R183). -/
def Obligations.BlockCipherIsItsRounds : Prop :=
  encode .aesenc = 0x00000030 ∧ encode .aesdec = 0x00000031 ∧
  ∀ s : State,
    (s.keyValid = true →
      exec .aesenc s = execAll
        ([.addroundkey 0] ++
          ([1, 2, 3, 4, 5, 6, 7, 8, 9] : List RoundIdx).flatMap (fun r => [.subbytes, .shiftrows, .mixcolumns, .addroundkey r]) ++
          [.subbytes, .shiftrows, .addroundkey 10]) s ∧
      exec .aesdec s = execAll
        ([.addroundkey 10, .invshiftrows, .invsubbytes] ++
          ([9, 8, 7, 6, 5, 4, 3, 2, 1] : List RoundIdx).flatMap
            (fun r => [.addroundkey r, .invmixcolumns, .invshiftrows, .invsubbytes]) ++
          [.addroundkey 0]) s ∧
      ∃ b c, exec .aesenc s = .next (ended .ok { s with state := b }) ∧
        exec .aesdec s = .next (ended .ok { s with state := c })) ∧
    (s.keyValid = false →
      exec .aesenc s = .next (ended .missingKey s) ∧ exec .aesdec s = .next (ended .missingKey s))

/-- With a bound key, AESENC then AESDEC, and AESDEC then AESENC, finish with OK and leave STATE as it was
(43_block_cipher.md R184, which the spec derives). -/
def Obligations.BlockCipherInverseLaw : Prop :=
  ∀ s : State, s.keyValid = true →
    execAll [.aesenc, .aesdec] s = .next (ended .ok s) ∧ execAll [.aesdec, .aesenc] s = .next (ended .ok s)

/-- CBCENC: from the IV register or from four drawn words it takes the IV, and writes the IV and the chained blocks of the padded
message to OUT, their length to OUT_LEN, and the IV it used to IV (44_cbc.md R190, R191, R193). -/
def Obligations.CbcEncryptResult : Prop :=
  ∀ s : State, s.cfg.Legal → Memory.wf s.outBuf = true → s.keyValid = true →
    16 + s.inLen.toNat + (16 - s.inLen.toNat % 16) ≤ s.cfg.bufBytes →
    (∃ t, exec (.cbcenc .ivreg) s = .next t ∧ t = ended .ok { s with outBuf := t.outBuf, outLen := t.outLen } ∧
      CbcEncrypted s t s.iv) ∧
    (∀ (w0 w1 w2 w3 : Word) (rest : List Word), s.drawn = [] → s.abortReq = false → s.rng = w0 :: w1 :: w2 :: w3 :: rest →
      ∃ t, exec (.cbcenc .rng) s = .next t ∧
        t = ended .ok { s with
          outBuf := t.outBuf, outLen := t.outLen, iv := drawnBlock w0 w1 w2 w3, rng := rest, rngPos := s.rngPos + 4 } ∧
        CbcEncrypted s t (drawnBlock w0 w1 w2 w3))

/-- CBCDEC of a ciphertext of at least 32 bytes and whole blocks: the last recovered byte p says how many bytes are padding; when
it is 1 to 16 the others go to OUT, else the command ends with InvalidPadding (44_cbc.md R192, R194). -/
def Obligations.CbcDecryptResult : Prop :=
  ∀ s : State, s.cfg.Legal → Memory.wf s.outBuf = true → s.keyValid = true → s.inLen.toNat ≤ s.cfg.bufBytes →
    32 ≤ s.inLen.toNat → s.inLen.toNat % 16 = 0 →
    let p := (cbcPlainByte s (s.inLen.toNat - 17)).toNat
    (1 ≤ p ∧ p ≤ 16 → ∃ t, exec .cbcdec s = .next t ∧
      t = ended .ok { s with outBuf := t.outBuf, outLen := t.outLen } ∧
      OutWritten s t (s.inLen.toNat - 16 - p) (cbcPlainByte s)) ∧
    (p = 0 ∨ 16 < p → ∃ t, exec .cbcdec s = .next t ∧ BufferErrorFrom .invalidPadding s t)

/-- The errors of CBCENC and CBCDEC in check order: MissingKey, BufferOverflow, and for CBCDEC InvalidCiphertextLength. Each
leaves OUT_LEN 0, OUT unspecified, and IV, IN and all else unchanged (44_cbc.md R193, R194; 60_exceptions.md R263, R267). -/
def Obligations.CbcErrors : Prop :=
  ∀ s : State,
    (s.keyValid = false →
      (∀ src, ∃ t, exec (.cbcenc src) s = .next t ∧ BufferErrorFrom .missingKey s t) ∧
      (∃ t, exec .cbcdec s = .next t ∧ BufferErrorFrom .missingKey s t)) ∧
    (s.keyValid = true → s.cfg.bufBytes < 16 + s.inLen.toNat + (16 - s.inLen.toNat % 16) →
      ∀ src, ∃ t, exec (.cbcenc src) s = .next t ∧ BufferErrorFrom .bufferOverflow s t) ∧
    (s.keyValid = true → s.cfg.bufBytes < s.inLen.toNat →
      ∃ t, exec .cbcdec s = .next t ∧ BufferErrorFrom .bufferOverflow s t) ∧
    (s.keyValid = true → s.inLen.toNat ≤ s.cfg.bufBytes → s.inLen.toNat < 32 ∨ s.inLen.toNat % 16 ≠ 0 →
      ∃ t, exec .cbcdec s = .next t ∧ BufferErrorFrom .invalidCiphertextLength s t)

/-- Round trip: when CBCENC has finished with OK, and the host has copied OUT[0..OUT_LEN) into IN and OUT_LEN into IN_LEN,
CBCDEC with the same round keys finishes with OK and leaves the message in OUT[0..OUT_LEN) (44_cbc.md R197, which the spec
derives). -/
def Obligations.CbcRoundTrip : Prop :=
  ∀ (s t u : State) (src : IvSource), Inv s → s.seq = .busy → exec (.cbcenc src) s = .next t → t.seq = .idle → t.errcode = .ok →
    Inv u → u.cfg = s.cfg → u.keyValid = true → u.rk = t.rk → u.inLen = t.outLen →
    (∀ i, i < t.outLen.toNat → inByte u i = outByte t i) →
    ∃ v, exec .cbcdec u = .next v ∧ v.errcode = .ok ∧ v.outLen = s.inLen ∧
      ∀ i, i < s.inLen.toNat → outByte v i = inByte s i

/-! ### Big integers -/

/-- BMUL writes the low BIG_BITS bits of the exact product, and OVF says whether it did not fit (45_bigint.md R211). -/
def Obligations.BigMultiplyResult : Prop :=
  ∀ (s : State) (a b c : XReg),
    (encode (.bmul a b c)).toNat = 0x00000050 + c.val * 2 ^ 16 + b.val * 2 ^ 12 + a.val * 2 ^ 8 ∧
    ∃ t, exec (.bmul a b c) s = .next t ∧
    t = ended .ok { s with x := t.x, ovf := t.ovf } ∧
    (∀ i, xRead t i = if i = a then xRead s b * xRead s c % 2 ^ s.cfg.bigBits else xRead s i) ∧
    (t.ovf = true ↔ 2 ^ s.cfg.bigBits ≤ xRead s b * xRead s c)

/-- BMODEXP writes `base ^ exponent mod modulus`; a modulus of 0 ends it with BadOperand (45_bigint.md R212). -/
def Obligations.ModularExponentResult : Prop :=
  ∀ (s : State) (a b c d : XReg),
    (encode (.bmodexp a b c d)).toNat = 0x00000051 + d.val * 2 ^ 20 + c.val * 2 ^ 16 + b.val * 2 ^ 12 + a.val * 2 ^ 8 ∧
    (xRead s d ≠ 0 → ∃ t, exec (.bmodexp a b c d) s = .next t ∧ t = ended .ok { s with x := t.x } ∧
      ∀ i, xRead t i = if i = a then xRead s b ^ xRead s c % xRead s d else xRead s i) ∧
    (xRead s d = 0 → exec (.bmodexp a b c d) s = .next (ended .badOperand s))

/-- BMODINV writes the one inverse below the modulus; a modulus of 0 ends it with BadOperand, a common factor with NotInvertible
(45_bigint.md R213). -/
def Obligations.ModularInverseResult : Prop :=
  ∀ (s : State) (a b c : XReg),
    (encode (.bmodinv a b c)).toNat = 0x00000052 + c.val * 2 ^ 16 + b.val * 2 ^ 12 + a.val * 2 ^ 8 ∧
    (xRead s c ≠ 0 → Nat.Coprime (xRead s b) (xRead s c) → ∃ t, exec (.bmodinv a b c) s = .next t ∧
      t = ended .ok { s with x := t.x } ∧ (∀ i, i ≠ a → xRead t i = xRead s i) ∧
      xRead t a < xRead s c ∧ xRead s b * xRead t a % xRead s c = 1 % xRead s c ∧
      ∀ y, y < xRead s c → xRead s b * y % xRead s c = 1 % xRead s c → y = xRead t a) ∧
    (xRead s c = 0 → exec (.bmodinv a b c) s = .next (ended .badOperand s)) ∧
    (xRead s c ≠ 0 → ¬ Nat.Coprime (xRead s b) (xRead s c) →
      exec (.bmodinv a b c) s = .next (ended .notInvertible s))

/-- BPRIME: the small and the even candidates without a draw, whether or not an abort is pending; for an odd n of at least 5, W
words a round make the base, the first failed round ends the test with PRIME = 0 and takes no further words, MR_ROUNDS passed
rounds give PRIME = 1; words still missing leave the command waiting; a pending abort ends it before its first word
(45_bigint.md R214 to R216). -/
def Obligations.PrimalityResult : Prop :=
  ∀ (s : State) (b : XReg), s.cfg.Legal → s.drawn = [] →
    let n := xRead s b
    let w := (Nat.size n + 31) / 32
    (n < 2 ∨ (n ≠ 2 ∧ n % 2 = 0) → ∃ t, exec (.bprime b) s = .next t ∧ t = ended .ok { s with prime := false }) ∧
    (n = 2 ∨ n = 3 → ∃ t, exec (.bprime b) s = .next t ∧ t = ended .ok { s with prime := true }) ∧
    (5 ≤ n → n % 2 = 1 → s.abortReq = true → exec (.bprime b) s = .next (ended .aborted s)) ∧
    (5 ≤ n → n % 2 = 1 → s.abortReq = false →
      (∀ j, j < s.cfg.mrRounds → (∀ i, i < j → RoundPassed (roundBase n w s.rng i) n) →
        ¬ RoundPassed (roundBase n w s.rng j) n → (j + 1) * w ≤ s.rng.length →
        exec (.bprime b) s = .next (ended .ok { s with
          prime := false, rng := s.rng.drop ((j + 1) * w), rngPos := s.rngPos + (j + 1) * w })) ∧
      ((∀ i, i < s.cfg.mrRounds → RoundPassed (roundBase n w s.rng i) n) → s.cfg.mrRounds * w ≤ s.rng.length →
        exec (.bprime b) s = .next (ended .ok { s with
          prime := true, rng := s.rng.drop (s.cfg.mrRounds * w), rngPos := s.rngPos + s.cfg.mrRounds * w })) ∧
      (∀ j, j < s.cfg.mrRounds → (∀ i, i < j → RoundPassed (roundBase n w s.rng i) n) → j * w ≤ s.rng.length →
        s.rng.length < (j + 1) * w →
        exec (.bprime b) s = .next { s with drawn := s.rng, rng := [], rngPos := s.rngPos + s.rng.length }))

/-- A prime is never reported composite: with the words of MR_ROUNDS rounds at hand BPRIME finishes with PRIME = 1, and from no
state does it finish with PRIME = 0 (45_bigint.md R214, which the spec derives from its pseudocode). -/
def Obligations.PrimesAreNeverReportedComposite : Prop :=
  (∀ (s : State) (b : XReg), (xRead s b).Prime → s.drawn = [] → s.abortReq = false →
    s.cfg.mrRounds * ((Nat.size (xRead s b) + 31) / 32) ≤ s.rng.length →
    ∃ t, exec (.bprime b) s = .next t ∧ t.seq = .idle ∧ t.errcode = .ok ∧ t.prime = true) ∧
  (∀ (s t : State) (b : XReg), (xRead s b).Prime → s.seq = .busy → exec (.bprime b) s = .next t → t.seq = .idle →
    t.errcode = .ok → t.prime = true)

/-- BRANDPRIME: a size outside [2, BIG_BITS] is BadOperand; an abort pending at its start ends it; else its first W words make
a candidate with top bit and bit 0 set, which is tested by Miller–Rabin on the words after them: a candidate that passes is
written; after one that fails the command goes on as from the words left. A prime candidate with the words of its test at hand
is written (45_bigint.md R217, R218). -/
def Obligations.RandomPrimeResult : Prop :=
  ∀ (s : State) (a : XReg),
    (s.arg.toNat < 2 ∨ s.cfg.bigBits < s.arg.toNat → exec (.brandprime a) s = .next (ended .badOperand s)) ∧
    (2 ≤ s.arg.toNat → s.arg.toNat ≤ s.cfg.bigBits → s.drawn = [] →
      let w := (s.arg.toNat + 31) / 32
      (s.abortReq = true → exec (.brandprime a) s = .next (ended .aborted s)) ∧
      (s.abortReq = false → ∀ (c : Nat) (us rest : List Word), IsCandidate s.arg.toNat us c → us.length = w →
        s.rng = us ++ rest →
        2 ^ (s.arg.toNat - 1) ≤ c ∧ c < 2 ^ s.arg.toNat ∧ c % 2 = 1 ∧
        (∀ left, millerRabin s.cfg.mrRounds c rest = some (true, left) → ∃ t, exec (.brandprime a) s = .next t ∧
          t = ended .ok { s with x := t.x, rng := left, rngPos := s.rngPos + (s.rng.length - left.length) } ∧
          ∀ i, xRead t i = if i = a then c else xRead s i) ∧
        (∀ left u, millerRabin s.cfg.mrRounds c rest = some (false, left) →
          exec (.brandprime a) { s with rng := left, rngPos := s.rngPos + (s.rng.length - left.length), seq := .busy } =
            .next u → u.seq = .idle → exec (.brandprime a) s = .next u) ∧
        (c.Prime → primeTestWords s.cfg.mrRounds c ≤ rest.length → ∃ t, exec (.brandprime a) s = .next t ∧
          t = ended .ok { s with
            x := t.x, rng := rest.drop (primeTestWords s.cfg.mrRounds c)
            rngPos := s.rngPos + (w + primeTestWords s.cfg.mrRounds c) } ∧
          ∀ i, xRead t i = if i = a then c else xRead s i)))

/-! ### RSA -/

/-- RSAKEYGEN with primes p and q drawn one after the other, and e the value of X[c] before the command: when e and
(p − 1)(q − 1) are coprime it writes X[a], X[b] and both keys, d being the one inverse of e below (p − 1)(q − 1), and binds
them; else it ends with NotInvertible and only the words are gone. A bad size is BadOperand; an abort pending at its start ends
it (46_rsa.md R241). -/
def Obligations.RsaKeyGenResult : Prop :=
  ∀ (s : State) (a b c : XReg), a ≠ b →
    (s.arg.toNat < 2 ∨ s.cfg.bigBits < 2 * s.arg.toNat →
      exec (.rsakeygen a b c) s = .next (ended .badOperand s)) ∧
    (2 ≤ s.arg.toNat → 2 * s.arg.toNat ≤ s.cfg.bigBits → s.drawn = [] →
      (s.abortReq = true → exec (.rsakeygen a b c) s = .next (ended .aborted s)) ∧
      (s.abortReq = false → ∀ (p q : Nat) (r left : List Word),
        randPrime s.cfg.mrRounds s.arg.toNat s.rng = some (p, r) → randPrime s.cfg.mrRounds s.arg.toNat r = some (q, left) →
        (Nat.Coprime (xRead s c) ((p - 1) * (q - 1)) → ∃ t, exec (.rsakeygen a b c) s = .next t ∧
          t = ended .ok { s with
            x := t.x, pubE := xRead s c, pubN := p * q, privD := t.privD, privN := p * q, pubValid := true, privValid := true
            rng := left, rngPos := s.rngPos + (s.rng.length - left.length) } ∧
          (∀ i, xRead t i = if i = a then p else if i = b then q else xRead s i) ∧
          t.privD < (p - 1) * (q - 1) ∧ xRead s c * t.privD % ((p - 1) * (q - 1)) = 1) ∧
        (¬ Nat.Coprime (xRead s c) ((p - 1) * (q - 1)) →
          exec (.rsakeygen a b c) s = .next (ended .notInvertible { s with
            rng := left, rngPos := s.rngPos + (s.rng.length - left.length) }))))

/-- RSAKEYGEN completes: when the words at hand make two prime candidates, each followed by the words of its test, and e is
coprime to (p − 1)(q − 1), the key pair of those primes is written and bound (46_rsa.md R241; 45_bigint.md R217). -/
def Obligations.RsaKeyGenCompletes : Prop :=
  ∀ (s : State) (a b c : XReg) (p q : Nat) (us ts vs ws rest : List Word), a ≠ b → 2 ≤ s.arg.toNat →
    2 * s.arg.toNat ≤ s.cfg.bigBits → s.drawn = [] → s.abortReq = false → p.Prime → q.Prime →
    us.length = (s.arg.toNat + 31) / 32 → IsCandidate s.arg.toNat us p → ts.length = primeTestWords s.cfg.mrRounds p →
    vs.length = (s.arg.toNat + 31) / 32 → IsCandidate s.arg.toNat vs q → ws.length = primeTestWords s.cfg.mrRounds q →
    s.rng = us ++ ts ++ vs ++ ws ++ rest → Nat.Coprime (xRead s c) ((p - 1) * (q - 1)) →
    ∃ t, exec (.rsakeygen a b c) s = .next t ∧ t.seq = .idle ∧ t.errcode = .ok ∧ t.done = true ∧ t.rng = rest ∧
      xRead t a = p ∧ xRead t b = q ∧ t.pubE = xRead s c ∧ t.pubN = p * q ∧ t.privN = p * q ∧ t.pubValid = true ∧
      t.privValid = true ∧ xRead s c * t.privD % ((p - 1) * (q - 1)) = 1

/-- The padded message that RSAENC enciphers has k = blen(n) bytes, zeros, then 0x01, the digest and the message; its first byte
is 0x00, so its integer is below n and the enciphering loses nothing of it (46_rsa.md R242, which the spec derives from the
layout). -/
def Obligations.PaddedMessageIsBelowTheModulus : Prop :=
  ∀ (c : Config) (n : Nat) (m : List Byte), m.length + c.digest.length + 2 ≤ blen n →
    (rsaPadded c.digest (blen n) m).length = blen n ∧
    (∀ i, i < blen n → (rsaPadded c.digest (blen n) m)[i]? = some
      (if i < blen n - c.digest.length - 1 - m.length then 0x00
       else if i = blen n - c.digest.length - 1 - m.length then 0x01
       else (c.digest ++ m).getD (i - (blen n - c.digest.length - m.length)) 0)) ∧
    (rsaPadded c.digest (blen n) m)[0]? = some 0x00 ∧
    beNat (rsaPadded c.digest (blen n) m) < n ∧ 256 ^ (blen n - 1) ≤ n ∧ n < 256 ^ blen n

/-- RSAENC writes the k bytes of `m^e mod n`, big-endian, m the padded message; its errors in check order are PublicKeyMissing,
BufferOverflow, MessageTooLong, BufferOverflow (46_rsa.md R243). -/
def Obligations.RsaEncryptResult : Prop :=
  encode .rsaenc = 0x00000070 ∧
  ∀ s : State, s.cfg.Legal → Memory.wf s.outBuf = true →
    let k := byteLength s.pubN
    let n := s.inLen.toNat
    (s.pubValid = true → n ≤ s.cfg.bufBytes → n + s.cfg.digest.length + 2 ≤ k → k ≤ s.cfg.bufBytes →
      ∃ t, exec .rsaenc s = .next t ∧ t = ended .ok { s with outBuf := t.outBuf, outLen := t.outLen } ∧
        OutWritten s t k (bigEndianByte k (bigEndian (paddedMessage s.cfg k (message s n)) ^ s.pubE % s.pubN))) ∧
    (s.pubValid = false → ∃ t, exec .rsaenc s = .next t ∧ BufferErrorFrom .publicKeyMissing s t) ∧
    (s.pubValid = true → s.cfg.bufBytes < n → ∃ t, exec .rsaenc s = .next t ∧ BufferErrorFrom .bufferOverflow s t) ∧
    (s.pubValid = true → n ≤ s.cfg.bufBytes → k < n + s.cfg.digest.length + 2 →
      ∃ t, exec .rsaenc s = .next t ∧ BufferErrorFrom .messageTooLong s t) ∧
    (s.pubValid = true → n ≤ s.cfg.bufBytes → n + s.cfg.digest.length + 2 ≤ k → s.cfg.bufBytes < k →
      ∃ t, exec .rsaenc s = .next t ∧ BufferErrorFrom .bufferOverflow s t)

/-- RSADEC re-encodes `c^d mod n` to k bytes and writes what stands behind the first 0x01 and the digest; its errors in check
order are PrivateKeyMissing, BufferOverflow, InvalidCiphertextLength, PadError (46_rsa.md R244). -/
def Obligations.RsaDecryptResult : Prop :=
  encode .rsadec = 0x00000071 ∧
  ∀ s : State, s.cfg.Legal → Memory.wf s.outBuf = true →
    let k := byteLength s.privN
    let n := s.inLen.toNat
    let v := bigEndian (message s n) ^ s.privD % s.privN
    (s.privValid = true → n ≤ s.cfg.bufBytes → n = k →
      (∀ i, i < k → bigEndianByte k v i = 0x01 → (∀ j, j < i → bigEndianByte k v j ≠ 0x01) →
        (i + 1 + s.cfg.digest.length ≤ k → ∃ t, exec .rsadec s = .next t ∧
          t = ended .ok { s with outBuf := t.outBuf, outLen := t.outLen } ∧
          OutWritten s t (k - (i + 1 + s.cfg.digest.length)) fun j =>
            bigEndianByte k v (i + 1 + s.cfg.digest.length + j)) ∧
        (k < i + 1 + s.cfg.digest.length → ∃ t, exec .rsadec s = .next t ∧ BufferErrorFrom .padError s t)) ∧
      ((∀ i, i < k → bigEndianByte k v i ≠ 0x01) → ∃ t, exec .rsadec s = .next t ∧ BufferErrorFrom .padError s t)) ∧
    (s.privValid = false → ∃ t, exec .rsadec s = .next t ∧ BufferErrorFrom .privateKeyMissing s t) ∧
    (s.privValid = true → s.cfg.bufBytes < n → ∃ t, exec .rsadec s = .next t ∧ BufferErrorFrom .bufferOverflow s t) ∧
    (s.privValid = true → n ≤ s.cfg.bufBytes → n ≠ k →
      ∃ t, exec .rsadec s = .next t ∧ BufferErrorFrom .invalidCiphertextLength s t)

/-- Round trip: with a key pair of distinct primes p and q, when RSAENC has finished with OK and the host has copied its k bytes
into IN, RSADEC finishes with OK and leaves the message in OUT[0..OUT_LEN) (46_rsa.md R245, which the spec derives). -/
def Obligations.RsaRoundTrip : Prop :=
  ∀ (s t u : State) (p q : Nat), p.Prime → q.Prime → p ≠ q → Inv s → s.pubN = p * q → exec .rsaenc s = .next t →
    t.errcode = .ok → Inv u → u.cfg = s.cfg → u.privValid = true → u.privN = p * q →
    s.pubE * u.privD % ((p - 1) * (q - 1)) = 1 → u.inLen = t.outLen → (∀ i, i < t.outLen.toNat → inByte u i = outByte t i) →
    ∃ v, exec .rsadec u = .next v ∧ v.errcode = .ok ∧ v.outLen = s.inLen ∧
      ∀ i, i < s.inLen.toNat → outByte v i = inByte s i

/-! ### Errors, draws, aborts -/

/-- A command that starts with no word drawn and ends with an error changes no destination: only the completion, the words it
took, and for a buffer command OUT and OUT_LEN (60_exceptions.md R266, R267). -/
def Obligations.FailedCommandsChangeNothing : Prop :=
  ∀ (s t : State) (i : Instr), s.seq = .busy → s.drawn = [] → exec i s = .next t → t.seq = .idle → t.errcode ≠ .ok →
    ∃ (taken : List Word) (out : Memory) (n : Nat),
      t = ended t.errcode { s with
        rng := t.rng, rngPos := s.rngPos + taken.length, outBuf := out, outLen := t.outLen, fresh := n } ∧
      s.rng = taken ++ t.rng ∧
      (isBufferCommand i = true → t.outLen = 0) ∧
      (isBufferCommand i = false → out = s.outBuf ∧ t.outLen = s.outLen ∧ n = s.fresh)

/-- A command that needs a word the port has not offered changes nothing but that it takes the words there are: it goes on being
Busy, and with none offered its step gives the state itself (20_memory.md R82; 70_reset_and_hazards.md R308). -/
def Obligations.WaitingTakesWordsOnly : Prop :=
  ∀ (s t : State) (i : Instr), s.seq = .busy → exec i s = .next t → t.seq = .busy →
    draws i = true ∧ s.abortReq = false ∧
    t = { s with drawn := s.drawn ++ s.rng, rng := [], rngPos := s.rngPos + s.rng.length } ∧
    exec i t = .next t

/-- Words offered while a command waits are to it as if they had been offered before it started, and a word that it draws by
itself as if it had drawn it in its move: it takes them in order, none twice, none skipped (20_memory.md R82; log 4). -/
def Obligations.WaitingIsTransparent : Prop :=
  (∀ (s t : State) (i : Instr) (more : List Word), s.seq = .busy → exec i s = .next t → t.seq = .busy →
    exec i { t with rng := more } = exec i { s with rng := s.rng ++ more }) ∧
  ∀ (s t : State) (i : Instr) (w : Word) (ws : List Word), s.seq = .busy → s.rng = w :: ws →
    exec i { s with rng := [] } = .next t → t.seq = .busy →
    exec i { s with drawn := s.drawn ++ [w], rng := ws, rngPos := s.rngPos + 1 } = exec i s

/-- An abort requested while a command waits for a word ends it with Aborted at its next move; no further word is taken and no
destination changes (60_exceptions.md R275, R276). -/
def Obligations.AbortEndsAWaitingCommand : Prop :=
  ∀ (s t : State) (i : Instr) (more : List Word), s.seq = .busy → exec i s = .next t → t.seq = .busy →
    ∃ u, exec i { t with abortReq := true, rng := more } = .next u ∧
      (isBufferCommand i = false → u = ended .aborted { t with rng := more }) ∧
      (isBufferCommand i = true → BufferErrorFrom .aborted { t with rng := more } u)

/-- An abort requested when the running command has drawn every word it needs and has not finished: STATUS still reads BUSY = 1,
and the command ignores the request, takes no further word and finishes with its own code, which clears the request
(60_exceptions.md R275, R276). -/
def Obligations.AbortAfterTheLastDrawIsIgnored : Prop :=
  ∀ (s t : State) (i : Instr) (v : Word) (es : List Event), Running s → decode s.cmd = .ok i → s.abortReq = false →
    v.getLsbD 1 = true → exec i { s with rng := [] } = .next t → t.seq = .idle →
    ∃ a b : State, ∃ d : Word,
      step { s with inputs := .bus (.write 0x0010 v 0xF) :: .bus (.read 0x0014) :: .sequencer :: es } = .next a ∧
      a.seq = .busy ∧ a.abortReq = true ∧
      step a = .next b ∧ b.resp = .data d ∧ d.getLsbD 0 = true ∧ b.seq = .busy ∧ b.abortReq = true ∧
      step b = .next { t with ie := v.getLsbD 0, rng := s.rng, inputs := es, resp := .data d } ∧ t.abortReq = false

/-- A command without abort points, and BPRIME of a candidate that needs no draw, finish the same whether an abort is pending or
not, and their finish clears the request (60_exceptions.md R275, R276). -/
def Obligations.AbortIsIgnoredWithoutAbortPoint : Prop :=
  ∀ (s : State) (i : Instr) (r : Bool), draws i = false ∨ (∃ b, i = .bprime b ∧ (xRead s b < 5 ∨ xRead s b % 2 = 0) ∧
      s.drawn = []) →
    ∃ t, exec i { s with abortReq := r } = .next t ∧ exec i s = .next t ∧ t.abortReq = false ∧ t.seq = .idle ∧
      t.done = true

/-! ### The host bus -/

/-- Refused accesses change no state: a write whose strobes are not 0b1111, any misaligned access, any access to an offset that
10_state.md R21 lists as unmapped, in every sequencer state. Every other access is answered without an error (20_memory.md R71
to R73). The answer stands in `resp` (log 8). -/
def Obligations.RefusedAccessesHaveNoEffect : Prop :=
  ∀ (s : State) (a : Addr) (v : Word) (strb : Nibble), s.cfg.Legal → s.rstn = true →
    (strb ≠ 0xF → access (.write a v strb) s = { s with resp := .slverr }) ∧
    (a.toNat % 4 ≠ 0 ∨ Unmapped s.cfg a.toNat →
      access (.read a) s = { s with resp := .slverr } ∧ access (.write a v strb) s = { s with resp := .slverr }) ∧
    (a.toNat % 4 = 0 → ¬ Unmapped s.cfg a.toNat →
      (access (.write a v 0xF) s).resp = .okay ∧ ∃ d, (access (.read a) s).resp = .data d)

/-- A read changes nothing of the core; while Idle two reads of one offset give the same value (20_memory.md R76). `resp` and
`fresh` are the model's own (log 6, log 8). -/
def Obligations.ReadsHaveNoSideEffects : Prop :=
  ∀ (s : State) (a : Addr),
    (access (.read a) s = { s with resp := (access (.read a) s).resp, fresh := (access (.read a) s).fresh }) ∧
    (s.seq = .idle → (access (.read a) s).fresh = s.fresh ∧
      ∀ b, (access (.read a) (access (.read b) s)).resp = (access (.read a) s).resp)

/-- What a read of each scalar register gives in every phase in which 20_memory.md R79 lets the host read it, and the layout of
STATUS, CTRL and CFG2, bit by bit, with the number of each completion code (10_state.md R22 to R35; 60_exceptions.md R261). -/
def Obligations.ScalarRegisterReads : Prop :=
  ∀ s : State, s.rstn = true → s.cfg.Legal →
    (∀ p ∈ ([(0x0000, 0xC4030001), (0x0004, BitVec.ofNat 32 s.cfg.bufBytes), (0x0008, BitVec.ofNat 32 s.cfg.bigBits),
        (0x0018, s.cmd), (0x001C, s.arg), (0x0020, s.inLen), (0x0028, s.opa), (0x002C, s.opb)] : List (Addr × Word)),
      access (.read p.1) s = { s with resp := .data p.2 }) ∧
    (s.seq = .idle → access (.read 0x0024) s = { s with resp := .data s.outLen } ∧
      access (.read 0x0030) s = { s with resp := .data s.res }) ∧
    (∃ w : Word, access (.read 0x000C) s = { s with resp := .data w } ∧
      w.toNat = s.cfg.digest.length + s.cfg.mrRounds * 2 ^ 8 + 8 * 2 ^ 16) ∧
    (∃ w : Word, access (.read 0x0010) s = { s with resp := .data w } ∧ w.toNat = s.ie.toNat) ∧
    (∃ w : Word, access (.read 0x0014) s = { s with resp := .data w } ∧
      (w.getLsbD 0 = true ↔ s.seq ≠ .idle) ∧ w.getLsbD 1 = s.done ∧ w.getLsbD 2 = s.wbusy ∧ w.getLsbD 3 = false ∧
      w.getLsbD 4 = s.keyValid ∧ w.getLsbD 5 = s.pubValid ∧ w.getLsbD 6 = s.privValid ∧ w.getLsbD 7 = false ∧
      w.getLsbD 8 = s.prime ∧ w.getLsbD 9 = s.ovf ∧ w.extractLsb' 10 6 = 0 ∧ w.extractLsb' 24 8 = 0 ∧
      ∀ p ∈ ([(.ok, 0x00), (.illegalCommand, 0x01), (.missingKey, 0x02), (.publicKeyMissing, 0x03), (.privateKeyMissing, 0x04),
          (.messageTooLong, 0x05), (.padError, 0x06), (.invalidCiphertextLength, 0x07), (.invalidPadding, 0x08),
          (.bufferOverflow, 0x09), (.badKeyLength, 0x0A), (.notInvertible, 0x0B), (.badOperand, 0x0C), (.aborted, 0x0D)] :
          List (ErrCode × Byte)),
        s.errcode = p.1 → w.extractLsb' 16 8 = p.2)

/-- IN read in every phase, and the other windows and the big-integer registers read while Idle: the word at byte offset o + 4j
of a byte window holds its bytes 4j to 4j + 3 in little-endian lanes, and of a big-integer register its bits 32j to 32j + 31; bit
by bit (10_state.md R21, R46, R47; 20_memory.md R75, R79). -/
def Obligations.WindowReads : Prop :=
  ∀ (s : State) (a : Addr) (w : Word), s.rstn = true → s.cfg.Legal → a.toNat % 4 = 0 →
    (access (.read a) s).resp = .data w → ∀ k, k < 32 →
    (∀ i, i < s.cfg.bufBytes → a.toNat + k / 8 = 0x1000 + i → w.getLsbD k = (inByte s i).getLsbD (k % 8)) ∧
    (s.seq = .idle →
      (∀ i : Fin 16,
        (a.toNat + k / 8 = 0x0040 + i.val → w.getLsbD k = s.iv[i].getLsbD (k % 8)) ∧
        (a.toNat + k / 8 = 0x0050 + i.val → w.getLsbD k = s.key[i].getLsbD (k % 8)) ∧
        (a.toNat + k / 8 = 0x0060 + i.val → w.getLsbD k = s.state[i].getLsbD (k % 8)) ∧
        (∀ j : Fin 11, a.toNat + k / 8 = 0x0100 + 16 * j.val + i.val → w.getLsbD k = s.rk[j][i].getLsbD (k % 8))) ∧
      (∀ i, i < s.cfg.bufBytes → a.toNat + k / 8 = 0x2000 + i → w.getLsbD k = (outByte s i).getLsbD (k % 8)) ∧
      (∀ i, i < s.cfg.bigBits →
        (∀ r : XReg, a.toNat * 8 + k = (0x4000 + 0x200 * r.val) * 8 + i → w.getLsbD k = (xRead s r).testBit i) ∧
        (a.toNat * 8 + k = 0x5000 * 8 + i → w.getLsbD k = s.pubE.testBit i) ∧
        (a.toNat * 8 + k = 0x5200 * 8 + i → w.getLsbD k = s.pubN.testBit i) ∧
        (a.toNat * 8 + k = 0x5400 * 8 + i → w.getLsbD k = s.privD.testBit i) ∧
        (a.toNat * 8 + k = 0x5600 * 8 + i → w.getLsbD k = s.privN.testBit i)))

/-- A word written while Idle to a register or window that only stores is read back, and no other word of the core reads
differently after it, but STATUS (10_state.md R30, R31, R33, R34, R36, R37, R39, R40, R42 to R44, R46, R47). -/
def Obligations.WrittenWordsReadBack : Prop :=
  ∀ (s : State) (a : Addr) (v : Word), s.rstn = true → s.seq = .idle → s.cfg.Legal → BuffersOk s → a.toNat % 4 = 0 →
    StoringOffset s.cfg a.toNat →
    (access (.read a) (access (.write a v 0xF) s)).resp = .data v ∧
    ∀ b : Addr, b ≠ a → b ≠ 0x0014 →
      (access (.read b) (access (.write a v 0xF) s)).resp = (access (.read b) s).resp

/-- While Idle, a write to a word of KEY, of the public key or of the private key clears the valid bit of that key, and no other
write changes a valid bit (10_state.md R45; 20_memory.md R77). -/
def Obligations.KeyWritesUnbind : Prop :=
  ∀ (s : State) (a : Addr) (v : Word), s.rstn = true → s.seq = .idle → s.cfg.Legal → a.toNat % 4 = 0 →
    ((access (.write a v 0xF) s).keyValid = true ↔ s.keyValid = true ∧ ¬ KeyOffset a.toNat) ∧
    ((access (.write a v 0xF) s).pubValid = true ↔ s.pubValid = true ∧ ¬ PubOffset s.cfg a.toNat) ∧
    ((access (.write a v 0xF) s).privValid = true ↔ s.privValid = true ∧ ¬ PrivOffset s.cfg a.toNat)

/-- A write to a read-only register or window completes without an error; while Idle it has no effect, else it is dropped and
sets WBUSY (20_memory.md R74, R78). -/
def Obligations.ReadOnlyWritesHaveNoEffect : Prop :=
  ∀ (s : State) (a : Addr) (v : Word), s.rstn = true → s.cfg.Legal → a.toNat % 4 = 0 → ReadOnlyOffset s.cfg a.toNat →
    (s.seq = .idle → access (.write a v 0xF) s = { s with resp := .okay }) ∧
    (s.seq ≠ .idle → access (.write a v 0xF) s = { s with wbusy := true, resp := .okay })

/-- While the core is Busy or in Init, a write to any mapped offset but CTRL and STATUS changes nothing but WBUSY, which it sets
(20_memory.md R78). -/
def Obligations.WritesWhileBusyAreDropped : Prop :=
  ∀ (s : State) (a : Addr) (v : Word), s.rstn = true → s.seq ≠ .idle → s.cfg.Legal → a.toNat % 4 = 0 →
    ¬ Unmapped s.cfg a.toNat → a ≠ 0x0010 → a ≠ 0x0014 →
    access (.write a v 0xF) s = { s with wbusy := true, resp := .okay }

/-- In every phase a write to STATUS clears DONE by bit 1 and WBUSY by bit 2 and does nothing else; a write to CTRL sets IE to
bit 0 and, only while Busy, requests an abort by bit 1; CTRL reads IE alone (10_state.md R26, R28). -/
def Obligations.ControlAndStatusWrites : Prop :=
  ∀ (s : State) (v : Word), s.rstn = true →
    (∃ t, access (.write 0x0014 v 0xF) s = t ∧ t = { s with done := t.done, wbusy := t.wbusy, resp := .okay } ∧
      (t.done = true ↔ s.done = true ∧ v.getLsbD 1 = false) ∧ (t.wbusy = true ↔ s.wbusy = true ∧ v.getLsbD 2 = false)) ∧
    (∃ t, access (.write 0x0010 v 0xF) s = t ∧ t = { s with ie := v.getLsbD 0, abortReq := t.abortReq, resp := .okay } ∧
      (t.abortReq = true ↔ s.abortReq = true ∨ (v.getLsbD 1 = true ∧ s.seq = .busy))) ∧
    (∃ w : Word, access (.read 0x0010) s = { s with resp := .data w } ∧ w.getLsbD 0 = s.ie ∧
      ∀ i, 1 ≤ i → w.getLsbD i = false)

/-- The interrupt output: high exactly when IE and DONE are; a finish raises it when IE is set, whatever the code; IE masks and
unmasks it and leaves DONE; clearing DONE, and the start of the next command, lower it (60_exceptions.md R268, R269). -/
def Obligations.InterruptLevel : Prop :=
  ∀ s : State,
    (irq s = true ↔ s.ie = true ∧ s.done = true) ∧
    (∀ i t, s.seq = .busy → exec i s = .next t → t.seq = .idle → irq t = s.ie) ∧
    (s.rstn = true → ∀ v : Word,
      irq (access (.write 0x0010 v 0xF) s) = (v.getLsbD 0 && s.done) ∧
      (access (.write 0x0010 v 0xF) s).done = s.done ∧
      (v.getLsbD 1 = true →
        (access (.write 0x0014 v 0xF) s).done = false ∧ irq (access (.write 0x0014 v 0xF) s) = false) ∧
      (s.seq = .idle →
        (access (.write 0x0018 v 0xF) s).done = false ∧ irq (access (.write 0x0018 v 0xF) s) = false))

/-- While the core is not Idle no host access changes a source or a destination of a command: an access changes at most IE, the
abort request, DONE, WBUSY and the model's own `resp` and `fresh` (20_memory.md R78, R80). -/
def Obligations.HostAccessWhileBusyKeepsTheCommand : Prop :=
  ∀ (s : State) (acc : Access), s.seq ≠ .idle →
    access acc s = { s with
      ie := (access acc s).ie, abortReq := (access acc s).abortReq, done := (access acc s).done
      wbusy := (access acc s).wbusy, resp := (access acc s).resp, fresh := (access acc s).fresh }

/-- Accesses that coincide with a finish: DONE is 1 after a clear in the cycle of the finish, an ABORT written then is discarded,
a write dropped then sets WBUSY, and a CMD write then is dropped (60_exceptions.md R270). -/
def Obligations.CoincidentFinish : Prop :=
  ∀ (s t : State) (es : List Event) (v : Word), s.rstn = true → s.seq = .busy → runSequencer s = .next t → t.seq = .idle →
    (∃ u, step { s with inputs := .busAtFinish (.write 0x0014 v 0xF) :: es } = .next u ∧ u.done = true ∧
      u.wbusy = (s.wbusy && !v.getLsbD 2) ∧ u.seq = .idle ∧ u.errcode = t.errcode) ∧
    (∃ u, step { s with inputs := .busAtFinish (.write 0x0010 v 0xF) :: es } = .next u ∧ u.abortReq = false ∧
      u.ie = v.getLsbD 0 ∧ u.seq = .idle ∧ u.done = true ∧ u.errcode = t.errcode) ∧
    (∃ u, step { s with inputs := .busAtFinish (.write 0x0018 v 0xF) :: es } = .next u ∧ u.wbusy = true ∧ u.cmd = s.cmd ∧
      u.seq = .idle ∧ u.done = true ∧ u.errcode = t.errcode)

/-! ### Reset -/

/-- Reset, from every state: the running command is abandoned, BUSY reads 1 and every other STATUS bit and the abort request are
0; while `rst_n = 0` no access is answered and the sequencer takes nothing; after the release and the end of Init the core is
Idle and every mapped offset reads its reset value (70_reset_and_hazards.md R300 to R302; 10_state.md R21, R50). -/
def Obligations.ResetSequence : Prop :=
  ∀ s : State, ∃ t u w : State,
    step { s with inputs := .resetAssert :: s.inputs } = .next t ∧
    t.rstn = false ∧ t.seq = .init ∧ t.abortReq = false ∧ statusWord t = 0x00000001 ∧ irq t = false ∧ t.rng = s.rng ∧
    (∀ acc, access acc t = { t with resp := .noResponse }) ∧ runSequencer t = .next t ∧
    step { t with inputs := .resetRelease :: t.inputs } = .next u ∧ u = { t with rstn := true } ∧
    step { u with inputs := .sequencer :: u.inputs } = .next w ∧ w.seq = .idle ∧ w.abortReq = false ∧ w.drawn = [] ∧
    w.rngPos = 0 ∧
    ∀ a : Addr, a.toNat % 4 = 0 → s.cfg.Legal → ¬ Unmapped s.cfg a.toNat → a ≠ 0x000C →
      (access (.read a) w).resp = .data (if a = 0x0000 then 0xC4030001 else if a = 0x0004 then BitVec.ofNat 32 s.cfg.bufBytes
        else if a = 0x0008 then BitVec.ofNat 32 s.cfg.bigBits else 0)

/-! ### Invariants and whole-machine rules -/

/-- The state after reset has the invariant (the reset values that the model chose do not enter: every register's reset value is
the spec's). -/
def Obligations.ResetHasTheInvariant : Prop := Inv State.reset

/-- Every step keeps the invariant, from every state that has it: legal parameters, registers in range, buffers canonical and in
their windows, RES a byte, OUT_LEN in the window, RK the expansion of a bound KEY, bound moduli of at least 2, abort requests and
drawn words only while Busy, DONE and ERRCODE clear while Busy, nothing bound during Init, Init while `rst_n = 0`. -/
def Obligations.StepKeepsTheInvariant : Prop := ∀ s t : State, Inv s → step s = .next t → Inv t

/-- A key becomes bound only by the finish, with OK, of a command that binds it (10_state.md R45). -/
def Obligations.OnlyBindingCommandsBindKeys : Prop :=
  ∀ s t : State, step s = .next t →
    (s.keyValid = false → t.keyValid = true → s.seq = .busy ∧ t.seq = .idle ∧ t.errcode = .ok ∧
      ∃ i, decode s.cmd = .ok i ∧ ((∃ m, i = .keybind m ∧ m.sym = true) ∨ i = .symkeygen)) ∧
    (s.pubValid = false → t.pubValid = true → s.seq = .busy ∧ t.seq = .idle ∧ t.errcode = .ok ∧
      ∃ i, decode s.cmd = .ok i ∧ ((∃ m, i = .keybind m ∧ m.pub = true) ∨ ∃ a b c, i = .rsakeygen a b c)) ∧
    (s.privValid = false → t.privValid = true → s.seq = .busy ∧ t.seq = .idle ∧ t.errcode = .ok ∧
      ∃ i, decode s.cmd = .ok i ∧ ((∃ m, i = .keybind m ∧ m.priv = true) ∨ ∃ a b c, i = .rsakeygen a b c))

/-- No command writes CMD, ARG, IN_LEN, OPA, OPB, IN, IE or WBUSY; only BPRIME writes PRIME, only BMUL writes OVF, only the
buffer commands write OUT and OUT_LEN, only the four byte commands write RES, only CBCENC writes IV
(10_state.md R29 to R36, R40, R41, R48). -/
def Obligations.CommandsWriteOnlyTheirDestinations : Prop :=
  ∀ (s t : State) (i : Instr), exec i s = .next t →
    t.cmd = s.cmd ∧ t.arg = s.arg ∧ t.inLen = s.inLen ∧ t.opa = s.opa ∧ t.opb = s.opb ∧ t.inBuf = s.inBuf ∧ t.ie = s.ie ∧
    t.wbusy = s.wbusy ∧ t.cfg = s.cfg ∧
    ((∀ b, i ≠ .bprime b) → t.prime = s.prime) ∧
    ((∀ a b c, i ≠ .bmul a b c) → t.ovf = s.ovf) ∧
    (isBufferCommand i = false → t.outBuf = s.outBuf ∧ t.outLen = s.outLen) ∧
    (i ≠ .gfmul → i ≠ .xtime → i ≠ .sbox → i ≠ .invsbox → t.res = s.res) ∧
    ((∀ src, i ≠ .cbcenc src) → t.iv = s.iv)

/-- No step changes the parameters: the configuration that a claim speaks of is fixed (00_scope.md R7; 10_state.md R51). -/
def Obligations.ConfigurationIsFixed : Prop := ∀ s t : State, step s = .next t → t.cfg = s.cfg

/-- While no symmetric key is bound no command uses RK: two states that differ in RK alone have next states that differ in RK
alone (10_state.md R38; 20_memory.md R85). -/
def Obligations.UnboundRoundKeysAreNotUsed : Prop :=
  ∀ (s t : State) (i : Instr) (rk : RoundKeys), s.keyValid = false → exec i s = .next t →
    ∃ rk', exec i { s with rk := rk } = .next { t with rk := rk' }
end

