-- ==== Sys2Proof/Laws/State.lean ====
section
/-! SUPPORT. One lemma per field per update of the state, so that no proof unfolds a record update. -/

namespace Sys2Proof.Laws

open Sys2Proof.Machine

variable (s : State)

/-! ### startCommand -/

@[simp] theorem startCommand_cfg (w : Word) : (startCommand w s).cfg = s.cfg := rfl
@[simp] theorem startCommand_rstn (w : Word) : (startCommand w s).rstn = s.rstn := rfl
@[simp] theorem startCommand_seq (w : Word) : (startCommand w s).seq = .busy := rfl
@[simp] theorem startCommand_ie (w : Word) : (startCommand w s).ie = s.ie := rfl
@[simp] theorem startCommand_abortReq (w : Word) : (startCommand w s).abortReq = s.abortReq := rfl
@[simp] theorem startCommand_done (w : Word) : (startCommand w s).done = false := rfl
@[simp] theorem startCommand_wbusy (w : Word) : (startCommand w s).wbusy = s.wbusy := rfl
@[simp] theorem startCommand_keyValid (w : Word) : (startCommand w s).keyValid = s.keyValid := rfl
@[simp] theorem startCommand_pubValid (w : Word) : (startCommand w s).pubValid = s.pubValid := rfl
@[simp] theorem startCommand_privValid (w : Word) : (startCommand w s).privValid = s.privValid := rfl
@[simp] theorem startCommand_prime (w : Word) : (startCommand w s).prime = s.prime := rfl
@[simp] theorem startCommand_ovf (w : Word) : (startCommand w s).ovf = s.ovf := rfl
@[simp] theorem startCommand_errcode (w : Word) : (startCommand w s).errcode = .ok := rfl
@[simp] theorem startCommand_cmd (w : Word) : (startCommand w s).cmd = w := rfl
@[simp] theorem startCommand_arg (w : Word) : (startCommand w s).arg = s.arg := rfl
@[simp] theorem startCommand_inLen (w : Word) : (startCommand w s).inLen = s.inLen := rfl
@[simp] theorem startCommand_outLen (w : Word) : (startCommand w s).outLen = s.outLen := rfl
@[simp] theorem startCommand_opa (w : Word) : (startCommand w s).opa = s.opa := rfl
@[simp] theorem startCommand_opb (w : Word) : (startCommand w s).opb = s.opb := rfl
@[simp] theorem startCommand_res (w : Word) : (startCommand w s).res = s.res := rfl
@[simp] theorem startCommand_iv (w : Word) : (startCommand w s).iv = s.iv := rfl
@[simp] theorem startCommand_key (w : Word) : (startCommand w s).key = s.key := rfl
@[simp] theorem startCommand_state (w : Word) : (startCommand w s).state = s.state := rfl
@[simp] theorem startCommand_rk (w : Word) : (startCommand w s).rk = s.rk := rfl
@[simp] theorem startCommand_inBuf (w : Word) : (startCommand w s).inBuf = s.inBuf := rfl
@[simp] theorem startCommand_outBuf (w : Word) : (startCommand w s).outBuf = s.outBuf := rfl
@[simp] theorem startCommand_x (w : Word) : (startCommand w s).x = s.x := rfl
@[simp] theorem startCommand_pubE (w : Word) : (startCommand w s).pubE = s.pubE := rfl
@[simp] theorem startCommand_pubN (w : Word) : (startCommand w s).pubN = s.pubN := rfl
@[simp] theorem startCommand_privD (w : Word) : (startCommand w s).privD = s.privD := rfl
@[simp] theorem startCommand_privN (w : Word) : (startCommand w s).privN = s.privN := rfl
@[simp] theorem startCommand_rngPos (w : Word) : (startCommand w s).rngPos = s.rngPos := rfl
@[simp] theorem startCommand_drawn (w : Word) : (startCommand w s).drawn = [] := rfl
@[simp] theorem startCommand_rng (w : Word) : (startCommand w s).rng = s.rng := rfl
@[simp] theorem startCommand_inputs (w : Word) : (startCommand w s).inputs = s.inputs := rfl
@[simp] theorem startCommand_resp (w : Word) : (startCommand w s).resp = s.resp := rfl
@[simp] theorem startCommand_fresh (w : Word) : (startCommand w s).fresh = s.fresh := rfl

/-! ### finish -/

@[simp] theorem finish_cfg (c : ErrCode) : (finish c s).cfg = s.cfg := rfl
@[simp] theorem finish_rstn (c : ErrCode) : (finish c s).rstn = s.rstn := rfl
@[simp] theorem finish_seq (c : ErrCode) : (finish c s).seq = .idle := rfl
@[simp] theorem finish_ie (c : ErrCode) : (finish c s).ie = s.ie := rfl
@[simp] theorem finish_abortReq (c : ErrCode) : (finish c s).abortReq = false := rfl
@[simp] theorem finish_done (c : ErrCode) : (finish c s).done = true := rfl
@[simp] theorem finish_wbusy (c : ErrCode) : (finish c s).wbusy = s.wbusy := rfl
@[simp] theorem finish_keyValid (c : ErrCode) : (finish c s).keyValid = s.keyValid := rfl
@[simp] theorem finish_pubValid (c : ErrCode) : (finish c s).pubValid = s.pubValid := rfl
@[simp] theorem finish_privValid (c : ErrCode) : (finish c s).privValid = s.privValid := rfl
@[simp] theorem finish_prime (c : ErrCode) : (finish c s).prime = s.prime := rfl
@[simp] theorem finish_ovf (c : ErrCode) : (finish c s).ovf = s.ovf := rfl
@[simp] theorem finish_errcode (c : ErrCode) : (finish c s).errcode = c := rfl
@[simp] theorem finish_cmd (c : ErrCode) : (finish c s).cmd = s.cmd := rfl
@[simp] theorem finish_arg (c : ErrCode) : (finish c s).arg = s.arg := rfl
@[simp] theorem finish_inLen (c : ErrCode) : (finish c s).inLen = s.inLen := rfl
@[simp] theorem finish_outLen (c : ErrCode) : (finish c s).outLen = s.outLen := rfl
@[simp] theorem finish_opa (c : ErrCode) : (finish c s).opa = s.opa := rfl
@[simp] theorem finish_opb (c : ErrCode) : (finish c s).opb = s.opb := rfl
@[simp] theorem finish_res (c : ErrCode) : (finish c s).res = s.res := rfl
@[simp] theorem finish_iv (c : ErrCode) : (finish c s).iv = s.iv := rfl
@[simp] theorem finish_key (c : ErrCode) : (finish c s).key = s.key := rfl
@[simp] theorem finish_state (c : ErrCode) : (finish c s).state = s.state := rfl
@[simp] theorem finish_rk (c : ErrCode) : (finish c s).rk = s.rk := rfl
@[simp] theorem finish_inBuf (c : ErrCode) : (finish c s).inBuf = s.inBuf := rfl
@[simp] theorem finish_outBuf (c : ErrCode) : (finish c s).outBuf = s.outBuf := rfl
@[simp] theorem finish_x (c : ErrCode) : (finish c s).x = s.x := rfl
@[simp] theorem finish_pubE (c : ErrCode) : (finish c s).pubE = s.pubE := rfl
@[simp] theorem finish_pubN (c : ErrCode) : (finish c s).pubN = s.pubN := rfl
@[simp] theorem finish_privD (c : ErrCode) : (finish c s).privD = s.privD := rfl
@[simp] theorem finish_privN (c : ErrCode) : (finish c s).privN = s.privN := rfl
@[simp] theorem finish_rngPos (c : ErrCode) : (finish c s).rngPos = s.rngPos := rfl
@[simp] theorem finish_drawn (c : ErrCode) : (finish c s).drawn = [] := rfl
@[simp] theorem finish_rng (c : ErrCode) : (finish c s).rng = s.rng := rfl
@[simp] theorem finish_inputs (c : ErrCode) : (finish c s).inputs = s.inputs := rfl
@[simp] theorem finish_resp (c : ErrCode) : (finish c s).resp = s.resp := rfl
@[simp] theorem finish_fresh (c : ErrCode) : (finish c s).fresh = s.fresh := rfl

/-! ### loseOut -/

@[simp] theorem loseOut_cfg : (loseOut s).cfg = s.cfg := rfl
@[simp] theorem loseOut_rstn : (loseOut s).rstn = s.rstn := rfl
@[simp] theorem loseOut_seq : (loseOut s).seq = s.seq := rfl
@[simp] theorem loseOut_ie : (loseOut s).ie = s.ie := rfl
@[simp] theorem loseOut_abortReq : (loseOut s).abortReq = s.abortReq := rfl
@[simp] theorem loseOut_done : (loseOut s).done = s.done := rfl
@[simp] theorem loseOut_wbusy : (loseOut s).wbusy = s.wbusy := rfl
@[simp] theorem loseOut_keyValid : (loseOut s).keyValid = s.keyValid := rfl
@[simp] theorem loseOut_pubValid : (loseOut s).pubValid = s.pubValid := rfl
@[simp] theorem loseOut_privValid : (loseOut s).privValid = s.privValid := rfl
@[simp] theorem loseOut_prime : (loseOut s).prime = s.prime := rfl
@[simp] theorem loseOut_ovf : (loseOut s).ovf = s.ovf := rfl
@[simp] theorem loseOut_errcode : (loseOut s).errcode = s.errcode := rfl
@[simp] theorem loseOut_cmd : (loseOut s).cmd = s.cmd := rfl
@[simp] theorem loseOut_arg : (loseOut s).arg = s.arg := rfl
@[simp] theorem loseOut_inLen : (loseOut s).inLen = s.inLen := rfl
@[simp] theorem loseOut_outLen : (loseOut s).outLen = 0 := rfl
@[simp] theorem loseOut_opa : (loseOut s).opa = s.opa := rfl
@[simp] theorem loseOut_opb : (loseOut s).opb = s.opb := rfl
@[simp] theorem loseOut_res : (loseOut s).res = s.res := rfl
@[simp] theorem loseOut_iv : (loseOut s).iv = s.iv := rfl
@[simp] theorem loseOut_key : (loseOut s).key = s.key := rfl
@[simp] theorem loseOut_state : (loseOut s).state = s.state := rfl
@[simp] theorem loseOut_rk : (loseOut s).rk = s.rk := rfl
@[simp] theorem loseOut_inBuf : (loseOut s).inBuf = s.inBuf := rfl
@[simp] theorem loseOut_outBuf : (loseOut s).outBuf = freeOut s.cfg.bufBytes s.fresh := rfl
@[simp] theorem loseOut_x : (loseOut s).x = s.x := rfl
@[simp] theorem loseOut_pubE : (loseOut s).pubE = s.pubE := rfl
@[simp] theorem loseOut_pubN : (loseOut s).pubN = s.pubN := rfl
@[simp] theorem loseOut_privD : (loseOut s).privD = s.privD := rfl
@[simp] theorem loseOut_privN : (loseOut s).privN = s.privN := rfl
@[simp] theorem loseOut_rngPos : (loseOut s).rngPos = s.rngPos := rfl
@[simp] theorem loseOut_drawn : (loseOut s).drawn = s.drawn := rfl
@[simp] theorem loseOut_rng : (loseOut s).rng = s.rng := rfl
@[simp] theorem loseOut_inputs : (loseOut s).inputs = s.inputs := rfl
@[simp] theorem loseOut_resp : (loseOut s).resp = s.resp := rfl
@[simp] theorem loseOut_fresh : (loseOut s).fresh = s.fresh + 1 := rfl

/-! ### takeAllBut -/

@[simp] theorem takeAllBut_cfg (rest : List Word) : (takeAllBut rest s).cfg = s.cfg := rfl
@[simp] theorem takeAllBut_rstn (rest : List Word) : (takeAllBut rest s).rstn = s.rstn := rfl
@[simp] theorem takeAllBut_seq (rest : List Word) : (takeAllBut rest s).seq = s.seq := rfl
@[simp] theorem takeAllBut_ie (rest : List Word) : (takeAllBut rest s).ie = s.ie := rfl
@[simp] theorem takeAllBut_abortReq (rest : List Word) : (takeAllBut rest s).abortReq = s.abortReq := rfl
@[simp] theorem takeAllBut_done (rest : List Word) : (takeAllBut rest s).done = s.done := rfl
@[simp] theorem takeAllBut_wbusy (rest : List Word) : (takeAllBut rest s).wbusy = s.wbusy := rfl
@[simp] theorem takeAllBut_keyValid (rest : List Word) : (takeAllBut rest s).keyValid = s.keyValid := rfl
@[simp] theorem takeAllBut_pubValid (rest : List Word) : (takeAllBut rest s).pubValid = s.pubValid := rfl
@[simp] theorem takeAllBut_privValid (rest : List Word) : (takeAllBut rest s).privValid = s.privValid := rfl
@[simp] theorem takeAllBut_prime (rest : List Word) : (takeAllBut rest s).prime = s.prime := rfl
@[simp] theorem takeAllBut_ovf (rest : List Word) : (takeAllBut rest s).ovf = s.ovf := rfl
@[simp] theorem takeAllBut_errcode (rest : List Word) : (takeAllBut rest s).errcode = s.errcode := rfl
@[simp] theorem takeAllBut_cmd (rest : List Word) : (takeAllBut rest s).cmd = s.cmd := rfl
@[simp] theorem takeAllBut_arg (rest : List Word) : (takeAllBut rest s).arg = s.arg := rfl
@[simp] theorem takeAllBut_inLen (rest : List Word) : (takeAllBut rest s).inLen = s.inLen := rfl
@[simp] theorem takeAllBut_outLen (rest : List Word) : (takeAllBut rest s).outLen = s.outLen := rfl
@[simp] theorem takeAllBut_opa (rest : List Word) : (takeAllBut rest s).opa = s.opa := rfl
@[simp] theorem takeAllBut_opb (rest : List Word) : (takeAllBut rest s).opb = s.opb := rfl
@[simp] theorem takeAllBut_res (rest : List Word) : (takeAllBut rest s).res = s.res := rfl
@[simp] theorem takeAllBut_iv (rest : List Word) : (takeAllBut rest s).iv = s.iv := rfl
@[simp] theorem takeAllBut_key (rest : List Word) : (takeAllBut rest s).key = s.key := rfl
@[simp] theorem takeAllBut_state (rest : List Word) : (takeAllBut rest s).state = s.state := rfl
@[simp] theorem takeAllBut_rk (rest : List Word) : (takeAllBut rest s).rk = s.rk := rfl
@[simp] theorem takeAllBut_inBuf (rest : List Word) : (takeAllBut rest s).inBuf = s.inBuf := rfl
@[simp] theorem takeAllBut_outBuf (rest : List Word) : (takeAllBut rest s).outBuf = s.outBuf := rfl
@[simp] theorem takeAllBut_x (rest : List Word) : (takeAllBut rest s).x = s.x := rfl
@[simp] theorem takeAllBut_pubE (rest : List Word) : (takeAllBut rest s).pubE = s.pubE := rfl
@[simp] theorem takeAllBut_pubN (rest : List Word) : (takeAllBut rest s).pubN = s.pubN := rfl
@[simp] theorem takeAllBut_privD (rest : List Word) : (takeAllBut rest s).privD = s.privD := rfl
@[simp] theorem takeAllBut_privN (rest : List Word) : (takeAllBut rest s).privN = s.privN := rfl
@[simp] theorem takeAllBut_rngPos (rest : List Word) : (takeAllBut rest s).rngPos = s.rngPos + (s.rng.length - rest.length) := rfl
@[simp] theorem takeAllBut_drawn (rest : List Word) : (takeAllBut rest s).drawn = s.drawn := rfl
@[simp] theorem takeAllBut_rng (rest : List Word) : (takeAllBut rest s).rng = rest := rfl
@[simp] theorem takeAllBut_inputs (rest : List Word) : (takeAllBut rest s).inputs = s.inputs := rfl
@[simp] theorem takeAllBut_resp (rest : List Word) : (takeAllBut rest s).resp = s.resp := rfl
@[simp] theorem takeAllBut_fresh (rest : List Word) : (takeAllBut rest s).fresh = s.fresh := rfl

/-! ### waitForWord -/

@[simp] theorem waitForWord_cfg : (waitForWord s).cfg = s.cfg := rfl
@[simp] theorem waitForWord_rstn : (waitForWord s).rstn = s.rstn := rfl
@[simp] theorem waitForWord_seq : (waitForWord s).seq = s.seq := rfl
@[simp] theorem waitForWord_ie : (waitForWord s).ie = s.ie := rfl
@[simp] theorem waitForWord_abortReq : (waitForWord s).abortReq = s.abortReq := rfl
@[simp] theorem waitForWord_done : (waitForWord s).done = s.done := rfl
@[simp] theorem waitForWord_wbusy : (waitForWord s).wbusy = s.wbusy := rfl
@[simp] theorem waitForWord_keyValid : (waitForWord s).keyValid = s.keyValid := rfl
@[simp] theorem waitForWord_pubValid : (waitForWord s).pubValid = s.pubValid := rfl
@[simp] theorem waitForWord_privValid : (waitForWord s).privValid = s.privValid := rfl
@[simp] theorem waitForWord_prime : (waitForWord s).prime = s.prime := rfl
@[simp] theorem waitForWord_ovf : (waitForWord s).ovf = s.ovf := rfl
@[simp] theorem waitForWord_errcode : (waitForWord s).errcode = s.errcode := rfl
@[simp] theorem waitForWord_cmd : (waitForWord s).cmd = s.cmd := rfl
@[simp] theorem waitForWord_arg : (waitForWord s).arg = s.arg := rfl
@[simp] theorem waitForWord_inLen : (waitForWord s).inLen = s.inLen := rfl
@[simp] theorem waitForWord_outLen : (waitForWord s).outLen = s.outLen := rfl
@[simp] theorem waitForWord_opa : (waitForWord s).opa = s.opa := rfl
@[simp] theorem waitForWord_opb : (waitForWord s).opb = s.opb := rfl
@[simp] theorem waitForWord_res : (waitForWord s).res = s.res := rfl
@[simp] theorem waitForWord_iv : (waitForWord s).iv = s.iv := rfl
@[simp] theorem waitForWord_key : (waitForWord s).key = s.key := rfl
@[simp] theorem waitForWord_state : (waitForWord s).state = s.state := rfl
@[simp] theorem waitForWord_rk : (waitForWord s).rk = s.rk := rfl
@[simp] theorem waitForWord_inBuf : (waitForWord s).inBuf = s.inBuf := rfl
@[simp] theorem waitForWord_outBuf : (waitForWord s).outBuf = s.outBuf := rfl
@[simp] theorem waitForWord_x : (waitForWord s).x = s.x := rfl
@[simp] theorem waitForWord_pubE : (waitForWord s).pubE = s.pubE := rfl
@[simp] theorem waitForWord_pubN : (waitForWord s).pubN = s.pubN := rfl
@[simp] theorem waitForWord_privD : (waitForWord s).privD = s.privD := rfl
@[simp] theorem waitForWord_privN : (waitForWord s).privN = s.privN := rfl
@[simp] theorem waitForWord_rngPos : (waitForWord s).rngPos = s.rngPos + s.rng.length := rfl
@[simp] theorem waitForWord_drawn : (waitForWord s).drawn = s.drawn ++ s.rng := rfl
@[simp] theorem waitForWord_rng : (waitForWord s).rng = [] := rfl
@[simp] theorem waitForWord_inputs : (waitForWord s).inputs = s.inputs := rfl
@[simp] theorem waitForWord_resp : (waitForWord s).resp = s.resp := rfl
@[simp] theorem waitForWord_fresh : (waitForWord s).fresh = s.fresh := rfl

/-! ### xWrite -/

@[simp] theorem xWrite_cfg (i : XReg) (v : Nat) : (xWrite i v s).cfg = s.cfg := rfl
@[simp] theorem xWrite_rstn (i : XReg) (v : Nat) : (xWrite i v s).rstn = s.rstn := rfl
@[simp] theorem xWrite_seq (i : XReg) (v : Nat) : (xWrite i v s).seq = s.seq := rfl
@[simp] theorem xWrite_ie (i : XReg) (v : Nat) : (xWrite i v s).ie = s.ie := rfl
@[simp] theorem xWrite_abortReq (i : XReg) (v : Nat) : (xWrite i v s).abortReq = s.abortReq := rfl
@[simp] theorem xWrite_done (i : XReg) (v : Nat) : (xWrite i v s).done = s.done := rfl
@[simp] theorem xWrite_wbusy (i : XReg) (v : Nat) : (xWrite i v s).wbusy = s.wbusy := rfl
@[simp] theorem xWrite_keyValid (i : XReg) (v : Nat) : (xWrite i v s).keyValid = s.keyValid := rfl
@[simp] theorem xWrite_pubValid (i : XReg) (v : Nat) : (xWrite i v s).pubValid = s.pubValid := rfl
@[simp] theorem xWrite_privValid (i : XReg) (v : Nat) : (xWrite i v s).privValid = s.privValid := rfl
@[simp] theorem xWrite_prime (i : XReg) (v : Nat) : (xWrite i v s).prime = s.prime := rfl
@[simp] theorem xWrite_ovf (i : XReg) (v : Nat) : (xWrite i v s).ovf = s.ovf := rfl
@[simp] theorem xWrite_errcode (i : XReg) (v : Nat) : (xWrite i v s).errcode = s.errcode := rfl
@[simp] theorem xWrite_cmd (i : XReg) (v : Nat) : (xWrite i v s).cmd = s.cmd := rfl
@[simp] theorem xWrite_arg (i : XReg) (v : Nat) : (xWrite i v s).arg = s.arg := rfl
@[simp] theorem xWrite_inLen (i : XReg) (v : Nat) : (xWrite i v s).inLen = s.inLen := rfl
@[simp] theorem xWrite_outLen (i : XReg) (v : Nat) : (xWrite i v s).outLen = s.outLen := rfl
@[simp] theorem xWrite_opa (i : XReg) (v : Nat) : (xWrite i v s).opa = s.opa := rfl
@[simp] theorem xWrite_opb (i : XReg) (v : Nat) : (xWrite i v s).opb = s.opb := rfl
@[simp] theorem xWrite_res (i : XReg) (v : Nat) : (xWrite i v s).res = s.res := rfl
@[simp] theorem xWrite_iv (i : XReg) (v : Nat) : (xWrite i v s).iv = s.iv := rfl
@[simp] theorem xWrite_key (i : XReg) (v : Nat) : (xWrite i v s).key = s.key := rfl
@[simp] theorem xWrite_state (i : XReg) (v : Nat) : (xWrite i v s).state = s.state := rfl
@[simp] theorem xWrite_rk (i : XReg) (v : Nat) : (xWrite i v s).rk = s.rk := rfl
@[simp] theorem xWrite_inBuf (i : XReg) (v : Nat) : (xWrite i v s).inBuf = s.inBuf := rfl
@[simp] theorem xWrite_outBuf (i : XReg) (v : Nat) : (xWrite i v s).outBuf = s.outBuf := rfl
@[simp] theorem xWrite_x (i : XReg) (v : Nat) : (xWrite i v s).x = s.x.set i v := rfl
@[simp] theorem xWrite_pubE (i : XReg) (v : Nat) : (xWrite i v s).pubE = s.pubE := rfl
@[simp] theorem xWrite_pubN (i : XReg) (v : Nat) : (xWrite i v s).pubN = s.pubN := rfl
@[simp] theorem xWrite_privD (i : XReg) (v : Nat) : (xWrite i v s).privD = s.privD := rfl
@[simp] theorem xWrite_privN (i : XReg) (v : Nat) : (xWrite i v s).privN = s.privN := rfl
@[simp] theorem xWrite_rngPos (i : XReg) (v : Nat) : (xWrite i v s).rngPos = s.rngPos := rfl
@[simp] theorem xWrite_drawn (i : XReg) (v : Nat) : (xWrite i v s).drawn = s.drawn := rfl
@[simp] theorem xWrite_rng (i : XReg) (v : Nat) : (xWrite i v s).rng = s.rng := rfl
@[simp] theorem xWrite_inputs (i : XReg) (v : Nat) : (xWrite i v s).inputs = s.inputs := rfl
@[simp] theorem xWrite_resp (i : XReg) (v : Nat) : (xWrite i v s).resp = s.resp := rfl
@[simp] theorem xWrite_fresh (i : XReg) (v : Nat) : (xWrite i v s).fresh = s.fresh := rfl

/-! ### writeRes -/

@[simp] theorem writeRes_cfg (b : Byte) : (writeRes b s).cfg = s.cfg := rfl
@[simp] theorem writeRes_rstn (b : Byte) : (writeRes b s).rstn = s.rstn := rfl
@[simp] theorem writeRes_seq (b : Byte) : (writeRes b s).seq = s.seq := rfl
@[simp] theorem writeRes_ie (b : Byte) : (writeRes b s).ie = s.ie := rfl
@[simp] theorem writeRes_abortReq (b : Byte) : (writeRes b s).abortReq = s.abortReq := rfl
@[simp] theorem writeRes_done (b : Byte) : (writeRes b s).done = s.done := rfl
@[simp] theorem writeRes_wbusy (b : Byte) : (writeRes b s).wbusy = s.wbusy := rfl
@[simp] theorem writeRes_keyValid (b : Byte) : (writeRes b s).keyValid = s.keyValid := rfl
@[simp] theorem writeRes_pubValid (b : Byte) : (writeRes b s).pubValid = s.pubValid := rfl
@[simp] theorem writeRes_privValid (b : Byte) : (writeRes b s).privValid = s.privValid := rfl
@[simp] theorem writeRes_prime (b : Byte) : (writeRes b s).prime = s.prime := rfl
@[simp] theorem writeRes_ovf (b : Byte) : (writeRes b s).ovf = s.ovf := rfl
@[simp] theorem writeRes_errcode (b : Byte) : (writeRes b s).errcode = s.errcode := rfl
@[simp] theorem writeRes_cmd (b : Byte) : (writeRes b s).cmd = s.cmd := rfl
@[simp] theorem writeRes_arg (b : Byte) : (writeRes b s).arg = s.arg := rfl
@[simp] theorem writeRes_inLen (b : Byte) : (writeRes b s).inLen = s.inLen := rfl
@[simp] theorem writeRes_outLen (b : Byte) : (writeRes b s).outLen = s.outLen := rfl
@[simp] theorem writeRes_opa (b : Byte) : (writeRes b s).opa = s.opa := rfl
@[simp] theorem writeRes_opb (b : Byte) : (writeRes b s).opb = s.opb := rfl
@[simp] theorem writeRes_res (b : Byte) : (writeRes b s).res = b.setWidth 32 := rfl
@[simp] theorem writeRes_iv (b : Byte) : (writeRes b s).iv = s.iv := rfl
@[simp] theorem writeRes_key (b : Byte) : (writeRes b s).key = s.key := rfl
@[simp] theorem writeRes_state (b : Byte) : (writeRes b s).state = s.state := rfl
@[simp] theorem writeRes_rk (b : Byte) : (writeRes b s).rk = s.rk := rfl
@[simp] theorem writeRes_inBuf (b : Byte) : (writeRes b s).inBuf = s.inBuf := rfl
@[simp] theorem writeRes_outBuf (b : Byte) : (writeRes b s).outBuf = s.outBuf := rfl
@[simp] theorem writeRes_x (b : Byte) : (writeRes b s).x = s.x := rfl
@[simp] theorem writeRes_pubE (b : Byte) : (writeRes b s).pubE = s.pubE := rfl
@[simp] theorem writeRes_pubN (b : Byte) : (writeRes b s).pubN = s.pubN := rfl
@[simp] theorem writeRes_privD (b : Byte) : (writeRes b s).privD = s.privD := rfl
@[simp] theorem writeRes_privN (b : Byte) : (writeRes b s).privN = s.privN := rfl
@[simp] theorem writeRes_rngPos (b : Byte) : (writeRes b s).rngPos = s.rngPos := rfl
@[simp] theorem writeRes_drawn (b : Byte) : (writeRes b s).drawn = s.drawn := rfl
@[simp] theorem writeRes_rng (b : Byte) : (writeRes b s).rng = s.rng := rfl
@[simp] theorem writeRes_inputs (b : Byte) : (writeRes b s).inputs = s.inputs := rfl
@[simp] theorem writeRes_resp (b : Byte) : (writeRes b s).resp = s.resp := rfl
@[simp] theorem writeRes_fresh (b : Byte) : (writeRes b s).fresh = s.fresh := rfl

/-! ### writeState -/

@[simp] theorem writeState_cfg (b : Block) : (writeState b s).cfg = s.cfg := rfl
@[simp] theorem writeState_rstn (b : Block) : (writeState b s).rstn = s.rstn := rfl
@[simp] theorem writeState_seq (b : Block) : (writeState b s).seq = s.seq := rfl
@[simp] theorem writeState_ie (b : Block) : (writeState b s).ie = s.ie := rfl
@[simp] theorem writeState_abortReq (b : Block) : (writeState b s).abortReq = s.abortReq := rfl
@[simp] theorem writeState_done (b : Block) : (writeState b s).done = s.done := rfl
@[simp] theorem writeState_wbusy (b : Block) : (writeState b s).wbusy = s.wbusy := rfl
@[simp] theorem writeState_keyValid (b : Block) : (writeState b s).keyValid = s.keyValid := rfl
@[simp] theorem writeState_pubValid (b : Block) : (writeState b s).pubValid = s.pubValid := rfl
@[simp] theorem writeState_privValid (b : Block) : (writeState b s).privValid = s.privValid := rfl
@[simp] theorem writeState_prime (b : Block) : (writeState b s).prime = s.prime := rfl
@[simp] theorem writeState_ovf (b : Block) : (writeState b s).ovf = s.ovf := rfl
@[simp] theorem writeState_errcode (b : Block) : (writeState b s).errcode = s.errcode := rfl
@[simp] theorem writeState_cmd (b : Block) : (writeState b s).cmd = s.cmd := rfl
@[simp] theorem writeState_arg (b : Block) : (writeState b s).arg = s.arg := rfl
@[simp] theorem writeState_inLen (b : Block) : (writeState b s).inLen = s.inLen := rfl
@[simp] theorem writeState_outLen (b : Block) : (writeState b s).outLen = s.outLen := rfl
@[simp] theorem writeState_opa (b : Block) : (writeState b s).opa = s.opa := rfl
@[simp] theorem writeState_opb (b : Block) : (writeState b s).opb = s.opb := rfl
@[simp] theorem writeState_res (b : Block) : (writeState b s).res = s.res := rfl
@[simp] theorem writeState_iv (b : Block) : (writeState b s).iv = s.iv := rfl
@[simp] theorem writeState_key (b : Block) : (writeState b s).key = s.key := rfl
@[simp] theorem writeState_state (b : Block) : (writeState b s).state = b := rfl
@[simp] theorem writeState_rk (b : Block) : (writeState b s).rk = s.rk := rfl
@[simp] theorem writeState_inBuf (b : Block) : (writeState b s).inBuf = s.inBuf := rfl
@[simp] theorem writeState_outBuf (b : Block) : (writeState b s).outBuf = s.outBuf := rfl
@[simp] theorem writeState_x (b : Block) : (writeState b s).x = s.x := rfl
@[simp] theorem writeState_pubE (b : Block) : (writeState b s).pubE = s.pubE := rfl
@[simp] theorem writeState_pubN (b : Block) : (writeState b s).pubN = s.pubN := rfl
@[simp] theorem writeState_privD (b : Block) : (writeState b s).privD = s.privD := rfl
@[simp] theorem writeState_privN (b : Block) : (writeState b s).privN = s.privN := rfl
@[simp] theorem writeState_rngPos (b : Block) : (writeState b s).rngPos = s.rngPos := rfl
@[simp] theorem writeState_drawn (b : Block) : (writeState b s).drawn = s.drawn := rfl
@[simp] theorem writeState_rng (b : Block) : (writeState b s).rng = s.rng := rfl
@[simp] theorem writeState_inputs (b : Block) : (writeState b s).inputs = s.inputs := rfl
@[simp] theorem writeState_resp (b : Block) : (writeState b s).resp = s.resp := rfl
@[simp] theorem writeState_fresh (b : Block) : (writeState b s).fresh = s.fresh := rfl

/-! ### writeOut -/

@[simp] theorem writeOut_cfg (bs : List Byte) : (writeOut bs s).cfg = s.cfg := rfl
@[simp] theorem writeOut_rstn (bs : List Byte) : (writeOut bs s).rstn = s.rstn := rfl
@[simp] theorem writeOut_seq (bs : List Byte) : (writeOut bs s).seq = s.seq := rfl
@[simp] theorem writeOut_ie (bs : List Byte) : (writeOut bs s).ie = s.ie := rfl
@[simp] theorem writeOut_abortReq (bs : List Byte) : (writeOut bs s).abortReq = s.abortReq := rfl
@[simp] theorem writeOut_done (bs : List Byte) : (writeOut bs s).done = s.done := rfl
@[simp] theorem writeOut_wbusy (bs : List Byte) : (writeOut bs s).wbusy = s.wbusy := rfl
@[simp] theorem writeOut_keyValid (bs : List Byte) : (writeOut bs s).keyValid = s.keyValid := rfl
@[simp] theorem writeOut_pubValid (bs : List Byte) : (writeOut bs s).pubValid = s.pubValid := rfl
@[simp] theorem writeOut_privValid (bs : List Byte) : (writeOut bs s).privValid = s.privValid := rfl
@[simp] theorem writeOut_prime (bs : List Byte) : (writeOut bs s).prime = s.prime := rfl
@[simp] theorem writeOut_ovf (bs : List Byte) : (writeOut bs s).ovf = s.ovf := rfl
@[simp] theorem writeOut_errcode (bs : List Byte) : (writeOut bs s).errcode = s.errcode := rfl
@[simp] theorem writeOut_cmd (bs : List Byte) : (writeOut bs s).cmd = s.cmd := rfl
@[simp] theorem writeOut_arg (bs : List Byte) : (writeOut bs s).arg = s.arg := rfl
@[simp] theorem writeOut_inLen (bs : List Byte) : (writeOut bs s).inLen = s.inLen := rfl
@[simp] theorem writeOut_outLen (bs : List Byte) : (writeOut bs s).outLen = BitVec.ofNat 32 bs.length := rfl
@[simp] theorem writeOut_opa (bs : List Byte) : (writeOut bs s).opa = s.opa := rfl
@[simp] theorem writeOut_opb (bs : List Byte) : (writeOut bs s).opb = s.opb := rfl
@[simp] theorem writeOut_res (bs : List Byte) : (writeOut bs s).res = s.res := rfl
@[simp] theorem writeOut_iv (bs : List Byte) : (writeOut bs s).iv = s.iv := rfl
@[simp] theorem writeOut_key (bs : List Byte) : (writeOut bs s).key = s.key := rfl
@[simp] theorem writeOut_state (bs : List Byte) : (writeOut bs s).state = s.state := rfl
@[simp] theorem writeOut_rk (bs : List Byte) : (writeOut bs s).rk = s.rk := rfl
@[simp] theorem writeOut_inBuf (bs : List Byte) : (writeOut bs s).inBuf = s.inBuf := rfl
@[simp] theorem writeOut_outBuf (bs : List Byte) : (writeOut bs s).outBuf = memWriteBytes s.outBuf outBase bs := rfl
@[simp] theorem writeOut_x (bs : List Byte) : (writeOut bs s).x = s.x := rfl
@[simp] theorem writeOut_pubE (bs : List Byte) : (writeOut bs s).pubE = s.pubE := rfl
@[simp] theorem writeOut_pubN (bs : List Byte) : (writeOut bs s).pubN = s.pubN := rfl
@[simp] theorem writeOut_privD (bs : List Byte) : (writeOut bs s).privD = s.privD := rfl
@[simp] theorem writeOut_privN (bs : List Byte) : (writeOut bs s).privN = s.privN := rfl
@[simp] theorem writeOut_rngPos (bs : List Byte) : (writeOut bs s).rngPos = s.rngPos := rfl
@[simp] theorem writeOut_drawn (bs : List Byte) : (writeOut bs s).drawn = s.drawn := rfl
@[simp] theorem writeOut_rng (bs : List Byte) : (writeOut bs s).rng = s.rng := rfl
@[simp] theorem writeOut_inputs (bs : List Byte) : (writeOut bs s).inputs = s.inputs := rfl
@[simp] theorem writeOut_resp (bs : List Byte) : (writeOut bs s).resp = s.resp := rfl
@[simp] theorem writeOut_fresh (bs : List Byte) : (writeOut bs s).fresh = s.fresh := rfl

/-! ### bindSym -/

@[simp] theorem bindSym_cfg : (bindSym s).cfg = s.cfg := rfl
@[simp] theorem bindSym_rstn : (bindSym s).rstn = s.rstn := rfl
@[simp] theorem bindSym_seq : (bindSym s).seq = s.seq := rfl
@[simp] theorem bindSym_ie : (bindSym s).ie = s.ie := rfl
@[simp] theorem bindSym_abortReq : (bindSym s).abortReq = s.abortReq := rfl
@[simp] theorem bindSym_done : (bindSym s).done = s.done := rfl
@[simp] theorem bindSym_wbusy : (bindSym s).wbusy = s.wbusy := rfl
@[simp] theorem bindSym_keyValid : (bindSym s).keyValid = true := rfl
@[simp] theorem bindSym_pubValid : (bindSym s).pubValid = s.pubValid := rfl
@[simp] theorem bindSym_privValid : (bindSym s).privValid = s.privValid := rfl
@[simp] theorem bindSym_prime : (bindSym s).prime = s.prime := rfl
@[simp] theorem bindSym_ovf : (bindSym s).ovf = s.ovf := rfl
@[simp] theorem bindSym_errcode : (bindSym s).errcode = s.errcode := rfl
@[simp] theorem bindSym_cmd : (bindSym s).cmd = s.cmd := rfl
@[simp] theorem bindSym_arg : (bindSym s).arg = s.arg := rfl
@[simp] theorem bindSym_inLen : (bindSym s).inLen = s.inLen := rfl
@[simp] theorem bindSym_outLen : (bindSym s).outLen = s.outLen := rfl
@[simp] theorem bindSym_opa : (bindSym s).opa = s.opa := rfl
@[simp] theorem bindSym_opb : (bindSym s).opb = s.opb := rfl
@[simp] theorem bindSym_res : (bindSym s).res = s.res := rfl
@[simp] theorem bindSym_iv : (bindSym s).iv = s.iv := rfl
@[simp] theorem bindSym_key : (bindSym s).key = s.key := rfl
@[simp] theorem bindSym_state : (bindSym s).state = s.state := rfl
@[simp] theorem bindSym_rk : (bindSym s).rk = keyExpansion s.key := rfl
@[simp] theorem bindSym_inBuf : (bindSym s).inBuf = s.inBuf := rfl
@[simp] theorem bindSym_outBuf : (bindSym s).outBuf = s.outBuf := rfl
@[simp] theorem bindSym_x : (bindSym s).x = s.x := rfl
@[simp] theorem bindSym_pubE : (bindSym s).pubE = s.pubE := rfl
@[simp] theorem bindSym_pubN : (bindSym s).pubN = s.pubN := rfl
@[simp] theorem bindSym_privD : (bindSym s).privD = s.privD := rfl
@[simp] theorem bindSym_privN : (bindSym s).privN = s.privN := rfl
@[simp] theorem bindSym_rngPos : (bindSym s).rngPos = s.rngPos := rfl
@[simp] theorem bindSym_drawn : (bindSym s).drawn = s.drawn := rfl
@[simp] theorem bindSym_rng : (bindSym s).rng = s.rng := rfl
@[simp] theorem bindSym_inputs : (bindSym s).inputs = s.inputs := rfl
@[simp] theorem bindSym_resp : (bindSym s).resp = s.resp := rfl
@[simp] theorem bindSym_fresh : (bindSym s).fresh = s.fresh := rfl

/-! ### writeKeyPair -/

@[simp] theorem writeKeyPair_cfg (e n d : Nat) : (writeKeyPair e n d s).cfg = s.cfg := rfl
@[simp] theorem writeKeyPair_rstn (e n d : Nat) : (writeKeyPair e n d s).rstn = s.rstn := rfl
@[simp] theorem writeKeyPair_seq (e n d : Nat) : (writeKeyPair e n d s).seq = s.seq := rfl
@[simp] theorem writeKeyPair_ie (e n d : Nat) : (writeKeyPair e n d s).ie = s.ie := rfl
@[simp] theorem writeKeyPair_abortReq (e n d : Nat) : (writeKeyPair e n d s).abortReq = s.abortReq := rfl
@[simp] theorem writeKeyPair_done (e n d : Nat) : (writeKeyPair e n d s).done = s.done := rfl
@[simp] theorem writeKeyPair_wbusy (e n d : Nat) : (writeKeyPair e n d s).wbusy = s.wbusy := rfl
@[simp] theorem writeKeyPair_keyValid (e n d : Nat) : (writeKeyPair e n d s).keyValid = s.keyValid := rfl
@[simp] theorem writeKeyPair_pubValid (e n d : Nat) : (writeKeyPair e n d s).pubValid = true := rfl
@[simp] theorem writeKeyPair_privValid (e n d : Nat) : (writeKeyPair e n d s).privValid = true := rfl
@[simp] theorem writeKeyPair_prime (e n d : Nat) : (writeKeyPair e n d s).prime = s.prime := rfl
@[simp] theorem writeKeyPair_ovf (e n d : Nat) : (writeKeyPair e n d s).ovf = s.ovf := rfl
@[simp] theorem writeKeyPair_errcode (e n d : Nat) : (writeKeyPair e n d s).errcode = s.errcode := rfl
@[simp] theorem writeKeyPair_cmd (e n d : Nat) : (writeKeyPair e n d s).cmd = s.cmd := rfl
@[simp] theorem writeKeyPair_arg (e n d : Nat) : (writeKeyPair e n d s).arg = s.arg := rfl
@[simp] theorem writeKeyPair_inLen (e n d : Nat) : (writeKeyPair e n d s).inLen = s.inLen := rfl
@[simp] theorem writeKeyPair_outLen (e n d : Nat) : (writeKeyPair e n d s).outLen = s.outLen := rfl
@[simp] theorem writeKeyPair_opa (e n d : Nat) : (writeKeyPair e n d s).opa = s.opa := rfl
@[simp] theorem writeKeyPair_opb (e n d : Nat) : (writeKeyPair e n d s).opb = s.opb := rfl
@[simp] theorem writeKeyPair_res (e n d : Nat) : (writeKeyPair e n d s).res = s.res := rfl
@[simp] theorem writeKeyPair_iv (e n d : Nat) : (writeKeyPair e n d s).iv = s.iv := rfl
@[simp] theorem writeKeyPair_key (e n d : Nat) : (writeKeyPair e n d s).key = s.key := rfl
@[simp] theorem writeKeyPair_state (e n d : Nat) : (writeKeyPair e n d s).state = s.state := rfl
@[simp] theorem writeKeyPair_rk (e n d : Nat) : (writeKeyPair e n d s).rk = s.rk := rfl
@[simp] theorem writeKeyPair_inBuf (e n d : Nat) : (writeKeyPair e n d s).inBuf = s.inBuf := rfl
@[simp] theorem writeKeyPair_outBuf (e n d : Nat) : (writeKeyPair e n d s).outBuf = s.outBuf := rfl
@[simp] theorem writeKeyPair_x (e n d : Nat) : (writeKeyPair e n d s).x = s.x := rfl
@[simp] theorem writeKeyPair_pubE (e n d : Nat) : (writeKeyPair e n d s).pubE = e := rfl
@[simp] theorem writeKeyPair_pubN (e n d : Nat) : (writeKeyPair e n d s).pubN = n := rfl
@[simp] theorem writeKeyPair_privD (e n d : Nat) : (writeKeyPair e n d s).privD = d := rfl
@[simp] theorem writeKeyPair_privN (e n d : Nat) : (writeKeyPair e n d s).privN = n := rfl
@[simp] theorem writeKeyPair_rngPos (e n d : Nat) : (writeKeyPair e n d s).rngPos = s.rngPos := rfl
@[simp] theorem writeKeyPair_drawn (e n d : Nat) : (writeKeyPair e n d s).drawn = s.drawn := rfl
@[simp] theorem writeKeyPair_rng (e n d : Nat) : (writeKeyPair e n d s).rng = s.rng := rfl
@[simp] theorem writeKeyPair_inputs (e n d : Nat) : (writeKeyPair e n d s).inputs = s.inputs := rfl
@[simp] theorem writeKeyPair_resp (e n d : Nat) : (writeKeyPair e n d s).resp = s.resp := rfl
@[simp] theorem writeKeyPair_fresh (e n d : Nat) : (writeKeyPair e n d s).fresh = s.fresh := rfl

/-! ### writeStatus -/

@[simp] theorem writeStatus_cfg (v : Word) : (writeStatus v s).cfg = s.cfg := rfl
@[simp] theorem writeStatus_rstn (v : Word) : (writeStatus v s).rstn = s.rstn := rfl
@[simp] theorem writeStatus_seq (v : Word) : (writeStatus v s).seq = s.seq := rfl
@[simp] theorem writeStatus_ie (v : Word) : (writeStatus v s).ie = s.ie := rfl
@[simp] theorem writeStatus_abortReq (v : Word) : (writeStatus v s).abortReq = s.abortReq := rfl
@[simp] theorem writeStatus_done (v : Word) : (writeStatus v s).done = (s.done && !v.getLsbD 1) := rfl
@[simp] theorem writeStatus_wbusy (v : Word) : (writeStatus v s).wbusy = (s.wbusy && !v.getLsbD 2) := rfl
@[simp] theorem writeStatus_keyValid (v : Word) : (writeStatus v s).keyValid = s.keyValid := rfl
@[simp] theorem writeStatus_pubValid (v : Word) : (writeStatus v s).pubValid = s.pubValid := rfl
@[simp] theorem writeStatus_privValid (v : Word) : (writeStatus v s).privValid = s.privValid := rfl
@[simp] theorem writeStatus_prime (v : Word) : (writeStatus v s).prime = s.prime := rfl
@[simp] theorem writeStatus_ovf (v : Word) : (writeStatus v s).ovf = s.ovf := rfl
@[simp] theorem writeStatus_errcode (v : Word) : (writeStatus v s).errcode = s.errcode := rfl
@[simp] theorem writeStatus_cmd (v : Word) : (writeStatus v s).cmd = s.cmd := rfl
@[simp] theorem writeStatus_arg (v : Word) : (writeStatus v s).arg = s.arg := rfl
@[simp] theorem writeStatus_inLen (v : Word) : (writeStatus v s).inLen = s.inLen := rfl
@[simp] theorem writeStatus_outLen (v : Word) : (writeStatus v s).outLen = s.outLen := rfl
@[simp] theorem writeStatus_opa (v : Word) : (writeStatus v s).opa = s.opa := rfl
@[simp] theorem writeStatus_opb (v : Word) : (writeStatus v s).opb = s.opb := rfl
@[simp] theorem writeStatus_res (v : Word) : (writeStatus v s).res = s.res := rfl
@[simp] theorem writeStatus_iv (v : Word) : (writeStatus v s).iv = s.iv := rfl
@[simp] theorem writeStatus_key (v : Word) : (writeStatus v s).key = s.key := rfl
@[simp] theorem writeStatus_state (v : Word) : (writeStatus v s).state = s.state := rfl
@[simp] theorem writeStatus_rk (v : Word) : (writeStatus v s).rk = s.rk := rfl
@[simp] theorem writeStatus_inBuf (v : Word) : (writeStatus v s).inBuf = s.inBuf := rfl
@[simp] theorem writeStatus_outBuf (v : Word) : (writeStatus v s).outBuf = s.outBuf := rfl
@[simp] theorem writeStatus_x (v : Word) : (writeStatus v s).x = s.x := rfl
@[simp] theorem writeStatus_pubE (v : Word) : (writeStatus v s).pubE = s.pubE := rfl
@[simp] theorem writeStatus_pubN (v : Word) : (writeStatus v s).pubN = s.pubN := rfl
@[simp] theorem writeStatus_privD (v : Word) : (writeStatus v s).privD = s.privD := rfl
@[simp] theorem writeStatus_privN (v : Word) : (writeStatus v s).privN = s.privN := rfl
@[simp] theorem writeStatus_rngPos (v : Word) : (writeStatus v s).rngPos = s.rngPos := rfl
@[simp] theorem writeStatus_drawn (v : Word) : (writeStatus v s).drawn = s.drawn := rfl
@[simp] theorem writeStatus_rng (v : Word) : (writeStatus v s).rng = s.rng := rfl
@[simp] theorem writeStatus_inputs (v : Word) : (writeStatus v s).inputs = s.inputs := rfl
@[simp] theorem writeStatus_resp (v : Word) : (writeStatus v s).resp = s.resp := rfl
@[simp] theorem writeStatus_fresh (v : Word) : (writeStatus v s).fresh = s.fresh := rfl

/-! ### writeCtrl -/

@[simp] theorem writeCtrl_cfg (v : Word) : (writeCtrl v s).cfg = s.cfg := rfl
@[simp] theorem writeCtrl_rstn (v : Word) : (writeCtrl v s).rstn = s.rstn := rfl
@[simp] theorem writeCtrl_seq (v : Word) : (writeCtrl v s).seq = s.seq := rfl
@[simp] theorem writeCtrl_ie (v : Word) : (writeCtrl v s).ie = v.getLsbD 0 := rfl
@[simp] theorem writeCtrl_abortReq (v : Word) : (writeCtrl v s).abortReq = (s.abortReq || (v.getLsbD 1 && s.seq == .busy)) := rfl
@[simp] theorem writeCtrl_done (v : Word) : (writeCtrl v s).done = s.done := rfl
@[simp] theorem writeCtrl_wbusy (v : Word) : (writeCtrl v s).wbusy = s.wbusy := rfl
@[simp] theorem writeCtrl_keyValid (v : Word) : (writeCtrl v s).keyValid = s.keyValid := rfl
@[simp] theorem writeCtrl_pubValid (v : Word) : (writeCtrl v s).pubValid = s.pubValid := rfl
@[simp] theorem writeCtrl_privValid (v : Word) : (writeCtrl v s).privValid = s.privValid := rfl
@[simp] theorem writeCtrl_prime (v : Word) : (writeCtrl v s).prime = s.prime := rfl
@[simp] theorem writeCtrl_ovf (v : Word) : (writeCtrl v s).ovf = s.ovf := rfl
@[simp] theorem writeCtrl_errcode (v : Word) : (writeCtrl v s).errcode = s.errcode := rfl
@[simp] theorem writeCtrl_cmd (v : Word) : (writeCtrl v s).cmd = s.cmd := rfl
@[simp] theorem writeCtrl_arg (v : Word) : (writeCtrl v s).arg = s.arg := rfl
@[simp] theorem writeCtrl_inLen (v : Word) : (writeCtrl v s).inLen = s.inLen := rfl
@[simp] theorem writeCtrl_outLen (v : Word) : (writeCtrl v s).outLen = s.outLen := rfl
@[simp] theorem writeCtrl_opa (v : Word) : (writeCtrl v s).opa = s.opa := rfl
@[simp] theorem writeCtrl_opb (v : Word) : (writeCtrl v s).opb = s.opb := rfl
@[simp] theorem writeCtrl_res (v : Word) : (writeCtrl v s).res = s.res := rfl
@[simp] theorem writeCtrl_iv (v : Word) : (writeCtrl v s).iv = s.iv := rfl
@[simp] theorem writeCtrl_key (v : Word) : (writeCtrl v s).key = s.key := rfl
@[simp] theorem writeCtrl_state (v : Word) : (writeCtrl v s).state = s.state := rfl
@[simp] theorem writeCtrl_rk (v : Word) : (writeCtrl v s).rk = s.rk := rfl
@[simp] theorem writeCtrl_inBuf (v : Word) : (writeCtrl v s).inBuf = s.inBuf := rfl
@[simp] theorem writeCtrl_outBuf (v : Word) : (writeCtrl v s).outBuf = s.outBuf := rfl
@[simp] theorem writeCtrl_x (v : Word) : (writeCtrl v s).x = s.x := rfl
@[simp] theorem writeCtrl_pubE (v : Word) : (writeCtrl v s).pubE = s.pubE := rfl
@[simp] theorem writeCtrl_pubN (v : Word) : (writeCtrl v s).pubN = s.pubN := rfl
@[simp] theorem writeCtrl_privD (v : Word) : (writeCtrl v s).privD = s.privD := rfl
@[simp] theorem writeCtrl_privN (v : Word) : (writeCtrl v s).privN = s.privN := rfl
@[simp] theorem writeCtrl_rngPos (v : Word) : (writeCtrl v s).rngPos = s.rngPos := rfl
@[simp] theorem writeCtrl_drawn (v : Word) : (writeCtrl v s).drawn = s.drawn := rfl
@[simp] theorem writeCtrl_rng (v : Word) : (writeCtrl v s).rng = s.rng := rfl
@[simp] theorem writeCtrl_inputs (v : Word) : (writeCtrl v s).inputs = s.inputs := rfl
@[simp] theorem writeCtrl_resp (v : Word) : (writeCtrl v s).resp = s.resp := rfl
@[simp] theorem writeCtrl_fresh (v : Word) : (writeCtrl v s).fresh = s.fresh := rfl

/-! ### endInit -/

@[simp] theorem endInit_cfg : (endInit s).cfg = s.cfg := rfl
@[simp] theorem endInit_rstn : (endInit s).rstn = s.rstn := rfl
@[simp] theorem endInit_seq : (endInit s).seq = .idle := rfl
@[simp] theorem endInit_ie : (endInit s).ie = s.ie := rfl
@[simp] theorem endInit_abortReq : (endInit s).abortReq = s.abortReq := rfl
@[simp] theorem endInit_done : (endInit s).done = s.done := rfl
@[simp] theorem endInit_wbusy : (endInit s).wbusy = s.wbusy := rfl
@[simp] theorem endInit_keyValid : (endInit s).keyValid = s.keyValid := rfl
@[simp] theorem endInit_pubValid : (endInit s).pubValid = s.pubValid := rfl
@[simp] theorem endInit_privValid : (endInit s).privValid = s.privValid := rfl
@[simp] theorem endInit_prime : (endInit s).prime = s.prime := rfl
@[simp] theorem endInit_ovf : (endInit s).ovf = s.ovf := rfl
@[simp] theorem endInit_errcode : (endInit s).errcode = s.errcode := rfl
@[simp] theorem endInit_cmd : (endInit s).cmd = s.cmd := rfl
@[simp] theorem endInit_arg : (endInit s).arg = s.arg := rfl
@[simp] theorem endInit_inLen : (endInit s).inLen = s.inLen := rfl
@[simp] theorem endInit_outLen : (endInit s).outLen = s.outLen := rfl
@[simp] theorem endInit_opa : (endInit s).opa = s.opa := rfl
@[simp] theorem endInit_opb : (endInit s).opb = s.opb := rfl
@[simp] theorem endInit_res : (endInit s).res = s.res := rfl
@[simp] theorem endInit_iv : (endInit s).iv = Block.zero := rfl
@[simp] theorem endInit_key : (endInit s).key = Block.zero := rfl
@[simp] theorem endInit_state : (endInit s).state = Block.zero := rfl
@[simp] theorem endInit_rk : (endInit s).rk = RoundKeys.zero := rfl
@[simp] theorem endInit_inBuf : (endInit s).inBuf = [] := rfl
@[simp] theorem endInit_outBuf : (endInit s).outBuf = [] := rfl
@[simp] theorem endInit_x : (endInit s).x = Vector.replicate 8 0 := rfl
@[simp] theorem endInit_pubE : (endInit s).pubE = 0 := rfl
@[simp] theorem endInit_pubN : (endInit s).pubN = 0 := rfl
@[simp] theorem endInit_privD : (endInit s).privD = 0 := rfl
@[simp] theorem endInit_privN : (endInit s).privN = 0 := rfl
@[simp] theorem endInit_rngPos : (endInit s).rngPos = s.rngPos := rfl
@[simp] theorem endInit_drawn : (endInit s).drawn = s.drawn := rfl
@[simp] theorem endInit_rng : (endInit s).rng = s.rng := rfl
@[simp] theorem endInit_inputs : (endInit s).inputs = s.inputs := rfl
@[simp] theorem endInit_resp : (endInit s).resp = s.resp := rfl
@[simp] theorem endInit_fresh : (endInit s).fresh = s.fresh := rfl

/-! ### releaseReset -/

@[simp] theorem releaseReset_cfg : (releaseReset s).cfg = s.cfg := rfl
@[simp] theorem releaseReset_rstn : (releaseReset s).rstn = true := rfl
@[simp] theorem releaseReset_seq : (releaseReset s).seq = s.seq := rfl
@[simp] theorem releaseReset_ie : (releaseReset s).ie = s.ie := rfl
@[simp] theorem releaseReset_abortReq : (releaseReset s).abortReq = s.abortReq := rfl
@[simp] theorem releaseReset_done : (releaseReset s).done = s.done := rfl
@[simp] theorem releaseReset_wbusy : (releaseReset s).wbusy = s.wbusy := rfl
@[simp] theorem releaseReset_keyValid : (releaseReset s).keyValid = s.keyValid := rfl
@[simp] theorem releaseReset_pubValid : (releaseReset s).pubValid = s.pubValid := rfl
@[simp] theorem releaseReset_privValid : (releaseReset s).privValid = s.privValid := rfl
@[simp] theorem releaseReset_prime : (releaseReset s).prime = s.prime := rfl
@[simp] theorem releaseReset_ovf : (releaseReset s).ovf = s.ovf := rfl
@[simp] theorem releaseReset_errcode : (releaseReset s).errcode = s.errcode := rfl
@[simp] theorem releaseReset_cmd : (releaseReset s).cmd = s.cmd := rfl
@[simp] theorem releaseReset_arg : (releaseReset s).arg = s.arg := rfl
@[simp] theorem releaseReset_inLen : (releaseReset s).inLen = s.inLen := rfl
@[simp] theorem releaseReset_outLen : (releaseReset s).outLen = s.outLen := rfl
@[simp] theorem releaseReset_opa : (releaseReset s).opa = s.opa := rfl
@[simp] theorem releaseReset_opb : (releaseReset s).opb = s.opb := rfl
@[simp] theorem releaseReset_res : (releaseReset s).res = s.res := rfl
@[simp] theorem releaseReset_iv : (releaseReset s).iv = s.iv := rfl
@[simp] theorem releaseReset_key : (releaseReset s).key = s.key := rfl
@[simp] theorem releaseReset_state : (releaseReset s).state = s.state := rfl
@[simp] theorem releaseReset_rk : (releaseReset s).rk = s.rk := rfl
@[simp] theorem releaseReset_inBuf : (releaseReset s).inBuf = s.inBuf := rfl
@[simp] theorem releaseReset_outBuf : (releaseReset s).outBuf = s.outBuf := rfl
@[simp] theorem releaseReset_x : (releaseReset s).x = s.x := rfl
@[simp] theorem releaseReset_pubE : (releaseReset s).pubE = s.pubE := rfl
@[simp] theorem releaseReset_pubN : (releaseReset s).pubN = s.pubN := rfl
@[simp] theorem releaseReset_privD : (releaseReset s).privD = s.privD := rfl
@[simp] theorem releaseReset_privN : (releaseReset s).privN = s.privN := rfl
@[simp] theorem releaseReset_rngPos : (releaseReset s).rngPos = s.rngPos := rfl
@[simp] theorem releaseReset_drawn : (releaseReset s).drawn = s.drawn := rfl
@[simp] theorem releaseReset_rng : (releaseReset s).rng = s.rng := rfl
@[simp] theorem releaseReset_inputs : (releaseReset s).inputs = s.inputs := rfl
@[simp] theorem releaseReset_resp : (releaseReset s).resp = s.resp := rfl
@[simp] theorem releaseReset_fresh : (releaseReset s).fresh = s.fresh := rfl

/-! ### offerWord, takeWord -/

@[simp] theorem offerWord_seq (w : Word) : (offerWord w s).seq = s.seq := rfl
@[simp] theorem offerWord_ie (w : Word) : (offerWord w s).ie = s.ie := rfl
@[simp] theorem offerWord_abortReq (w : Word) : (offerWord w s).abortReq = s.abortReq := rfl
@[simp] theorem offerWord_done (w : Word) : (offerWord w s).done = s.done := rfl
@[simp] theorem offerWord_wbusy (w : Word) : (offerWord w s).wbusy = s.wbusy := rfl
@[simp] theorem offerWord_keyValid (w : Word) : (offerWord w s).keyValid = s.keyValid := rfl
@[simp] theorem offerWord_pubValid (w : Word) : (offerWord w s).pubValid = s.pubValid := rfl
@[simp] theorem offerWord_privValid (w : Word) : (offerWord w s).privValid = s.privValid := rfl
@[simp] theorem offerWord_prime (w : Word) : (offerWord w s).prime = s.prime := rfl
@[simp] theorem offerWord_ovf (w : Word) : (offerWord w s).ovf = s.ovf := rfl
@[simp] theorem offerWord_errcode (w : Word) : (offerWord w s).errcode = s.errcode := rfl
@[simp] theorem offerWord_cmd (w : Word) : (offerWord w s).cmd = s.cmd := rfl
@[simp] theorem offerWord_arg (w : Word) : (offerWord w s).arg = s.arg := rfl
@[simp] theorem offerWord_inLen (w : Word) : (offerWord w s).inLen = s.inLen := rfl
@[simp] theorem offerWord_outLen (w : Word) : (offerWord w s).outLen = s.outLen := rfl
@[simp] theorem offerWord_opa (w : Word) : (offerWord w s).opa = s.opa := rfl
@[simp] theorem offerWord_opb (w : Word) : (offerWord w s).opb = s.opb := rfl
@[simp] theorem offerWord_res (w : Word) : (offerWord w s).res = s.res := rfl
@[simp] theorem offerWord_iv (w : Word) : (offerWord w s).iv = s.iv := rfl
@[simp] theorem offerWord_key (w : Word) : (offerWord w s).key = s.key := rfl
@[simp] theorem offerWord_state (w : Word) : (offerWord w s).state = s.state := rfl
@[simp] theorem offerWord_rk (w : Word) : (offerWord w s).rk = s.rk := rfl
@[simp] theorem offerWord_inBuf (w : Word) : (offerWord w s).inBuf = s.inBuf := rfl
@[simp] theorem offerWord_outBuf (w : Word) : (offerWord w s).outBuf = s.outBuf := rfl
@[simp] theorem offerWord_x (w : Word) : (offerWord w s).x = s.x := rfl
@[simp] theorem offerWord_pubE (w : Word) : (offerWord w s).pubE = s.pubE := rfl
@[simp] theorem offerWord_pubN (w : Word) : (offerWord w s).pubN = s.pubN := rfl
@[simp] theorem offerWord_privD (w : Word) : (offerWord w s).privD = s.privD := rfl
@[simp] theorem offerWord_privN (w : Word) : (offerWord w s).privN = s.privN := rfl
@[simp] theorem offerWord_rngPos (w : Word) : (offerWord w s).rngPos = s.rngPos := rfl
@[simp] theorem offerWord_drawn (w : Word) : (offerWord w s).drawn = s.drawn := rfl
@[simp] theorem offerWord_rstn (w : Word) : (offerWord w s).rstn = s.rstn := rfl
@[simp] theorem offerWord_rng (w : Word) : (offerWord w s).rng = s.rng ++ [w] := rfl
@[simp] theorem offerWord_inputs (w : Word) : (offerWord w s).inputs = s.inputs := rfl
@[simp] theorem offerWord_resp (w : Word) : (offerWord w s).resp = s.resp := rfl
@[simp] theorem offerWord_fresh (w : Word) : (offerWord w s).fresh = s.fresh := rfl
@[simp] theorem offerWord_cfg (w : Word) : (offerWord w s).cfg = s.cfg := rfl

@[simp] theorem takeWord_seq (w : Word) (ws : List Word) : (takeWord w ws s).seq = s.seq := rfl
@[simp] theorem takeWord_ie (w : Word) (ws : List Word) : (takeWord w ws s).ie = s.ie := rfl
@[simp] theorem takeWord_abortReq (w : Word) (ws : List Word) : (takeWord w ws s).abortReq = s.abortReq := rfl
@[simp] theorem takeWord_done (w : Word) (ws : List Word) : (takeWord w ws s).done = s.done := rfl
@[simp] theorem takeWord_wbusy (w : Word) (ws : List Word) : (takeWord w ws s).wbusy = s.wbusy := rfl
@[simp] theorem takeWord_keyValid (w : Word) (ws : List Word) : (takeWord w ws s).keyValid = s.keyValid := rfl
@[simp] theorem takeWord_pubValid (w : Word) (ws : List Word) : (takeWord w ws s).pubValid = s.pubValid := rfl
@[simp] theorem takeWord_privValid (w : Word) (ws : List Word) : (takeWord w ws s).privValid = s.privValid := rfl
@[simp] theorem takeWord_prime (w : Word) (ws : List Word) : (takeWord w ws s).prime = s.prime := rfl
@[simp] theorem takeWord_ovf (w : Word) (ws : List Word) : (takeWord w ws s).ovf = s.ovf := rfl
@[simp] theorem takeWord_errcode (w : Word) (ws : List Word) : (takeWord w ws s).errcode = s.errcode := rfl
@[simp] theorem takeWord_cmd (w : Word) (ws : List Word) : (takeWord w ws s).cmd = s.cmd := rfl
@[simp] theorem takeWord_arg (w : Word) (ws : List Word) : (takeWord w ws s).arg = s.arg := rfl
@[simp] theorem takeWord_inLen (w : Word) (ws : List Word) : (takeWord w ws s).inLen = s.inLen := rfl
@[simp] theorem takeWord_outLen (w : Word) (ws : List Word) : (takeWord w ws s).outLen = s.outLen := rfl
@[simp] theorem takeWord_opa (w : Word) (ws : List Word) : (takeWord w ws s).opa = s.opa := rfl
@[simp] theorem takeWord_opb (w : Word) (ws : List Word) : (takeWord w ws s).opb = s.opb := rfl
@[simp] theorem takeWord_res (w : Word) (ws : List Word) : (takeWord w ws s).res = s.res := rfl
@[simp] theorem takeWord_iv (w : Word) (ws : List Word) : (takeWord w ws s).iv = s.iv := rfl
@[simp] theorem takeWord_key (w : Word) (ws : List Word) : (takeWord w ws s).key = s.key := rfl
@[simp] theorem takeWord_state (w : Word) (ws : List Word) : (takeWord w ws s).state = s.state := rfl
@[simp] theorem takeWord_rk (w : Word) (ws : List Word) : (takeWord w ws s).rk = s.rk := rfl
@[simp] theorem takeWord_inBuf (w : Word) (ws : List Word) : (takeWord w ws s).inBuf = s.inBuf := rfl
@[simp] theorem takeWord_outBuf (w : Word) (ws : List Word) : (takeWord w ws s).outBuf = s.outBuf := rfl
@[simp] theorem takeWord_x (w : Word) (ws : List Word) : (takeWord w ws s).x = s.x := rfl
@[simp] theorem takeWord_pubE (w : Word) (ws : List Word) : (takeWord w ws s).pubE = s.pubE := rfl
@[simp] theorem takeWord_pubN (w : Word) (ws : List Word) : (takeWord w ws s).pubN = s.pubN := rfl
@[simp] theorem takeWord_privD (w : Word) (ws : List Word) : (takeWord w ws s).privD = s.privD := rfl
@[simp] theorem takeWord_privN (w : Word) (ws : List Word) : (takeWord w ws s).privN = s.privN := rfl
@[simp] theorem takeWord_rngPos (w : Word) (ws : List Word) : (takeWord w ws s).rngPos = s.rngPos + 1 := rfl
@[simp] theorem takeWord_drawn (w : Word) (ws : List Word) : (takeWord w ws s).drawn = s.drawn ++ [w] := rfl
@[simp] theorem takeWord_rstn (w : Word) (ws : List Word) : (takeWord w ws s).rstn = s.rstn := rfl
@[simp] theorem takeWord_rng (w : Word) (ws : List Word) : (takeWord w ws s).rng = ws := rfl
@[simp] theorem takeWord_inputs (w : Word) (ws : List Word) : (takeWord w ws s).inputs = s.inputs := rfl
@[simp] theorem takeWord_resp (w : Word) (ws : List Word) : (takeWord w ws s).resp = s.resp := rfl
@[simp] theorem takeWord_fresh (w : Word) (ws : List Word) : (takeWord w ws s).fresh = s.fresh := rfl
@[simp] theorem takeWord_cfg (w : Word) (ws : List Word) : (takeWord w ws s).cfg = s.cfg := rfl

end Sys2Proof.Laws
end

