-- ==== Sys2Proof/Laws/Draw.lean ====
section
/-! SUPPORT. The random words of a command: what `withDraws` can do, and that every drawing part is local, that is, it looks at
no word it does not take. -/

namespace Sys2Proof.Laws

open Sys2Proof.Machine

/-- Everything `withDraws` can do: abort, go on after its last abort point, wait, or go on with words taken. -/
theorem withDraws_cases {α : Type} {p : Draw α} {onAbort : State → Host.Outcome State Fault Refusal}
    {k : α → State → Host.Outcome State Fault Refusal} {s : State} {o : Host.Outcome State Fault Refusal}
    (h : withDraws p onAbort k s = o) :
    (s.abortReq = true ∧ p s.drawn = none ∧ o = onAbort s) ∨
    (∃ v rest, s.abortReq = true ∧ p s.drawn = some (v, rest) ∧ o = k v s) ∨
    (s.abortReq = false ∧ p (s.drawn ++ s.rng) = none ∧ o = .next (waitForWord s)) ∨
    (∃ v rest, s.abortReq = false ∧ p (s.drawn ++ s.rng) = some (v, rest) ∧ o = k v (takeAllBut rest s)) := by
  subst h
  unfold withDraws
  cases ha : s.abortReq
  · cases hp : p (s.drawn ++ s.rng) with
    | none => exact .inr (.inr (.inl ⟨rfl, rfl, rfl⟩))
    | some r => exact .inr (.inr (.inr ⟨r.1, r.2, rfl, rfl, rfl⟩))
  · cases hp : p s.drawn with
    | none => exact .inl ⟨rfl, rfl, rfl⟩
    | some r => exact .inr (.inl ⟨r.1, r.2, rfl, rfl, rfl⟩)

/-- A drawing part takes a beginning of the words, and what it takes alone decides its value. -/
def DrawLocal {α : Type} (p : Draw α) : Prop :=
  ∀ ws v rest, p ws = some (v, rest) → ∃ used, ws = used ++ rest ∧ ∀ more, p (used ++ more) = some (v, more)

theorem drawWords_eq (n : Nat) : ∀ ws : List Word,
    drawWords n ws = if n ≤ ws.length then some (ws.take n, ws.drop n) else none := by
  induction n with
  | zero => intro ws; simp [drawWords]
  | succ n ih =>
    intro ws
    cases ws with
    | nil => simp [drawWords]
    | cons w ws =>
      simp only [drawWords, ih, List.length_cons, Nat.add_le_add_iff_right]
      split <;> simp_all

theorem drawWords_some {n : Nat} {ws vs rest : List Word} (h : drawWords n ws = some (vs, rest)) :
    vs.length = n ∧ ws = vs ++ rest := by
  rw [drawWords_eq] at h
  split at h
  · simp only [Option.some.injEq, Prod.mk.injEq] at h
    obtain ⟨rfl, rfl⟩ := h
    exact ⟨by simpa, by simp⟩
  · cases h

theorem drawWords_append {n : Nat} {vs rest : List Word} (h : vs.length = n) :
    drawWords n (vs ++ rest) = some (vs, rest) := by
  rw [drawWords_eq, if_pos (by simp; omega), ← h]
  simp

theorem drawWords_none {n : Nat} {ws : List Word} : drawWords n ws = none ↔ ws.length < n := by
  rw [drawWords_eq]
  split <;> simp <;> omega

theorem local_drawWords (n : Nat) : DrawLocal (drawWords n) := by
  intro ws v rest h
  obtain ⟨hl, rfl⟩ := drawWords_some h
  exact ⟨v, rfl, fun more => drawWords_append hl⟩

/-- A local part that waits on `a` takes, when more words come, nothing back. -/
theorem DrawLocal.rest_le {α : Type} {p : Draw α} (hp : DrawLocal p) {a b rest : List Word} {v : α}
    (ha : p a = none) (hab : p (a ++ b) = some (v, rest)) : rest.length ≤ b.length := by
  obtain ⟨used, he, hm⟩ := hp _ _ _ hab
  by_contra hlt
  have hl := congrArg List.length he
  simp only [List.length_append] at hl
  have : used = a.take used.length := by
    have := congrArg (List.take used.length) he
    rw [List.take_append_of_le_length (by omega)] at this
    simpa using this.symm
  have ha' : p a = some (v, a.drop used.length) := by
    conv_lhs => rw [← List.take_append_drop used.length a]
    rw [← this]
    exact hm _
  rw [ha] at ha'
  cases ha'

theorem local_randBase (n w : Nat) : DrawLocal (randBase n w) := by
  intro ws v rest h
  unfold randBase at h
  cases hd : drawWords w ws with
  | none => simp [hd] at h
  | some r =>
    obtain ⟨vs, r⟩ := r
    simp only [hd, Option.some.injEq, Prod.mk.injEq] at h
    obtain ⟨rfl, rfl⟩ := h
    obtain ⟨used, hu, hm⟩ := local_drawWords _ _ _ _ hd
    exact ⟨used, hu, fun more => by simp [randBase, hm more]⟩

theorem local_millerRabinRounds (k s t n w : Nat) : DrawLocal (millerRabinRounds k s t n w) := by
  induction k with
  | zero =>
    intro ws v rest h
    simp only [millerRabinRounds, Option.some.injEq, Prod.mk.injEq] at h
    obtain ⟨rfl, rfl⟩ := h
    exact ⟨[], rfl, fun more => rfl⟩
  | succ k ih =>
    intro ws v rest h
    simp only [millerRabinRounds] at h
    cases hd : randBase n w ws with
    | none => simp [hd] at h
    | some r =>
      obtain ⟨base, r⟩ := r
      simp only [hd] at h
      obtain ⟨used, hu, hm⟩ := local_randBase _ _ _ _ _ hd
      split at h
      · next hr =>
        obtain ⟨used', hu', hm'⟩ := ih _ _ _ h
        exact ⟨used ++ used', by rw [hu, hu']; simp, fun more => by
          simp only [millerRabinRounds, List.append_assoc, hm, if_pos hr, hm']⟩
      · next hr =>
        simp only [Option.some.injEq, Prod.mk.injEq] at h
        obtain ⟨rfl, rfl⟩ := h
        exact ⟨used, hu, fun more => by simp only [millerRabinRounds, hm, if_neg hr]⟩

theorem local_millerRabin (rounds n : Nat) : DrawLocal (millerRabin rounds n) := by
  intro ws v rest h
  unfold millerRabin at h
  split at h
  · next h1 =>
    simp only [Option.some.injEq, Prod.mk.injEq] at h
    obtain ⟨rfl, rfl⟩ := h
    exact ⟨[], rfl, fun more => by simp [millerRabin, h1]⟩
  · next h1 =>
    split at h
    · next h2 =>
      simp only [Option.some.injEq, Prod.mk.injEq] at h
      obtain ⟨rfl, rfl⟩ := h
      exact ⟨[], rfl, fun more => by simp [millerRabin, h1, h2]⟩
    · next h2 =>
      split at h
      · next h3 =>
        simp only [Option.some.injEq, Prod.mk.injEq] at h
        obtain ⟨rfl, rfl⟩ := h
        exact ⟨[], rfl, fun more => by simp [millerRabin, h1, h2, h3]⟩
      · next h3 =>
        obtain ⟨used, hu, hm⟩ := local_millerRabinRounds _ _ _ _ _ _ _ _ h
        exact ⟨used, hu, fun more => by simp only [millerRabin, if_neg h1, if_neg h2, if_neg h3, hm]⟩

theorem local_randPrimeLoop (fuel rounds bits : Nat) : DrawLocal (randPrimeLoop fuel rounds bits) := by
  induction fuel with
  | zero => intro ws v rest h; simp [randPrimeLoop] at h
  | succ fuel ih =>
    intro ws v rest h
    simp only [randPrimeLoop] at h
    cases hd : drawWords (ceilDiv bits 32) ws with
    | none => simp [hd] at h
    | some r =>
      obtain ⟨vs, r⟩ := r
      simp only [hd] at h
      obtain ⟨used, hu, hm⟩ := local_drawWords _ _ _ _ hd
      cases hr : millerRabin rounds (primeCandidate bits (natOfWords vs)) r with
      | none => simp [hr] at h
      | some q =>
        obtain ⟨b, r'⟩ := q
        obtain ⟨used', hu', hm'⟩ := local_millerRabin _ _ _ _ _ hr
        cases b with
        | true =>
          simp only [hr, Option.some.injEq, Prod.mk.injEq] at h
          obtain ⟨rfl, rfl⟩ := h
          exact ⟨used ++ used', by rw [hu, hu']; simp, fun more => by
            simp only [randPrimeLoop, List.append_assoc, hm, hm']⟩
        | false =>
          simp only [hr] at h
          obtain ⟨used'', hu'', hm''⟩ := ih _ _ _ h
          exact ⟨used ++ (used' ++ used''), by rw [hu, hu', hu'']; simp, fun more => by
            simp only [randPrimeLoop, List.append_assoc, hm, hm', hm'']⟩

/-- What is left after a local part is no longer than what there was. -/
theorem DrawLocal.length_le {α : Type} {p : Draw α} (hp : DrawLocal p) {ws rest : List Word} {v : α}
    (h : p ws = some (v, rest)) : rest.length ≤ ws.length := by
  obtain ⟨used, rfl, -⟩ := hp _ _ _ h
  simp

theorem ceilDiv_pos {bits : Nat} (h : 0 < bits) : 0 < ceilDiv bits 32 := by
  unfold ceilDiv; omega

/-- A prime found with some fuel is found with every fuel above the number of words. -/
theorem randPrimeLoop_fuel {rounds bits : Nat} (hb : 0 < bits) : ∀ {fuel fuel' : Nat} {ws : List Word} {r : Nat × List Word},
    randPrimeLoop fuel rounds bits ws = some r → ws.length < fuel' → randPrimeLoop fuel' rounds bits ws = some r := by
  intro fuel
  induction fuel with
  | zero => intro fuel' ws r h _; simp [randPrimeLoop] at h
  | succ fuel ih =>
    intro fuel' ws r h hf
    obtain ⟨g, rfl⟩ : ∃ g, fuel' = g + 1 := ⟨fuel' - 1, by omega⟩
    simp only [randPrimeLoop] at h ⊢
    cases hd : drawWords (ceilDiv bits 32) ws with
    | none => simp [hd] at h
    | some q =>
      obtain ⟨vs, rest⟩ := q
      obtain ⟨hl, rfl⟩ := drawWords_some hd
      have := ceilDiv_pos hb
      simp only [List.length_append] at hf
      simp only [hd] at h ⊢
      cases hr : millerRabin rounds (primeCandidate bits (natOfWords vs)) rest with
      | none => simp [hr] at h
      | some q =>
        obtain ⟨b, rest'⟩ := q
        have := (local_millerRabin _ _).length_le hr
        cases b with
        | true => simpa [hr] using h
        | false =>
          simp only [hr] at h ⊢
          exact ih h (by omega)

theorem local_randPrime (rounds : Nat) {bits : Nat} (hb : 0 < bits) : DrawLocal (randPrime rounds bits) := by
  intro ws v rest h
  obtain ⟨used, hu, hm⟩ := local_randPrimeLoop _ _ _ _ _ _ h
  exact ⟨used, hu, fun more => randPrimeLoop_fuel hb (hm more) (by omega)⟩

theorem local_drawPrimePair (rounds : Nat) {bits : Nat} (hb : 0 < bits) : DrawLocal (drawPrimePair rounds bits) := by
  intro ws v rest h
  unfold drawPrimePair at h
  cases hp : randPrime rounds bits ws with
  | none => simp [hp] at h
  | some r =>
    obtain ⟨p, r⟩ := r
    simp only [hp] at h
    obtain ⟨used, hu, hm⟩ := local_randPrime _ hb _ _ _ hp
    cases hq : randPrime rounds bits r with
    | none => simp [hq] at h
    | some q =>
      obtain ⟨q, r'⟩ := q
      obtain ⟨used', hu', hm'⟩ := local_randPrime _ hb _ _ _ hq
      simp only [hq, Option.some.injEq, Prod.mk.injEq] at h
      obtain ⟨rfl, rfl⟩ := h
      exact ⟨used ++ used', by rw [hu, hu']; simp, fun more => by
        simp only [drawPrimePair, List.append_assoc, hm, hm']⟩

/-- The prime a search finds is one of its candidates. -/
theorem randPrimeLoop_candidate {rounds bits : Nat} : ∀ {fuel : Nat} {ws rest : List Word} {p : Nat},
    randPrimeLoop fuel rounds bits ws = some (p, rest) → ∃ v, p = primeCandidate bits v := by
  intro fuel
  induction fuel with
  | zero => intro ws rest p h; simp [randPrimeLoop] at h
  | succ fuel ih =>
    intro ws rest p h
    simp only [randPrimeLoop] at h
    split at h
    · cases h
    · split at h
      · cases h
      · simp only [Option.some.injEq, Prod.mk.injEq] at h
        exact ⟨_, h.1.symm⟩
      · exact ih h

theorem randPrime_candidate {rounds bits : Nat} {ws rest : List Word} {p : Nat}
    (h : randPrime rounds bits ws = some (p, rest)) : ∃ v, p = primeCandidate bits v := randPrimeLoop_candidate h

theorem drawPrimePair_candidates {rounds bits : Nat} {ws rest : List Word} {p q : Nat}
    (h : drawPrimePair rounds bits ws = some ((p, q), rest)) :
    (∃ v, p = primeCandidate bits v) ∧ ∃ v, q = primeCandidate bits v := by
  unfold drawPrimePair at h
  cases hp : randPrime rounds bits ws with
  | none => simp [hp] at h
  | some r =>
    simp only [hp] at h
    cases hq : randPrime rounds bits r.2 with
    | none => simp [hq] at h
    | some q' =>
      simp only [hq, Option.some.injEq, Prod.mk.injEq] at h
      obtain ⟨⟨rfl, rfl⟩, -⟩ := h
      exact ⟨randPrime_candidate hp, randPrime_candidate hq⟩

end Sys2Proof.Laws
end

