-- ==== Sys2Proof/Laws/BigInt.lean ====
section
/-! SUPPORT. The big-integer arithmetic: exponentiation and inverse give what 45_bigint.md R212, R213 define, the shape of a
prime candidate (R217), and that Miller–Rabin passes every prime (R214). -/

namespace Sys2Proof.Laws

open Sys2Proof.Machine

theorem lt_two_pow_bitlen (v : Nat) : v < 2 ^ bitlen v := by
  unfold bitlen
  split
  · next h => simp [h]
  · exact Nat.lt_log2_self

theorem powModLoop_lt : ∀ {n base e m acc : Nat}, acc < m → powModLoop n base e m acc < m := by
  intro n
  induction n with
  | zero => intro base e m acc h; exact h
  | succ n ih =>
    intro base e m acc h
    simp only [powModLoop]
    apply ih
    split
    · exact Nat.mod_lt _ (by omega)
    · exact h

theorem powModLoop_modEq (m : Nat) : ∀ (n base e acc : Nat), e < 2 ^ n →
    powModLoop n base e m acc ≡ acc * base ^ e [MOD m] := by
  intro n
  induction n with
  | zero =>
    intro base e acc h
    obtain rfl : e = 0 := by simpa using h
    simpa [powModLoop] using Nat.ModEq.refl acc
  | succ n ih =>
    intro base e acc h
    simp only [powModLoop]
    have he : e / 2 < 2 ^ n := by rw [pow_succ] at h; omega
    have hb : (base * base % m) ^ (e / 2) ≡ (base * base) ^ (e / 2) [MOD m] := (Nat.mod_modEq _ _).pow _
    refine (ih _ _ _ he).trans ?_
    have hpow : base ^ e = (base * base) ^ (e / 2) * base ^ (e % 2) := by
      rw [← pow_two, ← pow_mul, ← pow_add, Nat.div_add_mod]
    split
    · next h1 =>
      rw [hpow, h1, pow_one, show acc * ((base * base) ^ (e / 2) * base) = acc * base * (base * base) ^ (e / 2) by ring]
      exact (Nat.mod_modEq _ _).mul hb
    · next h1 =>
      rw [hpow, show e % 2 = 0 by omega, pow_zero, mul_one]
      exact (Nat.ModEq.refl acc).mul hb

/-- Modular exponentiation gives `base^e mod m` (45_bigint.md R212). -/
theorem powMod_eq {base e m : Nat} (hm : 0 < m) : powMod base e m = base ^ e % m := by
  have h := powModLoop_modEq m (bitlen e) (base % m) e (1 % m) (lt_two_pow_bitlen e)
  have h2 : (1 % m) * (base % m) ^ e ≡ base ^ e [MOD m] := by
    simpa using (Nat.mod_modEq 1 m).mul ((Nat.mod_modEq base m).pow e)
  have h3 := h.trans h2
  rw [← Nat.mod_eq_of_lt (a := powMod base e m) (b := m) (powModLoop_lt (Nat.mod_lt _ hm))]
  exact h3

theorem powMod_lt {base e m : Nat} (hm : 0 < m) : powMod base e m < m := by
  rw [powMod_eq hm]; exact Nat.mod_lt _ hm

theorem invModLoop_lt {m : Nat} : ∀ {n r0 r1 y0 y1 : Nat}, y0 < m → y1 < m → invModLoop n r0 r1 y0 y1 m < m := by
  intro n
  induction n with
  | zero => intro r0 r1 y0 y1 h _; exact h
  | succ n ih =>
    intro r0 r1 y0 y1 h h1
    simp only [invModLoop]
    split
    · exact h
    · exact ih h1 (Nat.mod_lt _ (by omega))

theorem invModLoop_spec {m v : Nat} (hm : 0 < m) : ∀ {n r0 r1 y0 y1 : Nat}, r1 < n → (y0 : ZMod m) * v = r0 →
    (y1 : ZMod m) * v = r1 → (invModLoop n r0 r1 y0 y1 m : ZMod m) * v = (Nat.gcd r0 r1 : Nat) := by
  intro n
  induction n with
  | zero => intro r0 r1 y0 y1 h; omega
  | succ n ih =>
    intro r0 r1 y0 y1 hn h0 h1
    simp only [invModLoop]
    split
    · next hr => subst hr; simpa using h0
    · next hr =>
      rw [Nat.gcd_comm r0 r1, Nat.gcd_rec r1 r0, Nat.gcd_comm (r0 % r1) r1]
      apply ih (lt_of_lt_of_le (Nat.mod_lt _ (by omega)) (by omega)) h1
      have hq : ((m - r0 / r1 % m : Nat) : ZMod m) = -((r0 / r1 : Nat) : ZMod m) := by
        rw [Nat.cast_sub (Nat.mod_lt _ hm).le, ZMod.natCast_self, ZMod.natCast_mod, zero_sub]
      have hr0 : (r0 : ZMod m) = r1 * (r0 / r1 : Nat) + (r0 % r1 : Nat) := by
        rw [← Nat.cast_mul, ← Nat.cast_add, Nat.div_add_mod]
      rw [ZMod.natCast_mod, Nat.cast_add, Nat.cast_mul, hq, add_mul, h0, hr0]
      linear_combination -((r0 / r1 : Nat) : ZMod m) * h1

theorem invMod_lt {v m : Nat} (hm : 0 < m) : invMod v m < m := invModLoop_lt hm (Nat.mod_lt _ hm)

/-- The inverse is an inverse (45_bigint.md R213). -/
theorem invMod_mul {v m : Nat} (hm : 0 < m) (h : Nat.gcd v m = 1) : v * invMod v m % m = 1 % m := by
  have hs := invModLoop_spec (m := m) (v := v) hm (n := v % m + 2) (r0 := m) (r1 := v % m) (y0 := 0) (y1 := 1 % m)
    (by omega) (by simp) (by simp [ZMod.natCast_mod])
  rw [show Nat.gcd m (v % m) = 1 by rw [Nat.gcd_comm, ← Nat.gcd_rec, Nat.gcd_comm]; exact h] at hs
  have : ((v * invMod v m : Nat) : ZMod m) = ((1 : Nat) : ZMod m) := by
    rw [Nat.cast_mul, mul_comm]; exact hs
  exact (ZMod.natCast_eq_natCast_iff _ _ _).1 this

/-- It is the only one below m. -/
theorem eq_invMod {v m y : Nat} (hm : 0 < m) (h : Nat.gcd v m = 1) (hy : y < m) (he : v * y % m = 1 % m) :
    y = invMod v m := by
  have h2 : v * y ≡ v * invMod v m [MOD m] := he.trans (invMod_mul hm h).symm
  have h3 : y ≡ invMod v m [MOD m] := Nat.ModEq.cancel_left_of_coprime (by rw [Nat.gcd_comm]; exact h) h2
  rwa [Nat.ModEq, Nat.mod_eq_of_lt hy, Nat.mod_eq_of_lt (invMod_lt hm)] at h3

/-! ### Prime candidates (45_bigint.md R217) -/

theorem primeCandidate_lt {bits : Nat} (hb : 1 ≤ bits) (v : Nat) : primeCandidate bits v < 2 ^ bits := by
  unfold primeCandidate
  apply Nat.or_lt_two_pow
  · apply Nat.or_lt_two_pow
    · exact Nat.mod_lt _ (by positivity)
    · exact Nat.pow_lt_pow_right (by omega) (by omega)
  · exact Nat.one_lt_two_pow (by omega)

theorem le_primeCandidate (bits v : Nat) : 2 ^ (bits - 1) ≤ primeCandidate bits v := by
  unfold primeCandidate
  exact (Nat.right_le_or).trans Nat.left_le_or

theorem primeCandidate_odd (bits v : Nat) : primeCandidate bits v % 2 = 1 := by
  simp [primeCandidate]

/-! ### Miller–Rabin (45_bigint.md R214) -/

theorem splitTwos_spec : ∀ {fuel v : Nat}, 0 < v → v < 2 ^ fuel →
    v = 2 ^ (splitTwos fuel v).1 * (splitTwos fuel v).2 ∧ (splitTwos fuel v).2 % 2 = 1 := by
  intro fuel
  induction fuel with
  | zero => intro v h0 h; simp at h; omega
  | succ fuel ih =>
    intro v h0 h
    simp only [splitTwos]
    split
    · next h1 => exact ⟨by simp, h1⟩
    · next h1 =>
      have := ih (v := v / 2) (by omega) (by rw [pow_succ] at h; omega)
      refine ⟨?_, this.2⟩
      rw [pow_succ, mul_right_comm, ← this.1]
      omega

theorem squaringsReach_of {n : Nat} : ∀ {k x j : Nat}, 1 ≤ j → j ≤ k → x ^ 2 ^ j % n = n - 1 →
    squaringsReach k x n = true := by
  intro k
  induction k with
  | zero => intro x j h1 h2; omega
  | succ k ih =>
    intro x j h1 h2 h
    simp only [squaringsReach]
    split
    · rfl
    · next hne =>
      rcases Nat.lt_or_ge 1 j with hj | hj
      · apply ih (j := j - 1) (by omega) (by omega)
        rw [← h, ← Nat.pow_mod, ← pow_two, ← pow_mul, ← pow_succ', Nat.sub_add_cancel h1]
      · obtain rfl : j = 1 := by omega
        rw [pow_one, pow_two] at h
        exact absurd h hne

theorem eq_one_or_neg_one {p : Nat} [Fact p.Prime] {z : ZMod p} (h : z ^ 2 = 1) : z = 1 ∨ z = -1 := by
  have : (z - 1) * (z + 1) = 0 := by linear_combination h
  rcases mul_eq_zero.1 this with h | h
  · exact .inl (by linear_combination h)
  · exact .inr (by linear_combination h)

/-- In a field of prime order, a root of one by repeated squaring is one or passes through minus one. -/
theorem one_or_neg_one_of_pow {p : Nat} [Fact p.Prime] (s : Nat) : ∀ y : ZMod p, y ^ 2 ^ s = 1 →
    y = 1 ∨ ∃ j, j < s ∧ y ^ 2 ^ j = -1 := by
  induction s with
  | zero => intro y h; exact .inl (by simpa using h)
  | succ s ih =>
    intro y h
    rw [pow_succ, pow_mul] at h
    rcases eq_one_or_neg_one h with h | h
    · exact (ih y h).imp id fun ⟨j, hj, he⟩ => ⟨j, by omega, he⟩
    · exact .inr ⟨s, by omega, h⟩

theorem natCast_eq_neg_one_mod {p x : Nat} (hp : 2 ≤ p) (h : (x : ZMod p) = -1) : x % p = p - 1 := by
  have h2 : ((x : Nat) : ZMod p) = ((p - 1 : Nat) : ZMod p) := by
    rw [h, Nat.cast_sub (by omega), ZMod.natCast_self]; simp
  have := (ZMod.natCast_eq_natCast_iff _ _ _).1 h2
  rwa [Nat.ModEq, Nat.mod_eq_of_lt (by omega : p - 1 < p)] at this

/-- Every prime passes every round. -/
theorem roundPasses_of_prime {p s t base : Nat} (hp : p.Prime) (hst : p - 1 = 2 ^ s * t) (hb : 0 < base) (hbp : base < p) :
    roundPasses base s t p = true := by
  have hfact : Fact p.Prime := ⟨hp⟩
  have hb0 : (base : ZMod p) ≠ 0 := by
    intro h
    rw [ZMod.natCast_eq_zero_iff] at h
    exact absurd (Nat.le_of_dvd hb h) (by omega)
  have hfermat : ((base : ZMod p) ^ t) ^ 2 ^ s = 1 := by
    rw [← pow_mul, mul_comm, ← hst]
    exact ZMod.pow_card_sub_one_eq_one hb0
  have hp2 := hp.two_le
  have hx : powMod base t p = base ^ t % p := powMod_eq (by omega)
  have hxc : ((powMod base t p : Nat) : ZMod p) = (base : ZMod p) ^ t := by
    rw [hx, ZMod.natCast_mod, Nat.cast_pow]
  have hxlt : powMod base t p < p := powMod_lt (by omega)
  unfold roundPasses
  rcases one_or_neg_one_of_pow _ _ hfermat with h | ⟨j, hj, he⟩
  · have h1 : ((powMod base t p : Nat) : ZMod p) = ((1 : Nat) : ZMod p) := by rw [hxc, h]; simp
    have := (ZMod.natCast_eq_natCast_iff _ _ _).1 h1
    rw [Nat.ModEq, Nat.mod_eq_of_lt hxlt, Nat.mod_eq_of_lt (by omega : 1 < p)] at this
    simp [this]
  · rcases Nat.eq_zero_or_pos j with rfl | hj0
    · have h1 : ((powMod base t p : Nat) : ZMod p) = -1 := by rw [hxc]; simpa using he
      have := natCast_eq_neg_one_mod hp2 h1
      rw [Nat.mod_eq_of_lt hxlt] at this
      simp [this]
    · have h1 : (((powMod base t p) ^ 2 ^ j : Nat) : ZMod p) = -1 := by rw [Nat.cast_pow, hxc]; exact he
      have := natCast_eq_neg_one_mod hp2 h1
      simp [squaringsReach_of (k := s - 1) hj0 (by omega) this]

theorem millerRabinRounds_prime {p s t : Nat} (hp : p.Prime) (h5 : 5 ≤ p) (hst : p - 1 = 2 ^ s * t) (w : Nat) :
    ∀ (rounds : Nat) (us rest : List Word), us.length = rounds * w →
      millerRabinRounds rounds s t p w (us ++ rest) = some (true, rest) := by
  intro rounds
  induction rounds with
  | zero =>
    intro us rest h
    obtain rfl : us = [] := by simpa using h
    rfl
  | succ k ih =>
    intro us rest h
    have hsplit : us = us.take w ++ us.drop w := (List.take_append_drop _ _).symm
    have hlen : (us.take w).length = w := by simp; nlinarith
    have hd : randBase p w (us ++ rest) = some (2 + natOfWords (us.take w) % (p - 3), us.drop w ++ rest) := by
      unfold randBase
      rw [hsplit, List.append_assoc, drawWords_append hlen]
      simp
    have hpass : roundPasses (2 + natOfWords (us.take w) % (p - 3)) s t p = true := by
      apply roundPasses_of_prime hp hst (by omega)
      have := Nat.mod_lt (natOfWords (us.take w)) (show 0 < p - 3 by omega)
      omega
    simp only [millerRabinRounds, hd, hpass, if_true]
    exact ih _ _ (by simp [h]; ring_nf; omega)

/-- A prime is reported prime as soon as its words are there (45_bigint.md R214). -/
theorem millerRabin_prime {p rounds : Nat} (hp : p.Prime) {us : List Word} (rest : List Word)
    (h : us.length = primeTestWords rounds p) : millerRabin rounds p (us ++ rest) = some (true, rest) := by
  have h2 := hp.two_le
  unfold primeTestWords at h
  unfold millerRabin
  rw [if_neg (by omega)]
  split at h
  · next h3 =>
    obtain rfl : us = [] := by simpa using h
    rw [if_pos (by omega)]
    rfl
  · next h3 =>
    have hodd : p % 2 = 1 := by
      rcases hp.eq_two_or_odd with h | h
      · omega
      · exact h
    rw [if_neg (by omega), if_neg (by omega)]
    have hs := splitTwos_spec (fuel := bitlen (p - 1)) (v := p - 1) (by omega) (lt_two_pow_bitlen _)
    exact millerRabinRounds_prime hp (by omega) hs.1 _ _ _ _ h

/-- A prime is never reported composite (45_bigint.md R214). -/
theorem millerRabin_prime_true {p rounds : Nat} (hp : p.Prime) {ws rest : List Word} {b : Bool}
    (h : millerRabin rounds p ws = some (b, rest)) : b = true := by
  obtain ⟨used, hu, hm⟩ := local_millerRabin _ _ _ _ _ h
  have h1 := hm (List.replicate (primeTestWords rounds p) 0)
  have key : ∀ n, ∃ r, millerRabin rounds p (used ++ List.replicate (primeTestWords rounds p + n) 0) = some (true, r) := by
    intro n
    let l := used ++ List.replicate (primeTestWords rounds p + n) (0 : Word)
    have hl : primeTestWords rounds p ≤ l.length := by simp [l]; omega
    refine ⟨l.drop (primeTestWords rounds p), ?_⟩
    have := millerRabin_prime (rounds := rounds) hp (us := l.take (primeTestWords rounds p))
      (l.drop (primeTestWords rounds p)) (by simp [hl])
    rwa [List.take_append_drop] at this
  obtain ⟨r, hr⟩ := key 0
  rw [add_zero, h1] at hr
  simp only [Option.some.injEq, Prod.mk.injEq] at hr
  exact hr.1

end Sys2Proof.Laws
end

