-- ==== Sys2Proof/Laws/Memory.lean ====
section
/-! SUPPORT. The byte memory: read after write, the canonical form and the window bounds, which every memory operation keeps,
and that canonical memories with equal reads are equal data. -/

namespace Sys2Proof.Laws

open Sys2Proof.Machine

/-- Every listed offset is above k. -/
def AllAbove (k : Nat) (m : Memory) : Prop := ∀ c ∈ m, k < c.1

theorem allAbove_cons {k a : Nat} {b : Byte} {m : Memory} : AllAbove k ((a, b) :: m) ↔ k < a ∧ AllAbove k m := by
  simp [AllAbove]

theorem AllAbove.trans {k l : Nat} {m : Memory} (h : AllAbove l m) (hk : k < l) : AllAbove k m :=
  fun c hc => lt_trans hk (h c hc)

theorem wf_cons {a : Nat} {b : Byte} {m : Memory} :
    Memory.wf ((a, b) :: m) = true ↔ b ≠ 0 ∧ AllAbove a m ∧ Memory.wf m = true := by
  simp [Memory.wf, AllAbove, and_assoc]

@[simp] theorem wf_nil : Memory.wf [] = true := rfl

@[simp] theorem memRead_nil (k : Nat) : memRead [] k = 0 := rfl

/-- A memory with nothing at or below k reads 0x00 at k. -/
theorem memRead_of_allAbove {m : Memory} {k : Nat} (h : AllAbove k m) : memRead m k = 0 := by
  match m with
  | [] => rfl
  | (a, b) :: m => simp [memRead, (allAbove_cons.1 h).1]

theorem memRead_memCons {m : Memory} {k : Nat} {v : Byte} (h : AllAbove k m) (j : Nat) :
    memRead (memCons k v m) j = if j = k then v else memRead m j := by
  unfold memCons
  split
  · next hv =>
    split
    · next hj => rw [hj, memRead_of_allAbove h, hv]
    · rfl
  · simp only [memRead]
    rcases lt_trichotomy j k with hj | hj | hj
    · simp [hj, hj.ne, memRead_of_allAbove (h.trans hj)]
    · simp [hj]
    · simp [hj.ne', hj.ne, not_lt.2 hj.le]

theorem wf_memCons {m : Memory} {k : Nat} {v : Byte} (h : AllAbove k m) (hm : Memory.wf m = true) :
    Memory.wf (memCons k v m) = true := by
  unfold memCons
  split
  · exact hm
  · next hv => exact wf_cons.2 ⟨hv, h, hm⟩

theorem mem_memCons {m : Memory} {k : Nat} {v : Byte} {c : Host.Cell} (hc : c ∈ memCons k v m) : c = (k, v) ∨ c ∈ m := by
  unfold memCons at hc
  split at hc
  · exact .inr hc
  · simpa using hc

/-- A write lists at most the written offset and offsets listed before. -/
theorem mem_memWrite {m : Memory} {k : Nat} {v : Byte} {c : Host.Cell} (hc : c ∈ memWrite m k v) :
    c.1 = k ∨ c ∈ m := by
  induction m with
  | nil => exact (mem_memCons hc).imp (by rintro rfl; rfl) id
  | cons p m ih =>
    obtain ⟨a, b⟩ := p
    simp only [memWrite] at hc
    split at hc
    · exact (mem_memCons hc).imp (by rintro rfl; rfl) id
    · split at hc
      · exact (mem_memCons hc).imp (by rintro rfl; rfl) (List.mem_cons_of_mem _)
      · rcases List.mem_cons.1 hc with rfl | hc
        · exact .inr (by simp)
        · exact (ih hc).imp id (List.mem_cons_of_mem _)

theorem allAbove_memWrite {m : Memory} {l k : Nat} {v : Byte} (h : AllAbove l m) (hk : l < k) :
    AllAbove l (memWrite m k v) := by
  intro c hc
  rcases mem_memWrite hc with rfl | hc
  · exact hk
  · exact h c hc

/-- A write keeps the canonical form. -/
theorem wf_memWrite {m : Memory} (hm : Memory.wf m = true) (k : Nat) (v : Byte) : Memory.wf (memWrite m k v) = true := by
  induction m with
  | nil => exact wf_memCons (m := []) (by simp [AllAbove]) rfl
  | cons p m ih =>
    obtain ⟨a, b⟩ := p
    obtain ⟨hb, ha, hw⟩ := wf_cons.1 hm
    simp only [memWrite]
    split
    · next hk => exact wf_memCons (allAbove_cons.2 ⟨hk, ha.trans hk⟩) hm
    · split
      · next hk => subst hk; exact wf_memCons ha hw
      · exact wf_cons.2 ⟨hb, allAbove_memWrite ha (by omega), ih hw⟩

/-- Reading after a write: the byte written, and every other byte as before. -/
theorem memRead_memWrite {m : Memory} (hm : Memory.wf m = true) (k : Nat) (v : Byte) (j : Nat) :
    memRead (memWrite m k v) j = if j = k then v else memRead m j := by
  induction m with
  | nil => exact memRead_memCons (m := []) (by simp [AllAbove]) j
  | cons p m ih =>
    obtain ⟨a, b⟩ := p
    obtain ⟨hb, ha, hw⟩ := wf_cons.1 hm
    simp only [memWrite]
    split
    · next hk => exact memRead_memCons (allAbove_cons.2 ⟨hk, ha.trans hk⟩) j
    · next hk =>
      split
      · next hak =>
        subst hak
        rw [memRead_memCons ha]
        by_cases hj : j = a
        · simp [hj]
        · rcases lt_or_gt_of_ne hj with h | h
          · simp [memRead, hj, h, memRead_of_allAbove (ha.trans h)]
          · simp [memRead, hj, Ne.symm hj, not_lt.2 h.le]
      · next hak =>
        simp only [memRead, ih hw]
        by_cases hj : j < a
        · simp [hj, show j ≠ k by omega]
        · by_cases hj' : a = j
          · simp [hj', show j ≠ k by omega]
          · simp [hj, hj']

theorem wf_memWriteBytes (bs : List Byte) : ∀ {m : Memory}, Memory.wf m = true → ∀ a, Memory.wf (memWriteBytes m a bs) = true := by
  induction bs with
  | nil => intro m hm a; exact hm
  | cons b bs ih => intro m hm a; exact ih (wf_memWrite hm a b) (a + 1)

/-- Reading after a byte string is written: its bytes where it stands, every other byte as before. -/
theorem memRead_memWriteBytes (bs : List Byte) : ∀ {m : Memory}, Memory.wf m = true → ∀ a j,
    memRead (memWriteBytes m a bs) j = if a ≤ j ∧ j < a + bs.length then bs.getD (j - a) 0 else memRead m j := by
  induction bs with
  | nil => intro m hm a j; simp [memWriteBytes]
  | cons b bs ih =>
    intro m hm a j
    simp only [memWriteBytes, List.length_cons]
    rw [ih (wf_memWrite hm a b) (a + 1) j, memRead_memWrite hm]
    by_cases h : j = a
    · subst h; simp
    · by_cases h1 : a + 1 ≤ j ∧ j < a + 1 + bs.length
      · have : j - a = (j - (a + 1)) + 1 := by omega
        rw [if_pos h1, if_pos (by omega), this, List.getD_cons_succ]
      · rw [if_neg h1, if_neg h, if_neg (by omega)]

theorem within_iff {lo hi : Nat} {m : Memory} : Memory.within lo hi m = true ↔ ∀ c ∈ m, lo ≤ c.1 ∧ c.1 < hi := by
  simp [Memory.within]

@[simp] theorem within_nil (lo hi : Nat) : Memory.within lo hi [] = true := rfl

theorem within_memWrite {lo hi k : Nat} {m : Memory} (hm : Memory.within lo hi m = true) (hk : lo ≤ k ∧ k < hi) (v : Byte) :
    Memory.within lo hi (memWrite m k v) = true := by
  rw [within_iff] at *
  intro c hc
  rcases mem_memWrite hc with rfl | hc
  · exact hk
  · exact hm c hc

theorem within_memWriteBytes {lo hi : Nat} (bs : List Byte) : ∀ {m : Memory}, Memory.within lo hi m = true → ∀ a, lo ≤ a →
    a + bs.length ≤ hi → Memory.within lo hi (memWriteBytes m a bs) = true := by
  induction bs with
  | nil => intro m hm a _ _; exact hm
  | cons b bs ih =>
    intro m hm a ha hh
    simp only [List.length_cons] at hh
    exact ih (within_memWrite hm (by omega) b) (a + 1) (by omega) (by omega)

/-- The length of a byte string read. -/
@[simp] theorem length_memReadBytes (m : Memory) (a n : Nat) : (memReadBytes m a n).length = n := by
  simp [memReadBytes]

theorem getElem_memReadBytes (m : Memory) (a n i : Nat) (h : i < (memReadBytes m a n).length) :
    (memReadBytes m a n)[i] = memRead m (a + i) := by
  simp [memReadBytes]

/-- A byte string read back where it was written. -/
theorem memReadBytes_memWriteBytes {m : Memory} (hm : Memory.wf m = true) (a : Nat) (bs : List Byte) :
    memReadBytes (memWriteBytes m a bs) a bs.length = bs := by
  apply List.ext_getElem
  · simp
  · intro i h1 h2
    rw [getElem_memReadBytes, memRead_memWriteBytes bs hm, if_pos (by omega)]
    simp [h2]

theorem wf_memWriteWord {m : Memory} (hm : Memory.wf m = true) (a : Nat) (w : Word) :
    Memory.wf (memWriteWord m a w) = true := wf_memWriteBytes _ hm a

theorem within_memWriteWord {lo hi : Nat} {m : Memory} (hm : Memory.within lo hi m = true) {a : Nat} (ha : lo ≤ a)
    (hh : a + 4 ≤ hi) (w : Word) : Memory.within lo hi (memWriteWord m a w) = true :=
  within_memWriteBytes _ hm a ha (by simpa using hh)

/-- The four lanes of a word make the word. -/
theorem wordOfBytes_wordByte (w : Word) : wordOfBytes (wordByte w 0) (wordByte w 1) (wordByte w 2) (wordByte w 3) = w := by
  unfold wordOfBytes wordByte
  ext i hi
  simp only [BitVec.getElem_append, BitVec.getElem_extractLsb']
  split
  · simp [BitVec.getLsbD_eq_getElem, hi]
  · split
    · have : 8 + (i - 8) = i := by omega
      simp [this, BitVec.getLsbD_eq_getElem, hi]
    · split
      · have : 16 + (i - 8 - 8) = i := by omega
        simp [this, BitVec.getLsbD_eq_getElem, hi]
      · have : 24 + (i - 8 - 8 - 8) = i := by omega
        simp [this, BitVec.getLsbD_eq_getElem, hi]

/-- A word read back where it was written. -/
theorem memReadWord_memWriteWord {m : Memory} (hm : Memory.wf m = true) (a : Nat) (w : Word) :
    memReadWord (memWriteWord m a w) a = w := by
  simp [memReadWord, memWriteWord, memRead_memWriteBytes _ hm, wordOfBytes_wordByte]

/-- A word elsewhere is as before. -/
theorem memReadWord_memWriteWord_ne {m : Memory} (hm : Memory.wf m = true) {a b : Nat} (w : Word)
    (h : b + 4 ≤ a ∨ a + 4 ≤ b) : memReadWord (memWriteWord m a w) b = memReadWord m b := by
  simp only [memReadWord, memWriteWord, memRead_memWriteBytes _ hm, List.length_cons, List.length_nil]
  rw [if_neg (by omega), if_neg (by omega), if_neg (by omega), if_neg (by omega)]

/-- Canonical memories that read alike are equal. -/
theorem memory_ext : ∀ {m n : Memory}, Memory.wf m = true → Memory.wf n = true → (∀ k, memRead m k = memRead n k) → m = n := by
  intro m
  induction m with
  | nil =>
    intro n _ hn h
    match n with
    | [] => rfl
    | (a, b) :: n =>
      have := h a
      simp [memRead] at this
      exact absurd this.symm (wf_cons.1 hn).1
  | cons p m ih =>
    intro n hm hn h
    obtain ⟨a, b⟩ := p
    obtain ⟨hb, ha, hw⟩ := wf_cons.1 hm
    match n with
    | [] =>
      have := h a
      simp [memRead] at this
      exact absurd this hb
    | (a', b') :: n =>
      obtain ⟨hb', ha', hw'⟩ := wf_cons.1 hn
      have hab : a = a' := by
        rcases lt_trichotomy a a' with hl | hl | hl
        · have := h a; simp [memRead, hl] at this; exact absurd this hb
        · exact hl
        · have := h a'; simp [memRead, hl] at this; exact absurd this.symm hb'
      subst hab
      have hbb : b = b' := by have := h a; simpa [memRead] using this
      subst hbb
      refine congrArg _ (ih hw hw' fun k => ?_)
      have := h k
      simp only [memRead] at this
      rcases lt_trichotomy k a with hl | hl | hl
      · rw [memRead_of_allAbove (ha.trans hl), memRead_of_allAbove (ha'.trans hl)]
      · subst hl; rw [memRead_of_allAbove ha, memRead_of_allAbove ha']
      · simpa [not_lt.2 hl.le, hl.ne] using this

/-- The free contents of OUT are canonical and inside the window. -/
theorem wf_freeOut (bufBytes n : Nat) : Memory.wf (freeOut bufBytes n) = true := wf_memWriteBytes _ wf_nil _

theorem within_freeOut (bufBytes n : Nat) : Memory.within outBase (outBase + bufBytes) (freeOut bufBytes n) = true :=
  within_memWriteBytes _ (within_nil _ _) _ le_rfl (by simp)

end Sys2Proof.Laws
end

