-- ==== Sys2Proof/Laws/Bus.lean ====
section
/-! SUPPORT. The host bus: words of blocks and of big integers read back where they are written, the ranges of the register
map, and everything an access can do. -/

namespace Sys2Proof.Laws

open Sys2Proof.Machine

/-! ### Words of a block -/

theorem getElem_setBlockWord (b : Block) (j : Nat) (w : Word) (i : Nat) (hi : i < 16) :
    (setBlockWord b j w)[i] = if i / 4 = j then wordByte w (i % 4) else b[i] := by
  simp [setBlockWord]

theorem blockWord_eq (b : Block) (j : Nat) (hj : j < 4) :
    blockWord b j = wordOfBytes b[4 * j] b[4 * j + 1] b[4 * j + 2] b[4 * j + 3] := by
  unfold blockWord
  have h : ∀ k (hk : k < 16), b.toList.getD k 0 = b[k] := by
    intro k hk
    rw [List.getD_eq_getElem _ _ (by simpa using hk)]
    simp
  rw [h _ (by omega), h _ (by omega), h _ (by omega), h _ (by omega)]

theorem blockWord_setBlockWord (b : Block) {j : Nat} (hj : j < 4) (w : Word) : blockWord (setBlockWord b j w) j = w := by
  rw [blockWord_eq _ _ hj]
  simp only [getElem_setBlockWord]
  rw [if_pos (by omega), if_pos (by omega), if_pos (by omega), if_pos (by omega),
    show 4 * j % 4 = 0 by omega, show (4 * j + 1) % 4 = 1 by omega, show (4 * j + 2) % 4 = 2 by omega,
    show (4 * j + 3) % 4 = 3 by omega, wordOfBytes_wordByte]

theorem blockWord_setBlockWord_ne (b : Block) {i j : Nat} (hi : i < 4) (h : i ≠ j) (w : Word) :
    blockWord (setBlockWord b j w) i = blockWord b i := by
  rw [blockWord_eq _ _ hi, blockWord_eq _ _ hi]
  simp only [getElem_setBlockWord]
  rw [if_neg (by omega), if_neg (by omega), if_neg (by omega), if_neg (by omega)]

/-! ### Words of a big integer -/

theorem low_add_lt {lo w p q : Nat} (hl : lo < p) (hw : w < q) : lo + w * p < p * q := by
  calc lo + w * p < p + w * p := by omega
    _ = (w + 1) * p := by ring
    _ ≤ q * p := Nat.mul_le_mul_right _ hw
    _ = p * q := Nat.mul_comm _ _

theorem setBigWord_lt {v j n : Nat} (hv : v < 2 ^ n) (hj : 32 * (j + 1) ≤ n) (w : Word) : setBigWord v j w < 2 ^ n := by
  unfold setBigWord
  obtain ⟨k, rfl⟩ := Nat.exists_eq_add_of_le hj
  have hw := w.isLt
  have h1 : v % 2 ^ (32 * j) < 2 ^ (32 * j) := Nat.mod_lt _ (by positivity)
  have hs : 2 ^ (32 * (j + 1)) = 2 ^ (32 * j) * 2 ^ 32 := by rw [← pow_add]; congr 1
  have h2 : v / 2 ^ (32 * (j + 1)) < 2 ^ k := by
    rw [Nat.div_lt_iff_lt_mul (by positivity), ← pow_add, Nat.add_comm]; exact hv
  have h3 : v % 2 ^ (32 * j) + w.toNat * 2 ^ (32 * j) < 2 ^ (32 * (j + 1)) := by
    rw [hs]; exact low_add_lt h1 hw
  calc v % 2 ^ (32 * j) + w.toNat * 2 ^ (32 * j) + v / 2 ^ (32 * (j + 1)) * 2 ^ (32 * (j + 1))
      < 2 ^ (32 * (j + 1)) + v / 2 ^ (32 * (j + 1)) * 2 ^ (32 * (j + 1)) := by omega
    _ = (v / 2 ^ (32 * (j + 1)) + 1) * 2 ^ (32 * (j + 1)) := by ring
    _ ≤ 2 ^ k * 2 ^ (32 * (j + 1)) := Nat.mul_le_mul_right _ h2
    _ = 2 ^ (32 * (j + 1) + k) := by rw [← pow_add, Nat.add_comm]

/-- The bits of a big integer with a word replaced (10_state.md R46). -/
theorem testBit_setBigWord (v j : Nat) (w : Word) (i : Nat) :
    (setBigWord v j w).testBit i = if i / 32 = j then w.getLsbD (i % 32) else v.testBit i := by
  unfold setBigWord
  have hlo : v % 2 ^ (32 * j) < 2 ^ (32 * j) := Nat.mod_lt _ (by positivity)
  have hs : 2 ^ (32 * (j + 1)) = 2 ^ (32 * j) * 2 ^ 32 := by rw [← pow_add]; congr 1
  have hmid : v % 2 ^ (32 * j) + w.toNat * 2 ^ (32 * j) < 2 ^ (32 * (j + 1)) := by
    rw [hs]; exact low_add_lt hlo w.isLt
  clear hs
  rw [Nat.add_comm _ (v / _ * _), Nat.mul_comm (v / _) _, Nat.testBit_two_pow_mul_add _ hmid,
    Nat.add_comm (v % _), Nat.mul_comm w.toNat, Nat.testBit_two_pow_mul_add _ hlo, Nat.testBit_mod_two_pow, Nat.testBit_div_two_pow]
  clear hmid hlo
  by_cases h : i < 32 * (j + 1)
  · by_cases h2 : i < 32 * j
    · rw [if_pos h, if_pos h2, if_neg (by omega)]
      simp [h2]
    · rw [if_pos h, if_neg h2, if_pos (by omega), BitVec.getLsbD]
      congr 1
      omega
  · rw [if_neg h, if_neg (by omega)]
    congr 1
    omega

theorem getLsbD_bigWord (v j i : Nat) (hi : i < 32) : (bigWord v j).getLsbD i = v.testBit (32 * j + i) := by
  unfold bigWord
  rw [BitVec.getLsbD_ofNat, Nat.testBit_shiftRight]
  simp [hi]

theorem bigWord_setBigWord (v j : Nat) (w : Word) : bigWord (setBigWord v j w) j = w := by
  apply BitVec.eq_of_getLsbD_eq
  intro i hi
  rw [getLsbD_bigWord _ _ _ hi, testBit_setBigWord, if_pos (by omega)]
  congr 1
  omega

theorem bigWord_setBigWord_ne (v : Nat) {i j : Nat} (h : i ≠ j) (w : Word) : bigWord (setBigWord v j w) i = bigWord v i := by
  apply BitVec.eq_of_getLsbD_eq
  intro k hk
  rw [getLsbD_bigWord _ _ _ hk, getLsbD_bigWord _ _ _ hk, testBit_setBigWord, if_neg (by omega)]

/-! ### The register map -/

/-- What a mapped target says of its indices: they lie in their windows. -/
def TargetInRange (c : Config) : Target → Prop
  | .iv j | .key j | .state j | .rk _ j => j < 4
  | .inBuf a => inBase ≤ a ∧ a < inBase + c.bufBytes
  | .outBuf a => outBase ≤ a ∧ a < outBase + c.bufBytes
  | .big _ j => 4 * j < c.bigBits / 8
  | _ => True

theorem bigTarget_some {c : Config} {r : BigReg} {o : Nat} {t : Target} (h : bigTarget c r o = some t) :
    t = .big r (o / 4) ∧ o < c.bigBits / 8 := by
  unfold bigTarget at h
  split at h
  · next hb => simp only [Option.some.injEq] at h; exact ⟨h.symm, hb⟩
  · cases h

theorem scalarTarget_inRange {c : Config} {a : Nat} {t : Target} (h : scalarTarget a = some t) : TargetInRange c t := by
  unfold scalarTarget at h
  split at h <;> simp only [Option.some.injEq, reduceCtorEq] at h <;> subst h <;> trivial

theorem ite_eq_cases {α : Type} {p : Prop} [Decidable p] {x y z : α} (h : (if p then x else y) = z) :
    (p ∧ x = z) ∨ (¬p ∧ y = z) := by
  split at h
  · exact .inl ⟨‹_›, h⟩
  · exact .inr ⟨‹_›, h⟩

/-- What an offset below 0x1000 can name. -/
theorem lowTarget_cases {a : Nat} {t : Target} (h : lowTarget a = some t) :
    (a < 0x40 ∧ scalarTarget a = some t) ∨ (0x40 ≤ a ∧ a < 0x50 ∧ t = .iv ((a - 0x40) / 4)) ∨
    (0x50 ≤ a ∧ a < 0x60 ∧ t = .key ((a - 0x50) / 4)) ∨ (0x60 ≤ a ∧ a < 0x70 ∧ t = .state ((a - 0x60) / 4)) ∨
    (0x100 ≤ a ∧ a < 0x1B0 ∧ t = .rk (Fin.ofNat 11 ((a - 0x100) / 16)) ((a - 0x100) % 16 / 4)) := by
  unfold lowTarget at h
  rcases ite_eq_cases h with ⟨h1, h⟩ | ⟨h1, h⟩
  · exact .inl ⟨h1, h⟩
  rcases ite_eq_cases h with ⟨h2, h⟩ | ⟨h2, h⟩
  · exact .inr (.inl ⟨by omega, h2, (Option.some.inj h).symm⟩)
  rcases ite_eq_cases h with ⟨h3, h⟩ | ⟨h3, h⟩
  · exact .inr (.inr (.inl ⟨by omega, h3, (Option.some.inj h).symm⟩))
  rcases ite_eq_cases h with ⟨h4, h⟩ | ⟨h4, h⟩
  · exact .inr (.inr (.inr (.inl ⟨by omega, h4, (Option.some.inj h).symm⟩)))
  rcases ite_eq_cases h with ⟨-, h⟩ | ⟨h5, h⟩
  · cases h
  rcases ite_eq_cases h with ⟨h6, h⟩ | ⟨-, h⟩
  · exact .inr (.inr (.inr (.inr ⟨by omega, h6, (Option.some.inj h).symm⟩)))
  · cases h

/-- What an offset of the big-integer slots can name. -/
theorem bigSlotTarget_cases {c : Config} {a : Nat} {t : Target} (h : bigSlotTarget c a = some t) :
    ∃ r o, t = .big r (o / 4) ∧ o < c.bigBits / 8 ∧
      ((a < 0x5000 ∧ r = .x (Fin.ofNat 8 ((a - 0x4000) / 0x200)) ∧ o = (a - 0x4000) % 0x200) ∨
       (0x5000 ≤ a ∧ a < 0x5200 ∧ r = .pubE ∧ o = a - 0x5000) ∨ (0x5200 ≤ a ∧ a < 0x5400 ∧ r = .pubN ∧ o = a - 0x5200) ∨
       (0x5400 ≤ a ∧ a < 0x5600 ∧ r = .privD ∧ o = a - 0x5400) ∨ (0x5600 ≤ a ∧ a < 0x5800 ∧ r = .privN ∧ o = a - 0x5600)) := by
  unfold bigSlotTarget at h
  rcases ite_eq_cases h with ⟨h1, h⟩ | ⟨h1, h⟩
  · exact ⟨_, _, (bigTarget_some h).1, (bigTarget_some h).2, .inl ⟨h1, rfl, rfl⟩⟩
  rcases ite_eq_cases h with ⟨h2, h⟩ | ⟨h2, h⟩
  · exact ⟨_, _, (bigTarget_some h).1, (bigTarget_some h).2, .inr (.inl ⟨by omega, h2, rfl, rfl⟩)⟩
  rcases ite_eq_cases h with ⟨h3, h⟩ | ⟨h3, h⟩
  · exact ⟨_, _, (bigTarget_some h).1, (bigTarget_some h).2, .inr (.inr (.inl ⟨by omega, h3, rfl, rfl⟩))⟩
  rcases ite_eq_cases h with ⟨h4, h⟩ | ⟨h4, h⟩
  · exact ⟨_, _, (bigTarget_some h).1, (bigTarget_some h).2, .inr (.inr (.inr (.inl ⟨by omega, h4, rfl, rfl⟩)))⟩
  rcases ite_eq_cases h with ⟨h5, h⟩ | ⟨-, h⟩
  · exact ⟨_, _, (bigTarget_some h).1, (bigTarget_some h).2, .inr (.inr (.inr (.inr ⟨by omega, h5, rfl, rfl⟩)))⟩
  · cases h

/-- What a mapped offset can name: the low map, a buffer word, a big-integer word. -/
theorem targetAt_cases {c : Config} {a : Nat} {t : Target} (h : targetAt c a = some t) :
    (a < 0x1000 ∧ lowTarget a = some t) ∨ (inBase ≤ a ∧ a < inBase + c.bufBytes ∧ t = .inBuf a) ∨
    (outBase ≤ a ∧ a < outBase + c.bufBytes ∧ t = .outBuf a) ∨ (0x4000 ≤ a ∧ bigSlotTarget c a = some t) := by
  unfold targetAt at h
  rcases ite_eq_cases h with ⟨h1, h⟩ | ⟨h1, h⟩
  · exact .inl ⟨h1, h⟩
  rcases ite_eq_cases h with ⟨h2, h⟩ | ⟨h2, h⟩
  · rcases ite_eq_cases h with ⟨h3, h⟩ | ⟨-, h⟩
    · exact .inr (.inl ⟨by omega, h3, (Option.some.inj h).symm⟩)
    · cases h
  rcases ite_eq_cases h with ⟨h4, h⟩ | ⟨h4, h⟩
  · rcases ite_eq_cases h with ⟨h5, h⟩ | ⟨-, h⟩
    · exact .inr (.inr (.inl ⟨by omega, h5, (Option.some.inj h).symm⟩))
    · cases h
  rcases ite_eq_cases h with ⟨-, h⟩ | ⟨h6, h⟩
  · cases h
  · exact .inr (.inr (.inr ⟨by omega, h⟩))

/-- Every mapped target is in range. -/
theorem targetAt_inRange {c : Config} {a : Nat} {t : Target} (h : targetAt c a = some t) : TargetInRange c t := by
  rcases targetAt_cases h with ⟨-, h⟩ | ⟨h1, h2, rfl⟩ | ⟨h1, h2, rfl⟩ | ⟨-, h⟩
  · rcases lowTarget_cases h with ⟨-, h⟩ | ⟨h1, h2, rfl⟩ | ⟨h1, h2, rfl⟩ | ⟨h1, h2, rfl⟩ | ⟨h1, h2, rfl⟩
    · exact scalarTarget_inRange h
    all_goals simp only [TargetInRange]; omega
  · exact ⟨h1, h2⟩
  · exact ⟨h1, h2⟩
  · obtain ⟨r, o, rfl, ho, -⟩ := bigSlotTarget_cases h
    simp only [TargetInRange]
    omega

/-- A word of IN named by an offset stands at that offset. -/
theorem targetAt_inBuf {c : Config} {a b : Nat} (h : targetAt c a = some (.inBuf b)) : b = a := by
  rcases targetAt_cases h with ⟨-, h⟩ | ⟨-, -, h⟩ | ⟨-, -, h⟩ | ⟨-, h⟩
  · rcases lowTarget_cases h with ⟨-, h⟩ | ⟨-, -, h⟩ | ⟨-, -, h⟩ | ⟨-, -, h⟩ | ⟨-, -, h⟩
    · unfold scalarTarget at h
      split at h <;> simp at h
    all_goals cases h
  · cases h; rfl
  · cases h
  · obtain ⟨r, o, hr, -⟩ := bigSlotTarget_cases h
    cases hr

/-! ### Everything an access can do -/

/-- A read sets the response, and counts a free value when it gives one. -/
theorem hostRead_cases (a : Addr) (s : State) :
    (∃ r, hostRead a s = { s with resp := r }) ∨
    (busy s = true ∧ hostRead a s = { s with resp := .data (Config.freeRead s.fresh), fresh := s.fresh + 1 }) := by
  unfold hostRead
  split
  · exact .inl ⟨_, rfl⟩
  · split
    · exact .inl ⟨_, rfl⟩
    · split
      · exact .inl ⟨_, rfl⟩
      · next h => exact .inr ⟨by simp_all, rfl⟩

/-- A write is refused, dropped, or accepted. -/
theorem hostWrite_cases (a : Addr) (v : Word) (strb : Nibble) (s : State) :
    (∃ r, hostWrite a v strb s = { s with resp := r }) ∨
    (busy s = true ∧ hostWrite a v strb s = { s with wbusy := true, resp := .okay }) ∨
    (∃ t, targetAt s.cfg a.toNat = some t ∧ a.toNat % 4 = 0 ∧ s.rstn = true ∧ (busy s = false ∨ writableWhileBusy t = true) ∧
      hostWrite a v strb s = { writeTarget v s t with resp := .okay }) := by
  unfold hostWrite
  split
  · exact .inl ⟨_, rfl⟩
  · next hr =>
    split
    · exact .inl ⟨_, rfl⟩
    · split
      · exact .inl ⟨_, rfl⟩
      · next t ht =>
        unfold accessTarget at ht
        split at ht
        · cases ht
        · next ha =>
          split
          · next hb => exact .inr (.inr ⟨t, ht, by omega, by simpa using hr, by simpa using hb, rfl⟩)
          · next hb => exact .inr (.inl ⟨by simp at hb; exact hb.1, rfl⟩)

end Sys2Proof.Laws
end

