-- ==== Sys2Proof/Laws/Bytes.lean ====
section
/-! SUPPORT. Byte strings: big-endian integers and blocks there and back (00_scope.md R10). -/

namespace Sys2Proof.Laws

open Sys2Proof.Machine

@[simp] theorem length_beBytes (k v : Nat) : (beBytes k v).length = k := by simp [beBytes]

theorem beNat_append (s : List Byte) (b : Byte) : beNat (s ++ [b]) = beNat s * 256 + b.toNat := by
  simp [beNat]

theorem beBytes_succ (k v : Nat) : beBytes (k + 1) v = beBytes k (v / 256) ++ [BitVec.ofNat 8 v] := by
  unfold beBytes
  rw [List.range_succ, List.map_append]
  congr 1
  · apply List.map_congr_left
    intro i hi
    rw [List.mem_range] at hi
    rw [Nat.div_div_eq_div_mul, show k + 1 - 1 - i = (k - 1 - i) + 1 by omega, pow_succ, mul_comm]
  · simp

/-- `BE(BE_k(v)) = v` for v below 256^k (00_scope.md R10). -/
theorem beNat_beBytes : ∀ {k v : Nat}, v < 256 ^ k → beNat (beBytes k v) = v := by
  intro k
  induction k with
  | zero => intro v h; have : v = 0 := by simpa using h
            subst this; rfl
  | succ k ih =>
    intro v h
    rw [beBytes_succ, beNat_append, ih (by rw [pow_succ] at h; omega)]
    simp
    omega

theorem beNat_lt (s : List Byte) : beNat s < 256 ^ s.length := by
  induction s using List.reverseRecOn with
  | nil => simp [beNat]
  | append_singleton s b ih =>
    rw [beNat_append, List.length_append, List.length_singleton, pow_succ]
    have := b.isLt
    omega

/-- `BE_k(BE(s)) = s` for a string of k bytes (00_scope.md R10). -/
theorem beBytes_beNat (s : List Byte) : beBytes s.length (beNat s) = s := by
  induction s using List.reverseRecOn with
  | nil => rfl
  | append_singleton s b ih =>
    rw [List.length_append, List.length_singleton, beBytes_succ, beNat_append]
    have hb := b.isLt
    congr 1
    · rw [show (beNat s * 256 + b.toNat) / 256 = beNat s by omega, ih]
    · congr 1
      apply BitVec.eq_of_toNat_eq
      simp
      omega

theorem beNat_replicate_zero_append (n : Nat) (s : List Byte) : beNat (rep 0x00 n ++ s) = beNat s := by
  unfold beNat rep
  rw [List.foldl_append]
  congr 1
  induction n with
  | zero => rfl
  | succ n ih => simpa [List.replicate_succ] using ih

theorem bitlen_le_iff {v k : Nat} : bitlen v ≤ k ↔ v < 2 ^ k := by
  unfold bitlen
  split
  · next h => simp [h]
  · next h => rw [← Nat.log2_lt h]; omega

/-- A number fits its byte length. -/
theorem lt_pow_blen (n : Nat) : n < 256 ^ blen n := by
  rw [show (256 : Nat) = 2 ^ 8 by rfl, ← pow_mul, ← bitlen_le_iff]
  unfold blen ceilDiv
  omega

/-- A number of k bytes, k at least 1, is at least 256^(k-1). -/
theorem pow_blen_le {n : Nat} (h : 0 < blen n) : 256 ^ (blen n - 1) ≤ n := by
  by_contra hlt
  have h2 : bitlen n ≤ 8 * (blen n - 1) := by
    rw [bitlen_le_iff, pow_mul]
    simpa using hlt
  unfold blen ceilDiv at *
  omega

/-! ### Blocks -/

@[simp] theorem length_blocksOf (s : List Byte) (n : Nat) : (blocksOf s n).length = n := by simp [blocksOf]

theorem getElem_blockAt (s : List Byte) (k i : Nat) (h : i < 16) : (blockAt s k)[i] = s.getD (16 * k + i) 0 := by
  simp [blockAt]

theorem length_bytesOfBlocks (bs : List Block) : (bytesOfBlocks bs).length = 16 * bs.length := by
  induction bs with
  | nil => rfl
  | cons b bs ih =>
    have : bytesOfBlocks (b :: bs) = b.toList ++ bytesOfBlocks bs := rfl
    rw [this, List.length_append, ih]
    simp
    omega

theorem getD_bytesOfBlocks (bs : List Block) : ∀ (k i : Nat) (hk : k < bs.length) (hi : i < 16),
    (bytesOfBlocks bs).getD (16 * k + i) 0 = bs[k][i] := by
  induction bs with
  | nil => intro k i hk; simp at hk
  | cons b bs ih =>
    intro k i hk hi
    have hc : bytesOfBlocks (b :: bs) = b.toList ++ bytesOfBlocks bs := rfl
    rw [hc]
    rcases k with _ | k
    · rw [List.getD_append _ _ _ _ (by simp; omega)]
      simp [hi]
    · rw [List.getD_append_right _ _ _ _ (by simp; omega)]
      have := ih k i (by simpa using hk) hi
      simp only [Vector.length_toList]
      rw [show 16 * (k + 1) + i - 16 = 16 * k + i by omega, this]
      rfl

theorem blockAt_bytesOfBlocks (bs : List Block) (k : Nat) (hk : k < bs.length) : blockAt (bytesOfBlocks bs) k = bs[k] := by
  apply Vector.ext
  intro i hi
  rw [getElem_blockAt _ _ _ hi, getD_bytesOfBlocks bs k i hk hi]

/-- Blocks to bytes and back. -/
theorem blocksOf_bytesOfBlocks (bs : List Block) : blocksOf (bytesOfBlocks bs) bs.length = bs := by
  apply List.ext_getElem
  · simp
  · intro k h1 h2
    simp only [blocksOf, List.getElem_map, List.getElem_range]
    exact blockAt_bytesOfBlocks bs k h2

/-- Bytes to blocks and back. -/
theorem bytesOfBlocks_blocksOf {s : List Byte} {n : Nat} (h : s.length = 16 * n) : bytesOfBlocks (blocksOf s n) = s := by
  apply List.ext_getElem
  · rw [length_bytesOfBlocks, length_blocksOf, h]
  · intro i h1 h2
    have hk : i / 16 < (blocksOf s n).length := by rw [length_blocksOf]; omega
    have := getD_bytesOfBlocks (blocksOf s n) (i / 16) (i % 16) hk (by omega)
    rw [Nat.div_add_mod, List.getD_eq_getElem _ _ h1] at this
    rw [this]
    simp only [blocksOf, List.getElem_map, List.getElem_range]
    rw [getElem_blockAt _ _ _ (by omega), Nat.div_add_mod, List.getD_eq_getElem _ _ h2]

theorem blockXor_cancel (a b : Block) : blockXor (blockXor a b) b = a := by
  apply Vector.ext
  intro i hi
  simp [blockXor]

end Sys2Proof.Laws
end

