-- ==== Sys2Proof/Laws/Cipher.lean ====
section
/-! SUPPORT. The field product is additive; each block transform undoes its inverse (41_block_transform.md R143 to R148); the
rounds of the cipher undo each other (43_block_cipher.md R180, R181). -/

namespace Sys2Proof.Laws

open Sys2Proof.Machine

theorem gmulLoop_xor (n : Nat) : ∀ a x y p q : Byte,
    gmulLoop n a (x ^^^ y) (p ^^^ q) = gmulLoop n a x p ^^^ gmulLoop n a y q := by
  induction n with
  | zero => intro a x y p q; rfl
  | succ n ih =>
    intro a x y p q
    have hs : (x ^^^ y) >>> 1 = (x >>> 1) ^^^ (y >>> 1) := by ext i; simp
    have hp : (if (x ^^^ y).getLsbD 0 then p ^^^ q ^^^ a else p ^^^ q) =
        (if x.getLsbD 0 then p ^^^ a else p) ^^^ (if y.getLsbD 0 then q ^^^ a else q) := by
      have hc : (p ^^^ a) ^^^ (q ^^^ a) = p ^^^ q := by
        rw [show (p ^^^ a) ^^^ (q ^^^ a) = p ^^^ q ^^^ (a ^^^ a) by ac_rfl]; simp
      rw [BitVec.getLsbD_xor]
      cases x.getLsbD 0 <;> cases y.getLsbD 0 <;> simp [hc] <;> ac_rfl
    simp only [gmulLoop]
    rw [hs, hp, ih]

/-- The product distributes over addition (40_gf256.md R132). -/
theorem gmul_xor (c x y : Byte) : gmul c (x ^^^ y) = gmul c x ^^^ gmul c y := by
  unfold gmul
  rw [← gmulLoop_xor]
  rfl

theorem invSboxAt_sboxAt : ∀ a : Byte, invSboxAt (sboxAt a) = a := by decide +kernel

theorem sboxAt_invSboxAt : ∀ a : Byte, sboxAt (invSboxAt a) = a := by decide +kernel

/-- InvSubBytes undoes SubBytes (41_block_transform.md R143). -/
theorem invSubBytes_subBytes (b : Block) : invSubBytes (subBytes b) = b := by
  apply Vector.ext
  intro i hi
  simp [invSubBytes, subBytes, invSboxAt_sboxAt]

theorem subBytes_invSubBytes (b : Block) : subBytes (invSubBytes b) = b := by
  apply Vector.ext
  intro i hi
  simp [invSubBytes, subBytes, sboxAt_invSboxAt]

/-- InvShiftRows undoes ShiftRows (41_block_transform.md R145). -/
theorem invShiftRows_shiftRows (b : Block) : invShiftRows (shiftRows b) = b := by
  apply Vector.ext
  intro i hi
  simp only [invShiftRows, shiftRows, Vector.getElem_ofFn]
  congr 1
  omega

theorem shiftRows_invShiftRows (b : Block) : shiftRows (invShiftRows b) = b := by
  apply Vector.ext
  intro i hi
  simp only [invShiftRows, shiftRows, Vector.getElem_ofFn]
  congr 1
  omega

/-- The coefficients of `InvMixColumns ∘ MixColumns` on one byte (41_block_transform.md R147). -/
theorem invMix_coefficients : ∀ a : Byte,
    (gmul 14 (gmul 2 a) ^^^ gmul 11 a ^^^ gmul 13 a ^^^ gmul 9 (gmul 3 a) = a) ∧
    (gmul 14 (gmul 3 a) ^^^ gmul 11 (gmul 2 a) ^^^ gmul 13 a ^^^ gmul 9 a = 0) ∧
    (gmul 14 a ^^^ gmul 11 (gmul 3 a) ^^^ gmul 13 (gmul 2 a) ^^^ gmul 9 a = 0) ∧
    (gmul 14 a ^^^ gmul 11 a ^^^ gmul 13 (gmul 3 a) ^^^ gmul 9 (gmul 2 a) = 0) := by decide +kernel

/-- The coefficients of `MixColumns ∘ InvMixColumns` on one byte. -/
theorem mix_coefficients : ∀ a : Byte,
    (gmul 2 (gmul 14 a) ^^^ gmul 3 (gmul 9 a) ^^^ gmul 13 a ^^^ gmul 11 a = a) ∧
    (gmul 2 (gmul 11 a) ^^^ gmul 3 (gmul 14 a) ^^^ gmul 9 a ^^^ gmul 13 a = 0) ∧
    (gmul 2 (gmul 13 a) ^^^ gmul 3 (gmul 11 a) ^^^ gmul 14 a ^^^ gmul 9 a = 0) ∧
    (gmul 2 (gmul 9 a) ^^^ gmul 3 (gmul 13 a) ^^^ gmul 11 a ^^^ gmul 14 a = 0) := by decide +kernel

/-- The r-th of four bytes of a column. -/
def pick (r : Nat) (a0 a1 a2 a3 : Byte) : Byte :=
  match r with
  | 0 => a0
  | 1 => a1
  | 2 => a2
  | _ => a3

/-- InvMixColumns undoes MixColumns, row by row: the terms of each byte, collected. -/
theorem invMixRow_mixRow (r : Nat) (hr : r < 4) (a0 a1 a2 a3 : Byte) :
    invMixRow r (mixRow 0 a0 a1 a2 a3) (mixRow 1 a0 a1 a2 a3) (mixRow 2 a0 a1 a2 a3) (mixRow 3 a0 a1 a2 a3) =
      pick r a0 a1 a2 a3 := by
  obtain ⟨e0, f0, g0, h0⟩ := invMix_coefficients a0
  obtain ⟨e1, f1, g1, h1⟩ := invMix_coefficients a1
  obtain ⟨e2, f2, g2, h2⟩ := invMix_coefficients a2
  obtain ⟨e3, f3, g3, h3⟩ := invMix_coefficients a3
  interval_cases r <;> simp only [invMixRow, mixRow, gmul_xor, pick]
  · calc _ = (gmul 14 (gmul 2 a0) ^^^ gmul 11 a0 ^^^ gmul 13 a0 ^^^ gmul 9 (gmul 3 a0)) ^^^
        (gmul 14 (gmul 3 a1) ^^^ gmul 11 (gmul 2 a1) ^^^ gmul 13 a1 ^^^ gmul 9 a1) ^^^
        (gmul 14 a2 ^^^ gmul 11 (gmul 3 a2) ^^^ gmul 13 (gmul 2 a2) ^^^ gmul 9 a2) ^^^
        (gmul 14 a3 ^^^ gmul 11 a3 ^^^ gmul 13 (gmul 3 a3) ^^^ gmul 9 (gmul 2 a3)) := by ac_rfl
      _ = a0 := by rw [e0, f1, g2, h3]; simp
  · calc _ = (gmul 14 (gmul 2 a1) ^^^ gmul 11 a1 ^^^ gmul 13 a1 ^^^ gmul 9 (gmul 3 a1)) ^^^
        (gmul 14 (gmul 3 a2) ^^^ gmul 11 (gmul 2 a2) ^^^ gmul 13 a2 ^^^ gmul 9 a2) ^^^
        (gmul 14 a3 ^^^ gmul 11 (gmul 3 a3) ^^^ gmul 13 (gmul 2 a3) ^^^ gmul 9 a3) ^^^
        (gmul 14 a0 ^^^ gmul 11 a0 ^^^ gmul 13 (gmul 3 a0) ^^^ gmul 9 (gmul 2 a0)) := by ac_rfl
      _ = a1 := by rw [e1, f2, g3, h0]; simp
  · calc _ = (gmul 14 (gmul 2 a2) ^^^ gmul 11 a2 ^^^ gmul 13 a2 ^^^ gmul 9 (gmul 3 a2)) ^^^
        (gmul 14 (gmul 3 a3) ^^^ gmul 11 (gmul 2 a3) ^^^ gmul 13 a3 ^^^ gmul 9 a3) ^^^
        (gmul 14 a0 ^^^ gmul 11 (gmul 3 a0) ^^^ gmul 13 (gmul 2 a0) ^^^ gmul 9 a0) ^^^
        (gmul 14 a1 ^^^ gmul 11 a1 ^^^ gmul 13 (gmul 3 a1) ^^^ gmul 9 (gmul 2 a1)) := by ac_rfl
      _ = a2 := by rw [e2, f3, g0, h1]; simp
  · calc _ = (gmul 14 (gmul 2 a3) ^^^ gmul 11 a3 ^^^ gmul 13 a3 ^^^ gmul 9 (gmul 3 a3)) ^^^
        (gmul 14 (gmul 3 a0) ^^^ gmul 11 (gmul 2 a0) ^^^ gmul 13 a0 ^^^ gmul 9 a0) ^^^
        (gmul 14 a1 ^^^ gmul 11 (gmul 3 a1) ^^^ gmul 13 (gmul 2 a1) ^^^ gmul 9 a1) ^^^
        (gmul 14 a2 ^^^ gmul 11 a2 ^^^ gmul 13 (gmul 3 a2) ^^^ gmul 9 (gmul 2 a2)) := by ac_rfl
      _ = a3 := by rw [e3, f0, g1, h2]; simp

/-- MixColumns undoes InvMixColumns, row by row. -/
theorem mixRow_invMixRow (r : Nat) (hr : r < 4) (a0 a1 a2 a3 : Byte) :
    mixRow r (invMixRow 0 a0 a1 a2 a3) (invMixRow 1 a0 a1 a2 a3) (invMixRow 2 a0 a1 a2 a3) (invMixRow 3 a0 a1 a2 a3) =
      pick r a0 a1 a2 a3 := by
  obtain ⟨e0, f0, g0, h0⟩ := mix_coefficients a0
  obtain ⟨e1, f1, g1, h1⟩ := mix_coefficients a1
  obtain ⟨e2, f2, g2, h2⟩ := mix_coefficients a2
  obtain ⟨e3, f3, g3, h3⟩ := mix_coefficients a3
  interval_cases r <;> simp only [mixRow, invMixRow, gmul_xor, pick]
  · calc _ = (gmul 2 (gmul 14 a0) ^^^ gmul 3 (gmul 9 a0) ^^^ gmul 13 a0 ^^^ gmul 11 a0) ^^^
        (gmul 2 (gmul 11 a1) ^^^ gmul 3 (gmul 14 a1) ^^^ gmul 9 a1 ^^^ gmul 13 a1) ^^^
        (gmul 2 (gmul 13 a2) ^^^ gmul 3 (gmul 11 a2) ^^^ gmul 14 a2 ^^^ gmul 9 a2) ^^^
        (gmul 2 (gmul 9 a3) ^^^ gmul 3 (gmul 13 a3) ^^^ gmul 11 a3 ^^^ gmul 14 a3) := by ac_rfl
      _ = a0 := by rw [e0, f1, g2, h3]; simp
  · calc _ = (gmul 2 (gmul 14 a1) ^^^ gmul 3 (gmul 9 a1) ^^^ gmul 13 a1 ^^^ gmul 11 a1) ^^^
        (gmul 2 (gmul 11 a2) ^^^ gmul 3 (gmul 14 a2) ^^^ gmul 9 a2 ^^^ gmul 13 a2) ^^^
        (gmul 2 (gmul 13 a3) ^^^ gmul 3 (gmul 11 a3) ^^^ gmul 14 a3 ^^^ gmul 9 a3) ^^^
        (gmul 2 (gmul 9 a0) ^^^ gmul 3 (gmul 13 a0) ^^^ gmul 11 a0 ^^^ gmul 14 a0) := by ac_rfl
      _ = a1 := by rw [e1, f2, g3, h0]; simp
  · calc _ = (gmul 2 (gmul 14 a2) ^^^ gmul 3 (gmul 9 a2) ^^^ gmul 13 a2 ^^^ gmul 11 a2) ^^^
        (gmul 2 (gmul 11 a3) ^^^ gmul 3 (gmul 14 a3) ^^^ gmul 9 a3 ^^^ gmul 13 a3) ^^^
        (gmul 2 (gmul 13 a0) ^^^ gmul 3 (gmul 11 a0) ^^^ gmul 14 a0 ^^^ gmul 9 a0) ^^^
        (gmul 2 (gmul 9 a1) ^^^ gmul 3 (gmul 13 a1) ^^^ gmul 11 a1 ^^^ gmul 14 a1) := by ac_rfl
      _ = a2 := by rw [e2, f3, g0, h1]; simp
  · calc _ = (gmul 2 (gmul 14 a3) ^^^ gmul 3 (gmul 9 a3) ^^^ gmul 13 a3 ^^^ gmul 11 a3) ^^^
        (gmul 2 (gmul 11 a0) ^^^ gmul 3 (gmul 14 a0) ^^^ gmul 9 a0 ^^^ gmul 13 a0) ^^^
        (gmul 2 (gmul 13 a1) ^^^ gmul 3 (gmul 11 a1) ^^^ gmul 14 a1 ^^^ gmul 9 a1) ^^^
        (gmul 2 (gmul 9 a2) ^^^ gmul 3 (gmul 13 a2) ^^^ gmul 11 a2 ^^^ gmul 14 a2) := by ac_rfl
      _ = a3 := by rw [e3, f0, g1, h2]; simp

/-- Column transforms undo each other when their rows do. -/
theorem mapColumns_mapColumns {f g : Nat → Byte → Byte → Byte → Byte → Byte}
    (h : ∀ r, r < 4 → ∀ a0 a1 a2 a3, f r (g 0 a0 a1 a2 a3) (g 1 a0 a1 a2 a3) (g 2 a0 a1 a2 a3) (g 3 a0 a1 a2 a3) =
      pick r a0 a1 a2 a3) (b : Block) : mapColumns f (mapColumns g b) = b := by
  apply Vector.ext
  intro i hi
  simp only [mapColumns, Vector.getElem_ofFn]
  have hd : ∀ k, k < 4 → (4 * (i / 4) + k) / 4 = i / 4 := by intro k hk; omega
  have hm : ∀ k, k < 4 → (4 * (i / 4) + k) % 4 = k := by intro k hk; omega
  have hd0 : 4 * (i / 4) / 4 = i / 4 := by omega
  have hm0 : 4 * (i / 4) % 4 = 0 := by omega
  simp only [hd 1 (by omega), hd 2 (by omega), hd 3 (by omega), hm 1 (by omega), hm 2 (by omega), hm 3 (by omega), hd0, hm0]
  rw [h _ (by omega)]
  have : i % 4 = 0 ∨ i % 4 = 1 ∨ i % 4 = 2 ∨ i % 4 = 3 := by omega
  rcases this with h4 | h4 | h4 | h4 <;> simp only [h4, pick] <;> congr 1 <;> omega

/-- InvMixColumns undoes MixColumns (41_block_transform.md R147). -/
theorem invMixColumns_mixColumns (b : Block) : invMixColumns (mixColumns b) = b := mapColumns_mapColumns invMixRow_mixRow b

theorem mixColumns_invMixColumns (b : Block) : mixColumns (invMixColumns b) = b := mapColumns_mapColumns mixRow_invMixRow b

/-- AddRoundKey is its own inverse (41_block_transform.md R148). -/
theorem addRoundKey_addRoundKey (b k : Block) : addRoundKey (addRoundKey b k) k = b := blockXor_cancel b k

/-- A round of InvCipher undoes the round of Cipher with the same key (43_block_cipher.md R181). -/
theorem invCipherRound_cipherRound (rk : RoundKeys) (b : Block) (r : RoundIdx) :
    invCipherRound rk (cipherRound rk b r) r = b := by
  simp only [invCipherRound, cipherRound, addRoundKey_addRoundKey, invMixColumns_mixColumns, invShiftRows_shiftRows,
    invSubBytes_subBytes]

theorem cipherRound_invCipherRound (rk : RoundKeys) (b : Block) (r : RoundIdx) :
    cipherRound rk (invCipherRound rk b r) r = b := by
  simp only [invCipherRound, cipherRound, addRoundKey_addRoundKey, mixColumns_invMixColumns, shiftRows_invShiftRows,
    subBytes_invSubBytes]

/-! ### CBC -/

@[simp] theorem length_cbcEncryptBlocks (rk : RoundKeys) (ps : List Block) :
    ∀ prev, (cbcEncryptBlocks rk prev ps).length = ps.length := by
  induction ps with
  | nil => intro prev; rfl
  | cons p ps ih => intro prev; simp [cbcEncryptBlocks, ih]

@[simp] theorem length_cbcDecryptBlocks (rk : RoundKeys) (qs : List Block) :
    ∀ prev, (cbcDecryptBlocks rk prev qs).length = qs.length := by
  induction qs with
  | nil => intro prev; rfl
  | cons q qs ih => intro prev; simp [cbcDecryptBlocks, ih]

/-- When the block decryption undoes the block encryption, the CBC loop does (44_cbc.md R191, R192). -/
theorem cbcDecryptBlocks_cbcEncryptBlocks {rk : RoundKeys} (h : ∀ b, invCipher rk (cipher rk b) = b) (ps : List Block) :
    ∀ prev, cbcDecryptBlocks rk prev (cbcEncryptBlocks rk prev ps) = ps := by
  induction ps with
  | nil => intro prev; rfl
  | cons p ps ih => intro prev; simp [cbcDecryptBlocks, cbcEncryptBlocks, h, ih, blockXor_cancel]

theorem padLen_pos (len : Nat) : 1 ≤ padLen len ∧ padLen len ≤ 16 := by unfold padLen; omega

@[simp] theorem length_pad (m : List Byte) : (pad m).length = m.length + padLen m.length := by simp [pad, rep]

theorem length_pad_mod (m : List Byte) : (pad m).length % 16 = 0 := by rw [length_pad]; unfold padLen; omega

theorem length_cbcEncrypt (rk : RoundKeys) (p : List Byte) (iv : Block) (hp : p.length % 16 = 0) :
    (cbcEncrypt rk p iv).length = 16 + p.length := by
  unfold cbcEncrypt
  rw [length_bytesOfBlocks, List.length_cons, length_cbcEncryptBlocks, length_blocksOf]
  omega

theorem length_cbcDecrypt (rk : RoundKeys) (q : List Byte) (hq : q.length % 16 = 0) :
    (cbcDecrypt rk q).length = q.length - 16 := by
  unfold cbcDecrypt
  have hl : (blocksOf q (q.length / 16)).length = q.length / 16 := length_blocksOf _ _
  split
  · next h => rw [h, List.length_nil] at hl; simp only [List.length_nil]; omega
  · next h =>
    rw [h, List.length_cons] at hl
    rw [length_bytesOfBlocks, length_cbcDecryptBlocks]
    omega

end Sys2Proof.Laws
end

