-- ==== Sys2Proof/Laws/Exec.lean ====
section
/-! SUPPORT. Everything each command with a choice can do: one inversion lemma a command. -/

namespace Sys2Proof.Laws

open Sys2Proof.Machine

variable {s t : State}

theorem complete_next : complete s = .next t ↔ t = finish .ok s := by
  simp [complete, eq_comm]

theorem raiseErr_next {c : ErrCode} : raiseErr c s = .next t ↔ t = finish c s := by
  simp [raiseErr, eq_comm]

theorem raiseBufErr_next {c : ErrCode} : raiseBufErr c s = .next t ↔ t = finish c (loseOut s) := by
  simp [raiseBufErr, eq_comm]

theorem next_iff : (Host.Outcome.next s : Host.Outcome State Fault Refusal) = .next t ↔ t = s := by
  simp [eq_comm]

theorem execAddroundkey_cases {j : RoundIdx} (h : execAddroundkey j s = .next t) :
    (s.keyValid = false ∧ t = finish .missingKey s) ∨
    (s.keyValid = true ∧ t = finish .ok (writeState (addRoundKey s.state s.rk[j]) s)) := by
  unfold execAddroundkey at h
  cases hk : s.keyValid <;> simp only [hk, Bool.not_true, Bool.not_false, if_true, Bool.false_eq_true, if_false] at h
  · exact .inl ⟨rfl, raiseErr_next.1 h⟩
  · exact .inr ⟨rfl, complete_next.1 h⟩

theorem execAesenc_cases (h : execAesenc s = .next t) :
    (s.keyValid = false ∧ t = finish .missingKey s) ∨
    (s.keyValid = true ∧ t = finish .ok (writeState (cipher s.rk s.state) s)) := by
  unfold execAesenc at h
  cases hk : s.keyValid <;> simp only [hk, Bool.not_true, Bool.not_false, if_true, Bool.false_eq_true, if_false] at h
  · exact .inl ⟨rfl, raiseErr_next.1 h⟩
  · exact .inr ⟨rfl, complete_next.1 h⟩

theorem execAesdec_cases (h : execAesdec s = .next t) :
    (s.keyValid = false ∧ t = finish .missingKey s) ∨
    (s.keyValid = true ∧ t = finish .ok (writeState (invCipher s.rk s.state) s)) := by
  unfold execAesdec at h
  cases hk : s.keyValid <;> simp only [hk, Bool.not_true, Bool.not_false, if_true, Bool.false_eq_true, if_false] at h
  · exact .inl ⟨rfl, raiseErr_next.1 h⟩
  · exact .inr ⟨rfl, complete_next.1 h⟩

theorem execKeybind_cases {m : KeyMask} (h : execKeybind m s = .next t) :
    (((m.pub = true ∧ s.pubN < 2) ∨ (m.priv = true ∧ s.privN < 2)) ∧ t = finish .badOperand s) ∨
    ((m.pub = true → 2 ≤ s.pubN) ∧ (m.priv = true → 2 ≤ s.privN) ∧
      t = finish .ok { (if m.sym then bindSym s else s) with
        pubValid := s.pubValid || m.pub, privValid := s.privValid || m.priv }) := by
  unfold execKeybind at h
  split at h
  · next h1 => exact .inl ⟨.inl (by simpa using h1), raiseErr_next.1 h⟩
  · next h1 =>
    split at h
    · next h2 => exact .inl ⟨.inr (by simpa using h2), raiseErr_next.1 h⟩
    · next h2 =>
      refine .inr ⟨fun hm => by simp [hm] at h1; omega, fun hm => by simp [hm] at h2; omega, ?_⟩
      rw [complete_next] at h
      rw [h]
      cases m.sym <;> rfl

theorem execSymkeygen_cases (h : execSymkeygen s = .next t) :
    (argNat s ≠ 16 ∧ t = finish .badKeyLength s) ∨
    (argNat s = 16 ∧ s.abortReq = true ∧ drawWords 4 s.drawn = none ∧ t = finish .aborted s) ∨
    (argNat s = 16 ∧ ∃ ws, t = finish .ok (bindSym { s with key := blockOfWords ws })) ∨
    (argNat s = 16 ∧ s.abortReq = false ∧ drawWords 4 (s.drawn ++ s.rng) = none ∧ t = waitForWord s) ∨
    (argNat s = 16 ∧ ∃ ws rest, s.abortReq = false ∧ drawWords 4 (s.drawn ++ s.rng) = some (ws, rest) ∧
      t = finish .ok (bindSym { takeAllBut rest s with key := blockOfWords ws })) := by
  unfold execSymkeygen at h
  split at h
  · next h1 => exact .inl ⟨h1, raiseErr_next.1 h⟩
  · next h1 =>
    have h16 : argNat s = 16 := by simpa using h1
    rcases withDraws_cases h with ⟨ha, hp, he⟩ | ⟨v, rest, -, -, he⟩ | ⟨ha, hp, he⟩ | ⟨v, rest, ha, hp, he⟩
    · exact .inr (.inl ⟨h16, ha, hp, raiseErr_next.1 he.symm⟩)
    · exact .inr (.inr (.inl ⟨h16, v, complete_next.1 he.symm⟩))
    · exact .inr (.inr (.inr (.inl ⟨h16, ha, hp, next_iff.1 he.symm⟩)))
    · exact .inr (.inr (.inr (.inr ⟨h16, v, rest, ha, hp, complete_next.1 he.symm⟩)))

theorem cbcencCommit_next {iv : Block} : cbcencCommit iv s = .next t ↔
    t = finish .ok { writeOut (cbcEncrypt s.rk (pad (inBytes s (inLenNat s))) iv) s with iv := iv } := complete_next

theorem execCbcenc_cases {src : IvSource} (h : execCbcenc src s = .next t) :
    (∃ c, c ≠ .ok ∧ t = finish c (loseOut s)) ∨
    (s.keyValid = true ∧ inLenNat s ≤ s.cfg.bufBytes ∧ cbcOutLen (inLenNat s) ≤ s.cfg.bufBytes ∧
      (t = waitForWord s ∨
        ∃ iv u, (u = s ∨ ∃ rest, u = takeAllBut rest s) ∧
          t = finish .ok { writeOut (cbcEncrypt s.rk (pad (inBytes s (inLenNat s))) iv) u with iv := iv })) := by
  unfold execCbcenc at h
  split at h
  · exact .inl ⟨_, by simp, raiseBufErr_next.1 h⟩
  · next h1 =>
    split at h
    · exact .inl ⟨_, by simp, raiseBufErr_next.1 h⟩
    · next h2 =>
      split at h
      · exact .inl ⟨_, by simp, raiseBufErr_next.1 h⟩
      · next h3 =>
        have hk : s.keyValid = true := by simpa using h1
        split at h
        · rcases withDraws_cases h with ⟨ha, hp, he⟩ | ⟨v, rest, -, -, he⟩ | ⟨ha, hp, he⟩ | ⟨v, rest, ha, hp, he⟩
          · exact .inl ⟨_, by simp, raiseBufErr_next.1 he.symm⟩
          · exact .inr ⟨hk, by omega, by omega, .inr ⟨_, s, .inl rfl, cbcencCommit_next.1 he.symm⟩⟩
          · exact .inr ⟨hk, by omega, by omega, .inl (next_iff.1 he.symm)⟩
          · exact .inr ⟨hk, by omega, by omega, .inr ⟨_, _, .inr ⟨rest, rfl⟩, cbcencCommit_next.1 he.symm⟩⟩
        · exact .inr ⟨hk, by omega, by omega, .inr ⟨_, s, .inl rfl, cbcencCommit_next.1 h⟩⟩

/-- The plaintext length CBCDEC reads from the last recovered byte (44_cbc.md R194). -/
theorem execCbcdec_cases (h : execCbcdec s = .next t) :
    (∃ c, c ≠ .ok ∧ t = finish c (loseOut s)) ∨
    (s.keyValid = true ∧ inLenNat s ≤ s.cfg.bufBytes ∧ 32 ≤ inLenNat s ∧ inLenNat s % 16 = 0 ∧
      ∃ p, p = ((cbcDecrypt s.rk (inBytes s (inLenNat s))).getD (inLenNat s - 17) 0).toNat ∧ 1 ≤ p ∧ p ≤ 16 ∧
        t = finish .ok (writeOut ((cbcDecrypt s.rk (inBytes s (inLenNat s))).take (inLenNat s - 16 - p)) s)) := by
  unfold execCbcdec at h
  split at h
  · exact .inl ⟨_, by simp, raiseBufErr_next.1 h⟩
  · next h1 =>
    split at h
    · exact .inl ⟨_, by simp, raiseBufErr_next.1 h⟩
    · next h2 =>
      split at h
      · exact .inl ⟨_, by simp, raiseBufErr_next.1 h⟩
      · next h3 =>
        simp only at h
        split at h
        · exact .inl ⟨_, by simp, raiseBufErr_next.1 h⟩
        · next h4 =>
          exact .inr ⟨by simpa using h1, by omega, by omega, by omega, _, rfl, by omega, by omega, complete_next.1 h⟩

theorem execBmodexp_cases {a b c d : XReg} (h : execBmodexp a b c d s = .next t) :
    (xRead s d = 0 ∧ t = finish .badOperand s) ∨
    (xRead s d ≠ 0 ∧ t = finish .ok (xWrite a (powMod (xRead s b) (xRead s c) (xRead s d)) s)) := by
  unfold execBmodexp at h
  split at h
  · exact .inl ⟨‹_›, raiseErr_next.1 h⟩
  · exact .inr ⟨‹_›, complete_next.1 h⟩

theorem execBmodinv_cases {a b c : XReg} (h : execBmodinv a b c s = .next t) :
    (xRead s c = 0 ∧ t = finish .badOperand s) ∨
    (xRead s c ≠ 0 ∧ Nat.gcd (xRead s b) (xRead s c) ≠ 1 ∧ t = finish .notInvertible s) ∨
    (xRead s c ≠ 0 ∧ Nat.gcd (xRead s b) (xRead s c) = 1 ∧
      t = finish .ok (xWrite a (invMod (xRead s b) (xRead s c)) s)) := by
  unfold execBmodinv at h
  split at h
  · exact .inl ⟨‹_›, raiseErr_next.1 h⟩
  · next h1 =>
    split at h
    · exact .inr (.inl ⟨h1, ‹_›, raiseErr_next.1 h⟩)
    · next h2 => exact .inr (.inr ⟨h1, by simpa using h2, complete_next.1 h⟩)

theorem execBprime_cases {b : XReg} (h : execBprime b s = .next t) :
    (s.abortReq = true ∧ millerRabin s.cfg.mrRounds (xRead s b) s.drawn = none ∧ t = finish .aborted s) ∨
    (∃ r rest, s.abortReq = true ∧ millerRabin s.cfg.mrRounds (xRead s b) s.drawn = some (r, rest) ∧
      t = finish .ok { s with prime := r }) ∨
    (s.abortReq = false ∧ millerRabin s.cfg.mrRounds (xRead s b) (s.drawn ++ s.rng) = none ∧ t = waitForWord s) ∨
    (∃ r rest, s.abortReq = false ∧ millerRabin s.cfg.mrRounds (xRead s b) (s.drawn ++ s.rng) = some (r, rest) ∧
      t = finish .ok { takeAllBut rest s with prime := r }) := by
  rcases withDraws_cases h with ⟨ha, hp, he⟩ | ⟨v, rest, ha, hp, he⟩ | ⟨ha, hp, he⟩ | ⟨v, rest, ha, hp, he⟩
  · exact .inl ⟨ha, hp, raiseErr_next.1 he.symm⟩
  · exact .inr (.inl ⟨v, rest, ha, hp, complete_next.1 he.symm⟩)
  · exact .inr (.inr (.inl ⟨ha, hp, next_iff.1 he.symm⟩))
  · exact .inr (.inr (.inr ⟨v, rest, ha, hp, complete_next.1 he.symm⟩))

theorem execBrandprime_cases {a : XReg} (h : execBrandprime a s = .next t) :
    ((argNat s < 2 ∨ s.cfg.bigBits < argNat s) ∧ t = finish .badOperand s) ∨
    (2 ≤ argNat s ∧ argNat s ≤ s.cfg.bigBits ∧
      ((s.abortReq = true ∧ t = finish .aborted s) ∨
       (s.abortReq = false ∧ randPrime s.cfg.mrRounds (argNat s) (s.drawn ++ s.rng) = none ∧ t = waitForWord s) ∨
       ∃ v u, (u = s ∨ ∃ rest, u = takeAllBut rest s) ∧
         t = finish .ok (xWrite a (primeCandidate (argNat s) v) u))) := by
  unfold execBrandprime at h
  split at h
  · exact .inl ⟨‹_›, raiseErr_next.1 h⟩
  · next h1 =>
    refine .inr ⟨by omega, by omega, ?_⟩
    rcases withDraws_cases h with ⟨ha, hp, he⟩ | ⟨v, rest, ha, hp, he⟩ | ⟨ha, hp, he⟩ | ⟨v, rest, ha, hp, he⟩
    · exact .inl ⟨ha, raiseErr_next.1 he.symm⟩
    · obtain ⟨w, rfl⟩ := randPrime_candidate hp
      exact .inr (.inr ⟨w, s, .inl rfl, complete_next.1 he.symm⟩)
    · exact .inr (.inl ⟨ha, hp, next_iff.1 he.symm⟩)
    · obtain ⟨w, rfl⟩ := randPrime_candidate hp
      exact .inr (.inr ⟨w, _, .inr ⟨rest, rfl⟩, complete_next.1 he.symm⟩)

theorem rsakeygenCommit_cases {a b c : XReg} {p q : Nat} (h : rsakeygenCommit a b c (p, q) s = .next t) :
    (Nat.gcd (xRead s c) (phiOf p q) ≠ 1 ∧ t = finish .notInvertible s) ∨
    (Nat.gcd (xRead s c) (phiOf p q) = 1 ∧ t = finish .ok (xWrite b q (xWrite a p
      (writeKeyPair (xRead s c) (p * q) (invMod (xRead s c) (phiOf p q)) s)))) := by
  unfold rsakeygenCommit at h
  split at h
  · exact .inl ⟨‹_›, raiseErr_next.1 h⟩
  · next h1 => exact .inr ⟨by simpa using h1, complete_next.1 h⟩

theorem execRsakeygen_cases {a b c : XReg} (h : execRsakeygen a b c s = .next t) :
    ((argNat s < 2 ∨ s.cfg.bigBits < 2 * argNat s) ∧ t = finish .badOperand s) ∨
    (2 ≤ argNat s ∧ 2 * argNat s ≤ s.cfg.bigBits ∧
      ((s.abortReq = true ∧ t = finish .aborted s) ∨
       (s.abortReq = false ∧ drawPrimePair s.cfg.mrRounds (argNat s) (s.drawn ++ s.rng) = none ∧ t = waitForWord s) ∨
       ∃ v w u, (u = s ∨ ∃ rest, u = takeAllBut rest s) ∧
         rsakeygenCommit a b c (primeCandidate (argNat s) v, primeCandidate (argNat s) w) u = .next t)) := by
  unfold execRsakeygen at h
  split at h
  · exact .inl ⟨‹_›, raiseErr_next.1 h⟩
  · next h1 =>
    refine .inr ⟨by omega, by omega, ?_⟩
    rcases withDraws_cases h with ⟨ha, hp, he⟩ | ⟨v, rest, ha, hp, he⟩ | ⟨ha, hp, he⟩ | ⟨v, rest, ha, hp, he⟩
    · exact .inl ⟨ha, raiseErr_next.1 he.symm⟩
    · obtain ⟨⟨x, hx⟩, y, hy⟩ := drawPrimePair_candidates (p := v.1) (q := v.2) hp
      exact .inr (.inr ⟨x, y, s, .inl rfl, by rw [← hx, ← hy]; exact he.symm⟩)
    · exact .inr (.inl ⟨ha, hp, next_iff.1 he.symm⟩)
    · obtain ⟨⟨x, hx⟩, y, hy⟩ := drawPrimePair_candidates (p := v.1) (q := v.2) hp
      exact .inr (.inr ⟨x, y, _, .inr ⟨rest, rfl⟩, by rw [← hx, ← hy]; exact he.symm⟩)

theorem execRsaenc_cases (h : execRsaenc s = .next t) :
    (∃ c, c ≠ .ok ∧ t = finish c (loseOut s)) ∨
    (s.pubValid = true ∧ inLenNat s ≤ s.cfg.bufBytes ∧ inLenNat s + s.cfg.digestSize + 2 ≤ blen s.pubN ∧
      blen s.pubN ≤ s.cfg.bufBytes ∧
      t = finish .ok (writeOut (rsaEncrypt s.cfg.digest s.pubE s.pubN (inBytes s (inLenNat s))) s)) := by
  unfold execRsaenc at h
  split at h
  · exact .inl ⟨_, by simp, raiseBufErr_next.1 h⟩
  · next h1 =>
    split at h
    · exact .inl ⟨_, by simp, raiseBufErr_next.1 h⟩
    · next h2 =>
      split at h
      · exact .inl ⟨_, by simp, raiseBufErr_next.1 h⟩
      · next h3 =>
        split at h
        · exact .inl ⟨_, by simp, raiseBufErr_next.1 h⟩
        · next h4 => exact .inr ⟨by simpa using h1, by omega, by omega, by omega, complete_next.1 h⟩

theorem execRsadec_cases (h : execRsadec s = .next t) :
    (∃ c, c ≠ .ok ∧ t = finish c (loseOut s)) ∨
    (s.privValid = true ∧ inLenNat s ≤ s.cfg.bufBytes ∧ inLenNat s = blen s.privN ∧
      ∃ r, rsaUnpad s.cfg.digestSize (rsaDecryptBuf s.privD s.privN (inBytes s (inLenNat s))) = some r ∧
        t = finish .ok (writeOut r s)) := by
  unfold execRsadec at h
  split at h
  · exact .inl ⟨_, by simp, raiseBufErr_next.1 h⟩
  · next h1 =>
    split at h
    · exact .inl ⟨_, by simp, raiseBufErr_next.1 h⟩
    · next h2 =>
      split at h
      · exact .inl ⟨_, by simp, raiseBufErr_next.1 h⟩
      · next h3 =>
        split at h
        · exact .inl ⟨_, by simp, raiseBufErr_next.1 h⟩
        · next r hr => exact .inr ⟨by simpa using h1, by omega, by simpa using h3, r, hr, complete_next.1 h⟩

/-- The unpadded message is no longer than the buffer (46_rsa.md R244). -/
theorem length_rsaUnpad {ds : Nat} {buf r : List Byte} (h : rsaUnpad ds buf = some r) : r.length ≤ buf.length := by
  simp only [rsaUnpad] at h
  split at h
  · cases h
  · split at h
    · cases h
    · simp only [Option.some.injEq] at h
      subst h
      simp

end Sys2Proof.Laws
end

