-- ==== Sys2Proof/Laws/Completion.lean ====
section
/-! SUPPORT. How a command ends: at once when it draws nothing, else by its drawing part; what of the state no command reads; and
what a command does that has drawn all its words. -/

namespace Sys2Proof.Laws

open Sys2Proof.Machine

/-- A command without draws finishes, and takes no word. -/
theorem finishes_of_not_draws {i : Instr} {s t : State} (hd : draws i = false) (h : exec i s = .next t) :
    t.seq = .idle ∧ t.done = true ∧ t.abortReq = false ∧ t.drawn = [] ∧ t.rng = s.rng ∧ t.rngPos = s.rngPos := by
  cases i <;> simp only [exec] at h <;> (try cases hd)
  case addroundkey j => rcases execAddroundkey_cases h with ⟨_, rfl⟩ | ⟨_, rfl⟩ <;> simp [finish, writeState]
  case keybind m => rcases execKeybind_cases h with ⟨_, rfl⟩ | ⟨_, _, rfl⟩ <;> cases m.sym <;> simp [finish, bindSym]
  case aesenc => rcases execAesenc_cases h with ⟨_, rfl⟩ | ⟨_, rfl⟩ <;> simp [finish, writeState]
  case aesdec => rcases execAesdec_cases h with ⟨_, rfl⟩ | ⟨_, rfl⟩ <;> simp [finish, writeState]
  case cbcenc src =>
    cases src
    · cases hd
    · unfold execCbcenc at h
      repeat' split at h
      all_goals first
        | (rw [raiseBufErr_next] at h; subst h; simp [finish, loseOut])
        | (rw [cbcencCommit_next] at h; subst h; simp [finish, writeOut])
        | skip
      all_goals simp at *
  case cbcdec => rcases execCbcdec_cases h with ⟨_, _, rfl⟩ | ⟨_, _, _, _, _, _, _, _, rfl⟩ <;> simp [finish, writeOut, loseOut]
  case bmodexp => rcases execBmodexp_cases h with ⟨_, rfl⟩ | ⟨_, rfl⟩ <;> simp [finish, xWrite]
  case bmodinv => rcases execBmodinv_cases h with ⟨_, rfl⟩ | ⟨_, _, rfl⟩ | ⟨_, _, rfl⟩ <;> simp [finish, xWrite]
  case rsaenc => rcases execRsaenc_cases h with ⟨_, _, rfl⟩ | ⟨_, _, _, _, rfl⟩ <;> simp [finish, writeOut, loseOut]
  case rsadec => rcases execRsadec_cases h with ⟨_, _, rfl⟩ | ⟨_, _, _, _, _, rfl⟩ <;> simp [finish, writeOut, loseOut]
  all_goals (cases h; simp [finish, writeState, writeRes, xWrite])

/-- An outcome with its next state changed. -/
def mapNext (f : State → State) : Host.Outcome State Fault Refusal → Host.Outcome State Fault Refusal
  | .next t => .next (f t)
  | .fault r => .fault r
  | .refused r => .refused r

theorem ite_mapNext {c c' : Prop} [Decidable c] [Decidable c'] {f : State → State}
    {a b a' b' : Host.Outcome State Fault Refusal} (hc : c ↔ c') (ha : a = mapNext f a') (hb : b = mapNext f b') :
    (if c then a else b) = mapNext f (if c' then a' else b') := by
  by_cases h : c
  · rw [if_pos h, if_pos (hc.1 h), ha]
  · rw [if_neg h, if_neg (mt hc.2 h), hb]

/-- The state of a command's draws: the abort request, the words drawn, the words offered, the count of words taken. -/
abbrev withDrawState (s : State) (r : Bool) (d g : List Word) (n : Nat) : State :=
  { s with abortReq := r, drawn := d, rng := g, rngPos := n }

/-- A drawing command either ends with an error whatever the state of its draws, or is a local drawing part whose end neither
reads nor keeps the abort request and the words drawn, and leaves the words on offer and their count as they are. -/
theorem drawing_shape (i : Instr) (hd : draws i = true) (s : State) :
    (∃ c, c ≠ ErrCode.ok ∧ ∀ r d g n, exec i (withDrawState s r d g n) =
      if isBufferCommand i then raiseBufErr c (withDrawState s r d g n) else raiseErr c (withDrawState s r d g n)) ∨
    (∃ (α : Type) (p : Draw α) (k : α → State → Host.Outcome State Fault Refusal), DrawLocal p ∧
      (∀ v u, ∃ t, k v u = .next t ∧ t.seq = .idle ∧ t.done = true ∧ t.abortReq = false ∧ t.drawn = [] ∧ t.rng = u.rng ∧
        t.rngPos = u.rngPos ∧ (t.errcode ≠ .ok → t = finish t.errcode u ∧ isBufferCommand i = false)) ∧
      (∀ v u r d, k v { u with abortReq := r, drawn := d } = k v u) ∧
      (∀ v u g n, k v { u with rng := g, rngPos := n } = mapNext (fun t => { t with rng := g, rngPos := n }) (k v u)) ∧
      ∀ r d g n, exec i (withDrawState s r d g n) =
        withDraws p (if isBufferCommand i then raiseBufErr .aborted else raiseErr .aborted) k (withDrawState s r d g n)) := by
  cases i <;> (try cases hd)
  case symkeygen =>
    by_cases h : argNat s = 16
    · right
      refine ⟨_, drawWords 4, (fun ws t => complete (bindSym { t with key := blockOfWords ws })), local_drawWords 4,
        ?_, ?_, fun _ _ _ _ => rfl, ?_⟩
      · intro v u; exact ⟨_, rfl, rfl, rfl, rfl, rfl, rfl, rfl, fun h => absurd rfl h⟩
      · intro v u r d; rfl
      · intro r d g n; simp only [exec, execSymkeygen]; rw [if_neg (by exact fun hh => hh h)]; rfl
    · left
      refine ⟨.badKeyLength, by simp, ?_⟩
      intro r d g n; simp only [exec, execSymkeygen]; rw [if_pos (by exact h)]; rfl
  case cbcenc src =>
    cases src
    case ivreg => cases hd
    case rng =>
    by_cases h1 : (!s.keyValid) = true
    · left
      refine ⟨.missingKey, by simp, ?_⟩
      intro r d g n; simp only [exec, execCbcenc]; rw [if_pos (by exact h1)]; rfl
    · by_cases h2 : s.cfg.bufBytes < inLenNat s
      · left
        refine ⟨.bufferOverflow, by simp, ?_⟩
        intro r d g n; simp only [exec, execCbcenc]; rw [if_neg (by exact h1), if_pos (by exact h2)]; rfl
      · by_cases h3 : s.cfg.bufBytes < cbcOutLen (inLenNat s)
        · left
          refine ⟨.bufferOverflow, by simp, ?_⟩
          intro r d g n; simp only [exec, execCbcenc]
          rw [if_neg (by exact h1), if_neg (by exact h2), if_pos (by exact h3)]; rfl
        · right
          refine ⟨_, drawWords 4, (fun ws t => cbcencCommit (blockOfWords ws) t), local_drawWords 4, ?_, ?_, ?_, ?_⟩
          · intro v u; unfold cbcencCommit complete; refine ⟨_, rfl, ?_⟩; simp [finish, writeOut]
          · intro v u r d; simp only [cbcencCommit, complete, finish, writeOut, inBytes, inLenNat]
          · intro v u g n; simp only [cbcencCommit, complete, mapNext, finish, writeOut, inBytes, inLenNat]
          · intro r d g n; simp only [exec, execCbcenc]
            rw [if_neg (by exact h1), if_neg (by exact h2), if_neg (by exact h3)]; simp only [isBufferCommand, if_true]
  case bprime b =>
    right
    refine ⟨_, millerRabin s.cfg.mrRounds (xRead s b), (fun r t => complete { t with prime := r }), local_millerRabin _ _,
      ?_, ?_, fun _ _ _ _ => rfl, ?_⟩
    · intro v u; exact ⟨_, rfl, rfl, rfl, rfl, rfl, rfl, rfl, fun h => absurd rfl h⟩
    · intro v u r d; rfl
    · intro r d g n; rfl
  case brandprime a =>
    by_cases h : argNat s < 2 ∨ s.cfg.bigBits < argNat s
    · left
      refine ⟨.badOperand, by simp, ?_⟩
      intro r d g n; simp only [exec, execBrandprime]; rw [if_pos (by exact h)]; rfl
    · right
      refine ⟨_, randPrime s.cfg.mrRounds (argNat s), (fun p t => complete (xWrite a p t)),
        local_randPrime _ (by omega), ?_, ?_, fun _ _ _ _ => rfl, ?_⟩
      · intro v u; exact ⟨_, rfl, rfl, rfl, rfl, rfl, rfl, rfl, fun h => absurd rfl h⟩
      · intro v u r d; rfl
      · intro r d g n; simp only [exec, execBrandprime]; rw [if_neg (by exact h)]; rfl
  case rsakeygen a b c =>
    by_cases h : argNat s < 2 ∨ s.cfg.bigBits < 2 * argNat s
    · left
      refine ⟨.badOperand, by simp, ?_⟩
      intro r d g n; simp only [exec, execRsakeygen]; rw [if_pos (by exact h)]; rfl
    · right
      refine ⟨_, drawPrimePair s.cfg.mrRounds (argNat s), rsakeygenCommit a b c,
        local_drawPrimePair _ (by omega), ?_, ?_,
        (fun v u _ _ => ite_mapNext (c' := Nat.gcd (xRead u c) (phiOf v.1 v.2) ≠ 1) .rfl rfl rfl), ?_⟩
      · intro v u; unfold rsakeygenCommit; split
        · exact ⟨_, rfl, rfl, rfl, rfl, rfl, rfl, rfl, fun _ => ⟨rfl, rfl⟩⟩
        · exact ⟨_, rfl, rfl, rfl, rfl, rfl, rfl, rfl, fun h => absurd rfl h⟩
      · intro v u r d; unfold rsakeygenCommit
        show (if Nat.gcd (xRead u c) _ ≠ 1 then _ else _) = _
        split <;> rfl
      · intro r d g n; simp only [exec, execRsakeygen]; rw [if_neg (by exact h)]; rfl

/-! ### What no command reads -/

/-- What the host sees and sends, but for its writes to registers: IE, the answer to the last access, the events to come. -/
abbrev withHost (s : State) (e : Bool) (r : BusResponse) (es : List Event) : State :=
  { s with ie := e, resp := r, inputs := es }

theorem withDraws_withHost {α : Type} {p : Draw α} {onAbort : State → Host.Outcome State Fault Refusal}
    {k : α → State → Host.Outcome State Fault Refusal} {e : Bool} {r : BusResponse} {es : List Event}
    (h1 : ∀ s, onAbort (withHost s e r es) = mapNext (withHost · e r es) (onAbort s))
    (h2 : ∀ v s, k v (withHost s e r es) = mapNext (withHost · e r es) (k v s)) (s : State) :
    withDraws p onAbort k (withHost s e r es) = mapNext (withHost · e r es) (withDraws p onAbort k s) := by
  unfold withDraws
  dsimp only
  split
  · split
    · exact h1 s
    · exact h2 _ s
  · split
    · rfl
    · exact h2 _ (takeAllBut _ s)

/-- No command reads or writes IE, the answer to the last access or the events to come. -/
theorem exec_withHost (i : Instr) (s : State) (e : Bool) (r : BusResponse) (es : List Event) :
    exec i (withHost s e r es) = mapNext (withHost · e r es) (exec i s) := by
  have hc : ∀ iv t, cbcencCommit iv (withHost t e r es) = mapNext (withHost · e r es) (cbcencCommit iv t) := by
    intro iv t
    simp only [cbcencCommit, complete, mapNext, finish, writeOut, inBytes, inLenNat]
  cases i <;> try rfl
  case addroundkey => exact ite_mapNext .rfl rfl rfl
  case keybind m =>
    refine ite_mapNext .rfl rfl (ite_mapNext .rfl rfl ?_)
    cases m.sym <;> rfl
  case symkeygen => exact ite_mapNext .rfl rfl (withDraws_withHost (fun _ => rfl) (fun _ _ => rfl) s)
  case aesenc => exact ite_mapNext .rfl rfl rfl
  case aesdec => exact ite_mapNext .rfl rfl rfl
  case cbcenc src =>
    refine ite_mapNext .rfl rfl (ite_mapNext .rfl rfl (ite_mapNext .rfl rfl ?_))
    cases src
    · exact withDraws_withHost (fun _ => rfl) (fun _ t => hc _ t) s
    · exact hc s.iv s
  case cbcdec =>
    refine ite_mapNext .rfl rfl (ite_mapNext .rfl rfl (ite_mapNext .rfl rfl (ite_mapNext .rfl rfl ?_)))
    simp only [complete, mapNext, finish, writeOut, inBytes, inLenNat]
  case bmodexp => exact ite_mapNext .rfl rfl rfl
  case bmodinv => exact ite_mapNext .rfl rfl (ite_mapNext .rfl rfl rfl)
  case bprime b =>
    exact withDraws_withHost (p := millerRabin s.cfg.mrRounds (xRead s b)) (k := fun r t => complete { t with prime := r })
      (fun _ => rfl) (fun _ _ => rfl) s
  case brandprime => exact ite_mapNext .rfl rfl (withDraws_withHost (fun _ => rfl) (fun _ _ => rfl) s)
  case rsakeygen a b c =>
    exact ite_mapNext .rfl rfl (withDraws_withHost (k := rsakeygenCommit a b c) (fun _ => rfl)
      (fun v t => ite_mapNext (c' := Nat.gcd (xRead t c) (phiOf v.1 v.2) ≠ 1) .rfl rfl rfl) s)
  case rsaenc =>
    refine ite_mapNext .rfl rfl (ite_mapNext .rfl rfl (ite_mapNext .rfl rfl (ite_mapNext .rfl rfl ?_)))
    simp only [complete, mapNext, finish, writeOut, inBytes, inLenNat]
  case rsadec =>
    refine ite_mapNext .rfl rfl (ite_mapNext .rfl rfl (ite_mapNext .rfl rfl ?_))
    dsimp only [inBytes, inLenNat]
    split
    · rfl
    · simp only [complete, mapNext, finish, writeOut]

/-- A command without draws reads neither the abort request nor the words on offer, and leaves the words where they are. -/
theorem exec_abort_of_not_draws {i : Instr} (hd : draws i = false) (s : State) (r : Bool) (g : List Word) :
    exec i { s with abortReq := r, rng := g } = mapNext (fun t => { t with rng := g }) (exec i s) := by
  cases i <;> (try cases hd) <;> try rfl
  case addroundkey => exact ite_mapNext .rfl rfl rfl
  case keybind m =>
    refine ite_mapNext .rfl rfl (ite_mapNext .rfl rfl ?_)
    cases m.sym <;> rfl
  case aesenc => exact ite_mapNext .rfl rfl rfl
  case aesdec => exact ite_mapNext .rfl rfl rfl
  case cbcenc src =>
    cases src
    · cases hd
    · refine ite_mapNext .rfl rfl (ite_mapNext .rfl rfl (ite_mapNext .rfl rfl ?_))
      simp only [cbcencCommit, complete, mapNext, finish, writeOut, inBytes, inLenNat]
  case cbcdec =>
    refine ite_mapNext .rfl rfl (ite_mapNext .rfl rfl (ite_mapNext .rfl rfl (ite_mapNext .rfl rfl ?_)))
    simp only [complete, mapNext, finish, writeOut, inBytes, inLenNat]
  case bmodexp => exact ite_mapNext .rfl rfl rfl
  case bmodinv => exact ite_mapNext .rfl rfl (ite_mapNext .rfl rfl rfl)
  case rsaenc =>
    refine ite_mapNext .rfl rfl (ite_mapNext .rfl rfl (ite_mapNext .rfl rfl (ite_mapNext .rfl rfl ?_)))
    simp only [complete, mapNext, finish, writeOut, inBytes, inLenNat]
  case rsadec =>
    refine ite_mapNext .rfl rfl (ite_mapNext .rfl rfl (ite_mapNext .rfl rfl ?_))
    dsimp only [inBytes, inLenNat]
    split
    · rfl
    · simp only [complete, mapNext, finish, writeOut]

end Sys2Proof.Laws
end

