-- ==== Sys2Proof/Laws/PerInstr.lean ====
section
/-! SUPPORT. What holds of every instruction's command word, one lemma per constructor (30_encoding.md R101, R105, R108). -/

namespace Sys2Proof.Laws.OpcodeField

/-- The opcode field holds the instruction's opcode, and the reserved field is 0. -/
def Statement (i : Instr) : Prop := fieldOP (encode i) = opcodeOf i ∧ fieldRSV (encode i) = 0

/-- The opcode and reserved fields of a packed word. -/
theorem packWord_fields (op : Byte) (fa fb fc fd : Nibble) :
    fieldOP (packWord op fa fb fc fd) = op ∧ fieldRSV (packWord op fa fb fc fd) = 0 := by
  constructor
  · unfold fieldOP packWord
    exact BitVec.extractLsb'_append_eq_right
  · unfold fieldRSV packWord
    ext i hi
    simp only [BitVec.getElem_extractLsb', BitVec.getLsbD_append]
    simp [show ¬ 24 + i < 8 by omega, show ¬ 24 + i - 8 < 4 by omega, show ¬ 24 + i - 8 - 4 < 4 by omega,
      show ¬ 24 + i - 8 - 4 - 4 < 4 by omega, show ¬ 24 + i - 8 - 4 - 4 - 4 < 4 by omega]

theorem nop : Statement .nop := packWord_fields _ _ _ _ _
theorem gfmul : Statement .gfmul := packWord_fields _ _ _ _ _
theorem xtime : Statement .xtime := packWord_fields _ _ _ _ _
theorem sbox : Statement .sbox := packWord_fields _ _ _ _ _
theorem invsbox : Statement .invsbox := packWord_fields _ _ _ _ _
theorem subbytes : Statement .subbytes := packWord_fields _ _ _ _ _
theorem invsubbytes : Statement .invsubbytes := packWord_fields _ _ _ _ _
theorem shiftrows : Statement .shiftrows := packWord_fields _ _ _ _ _
theorem invshiftrows : Statement .invshiftrows := packWord_fields _ _ _ _ _
theorem mixcolumns : Statement .mixcolumns := packWord_fields _ _ _ _ _
theorem invmixcolumns : Statement .invmixcolumns := packWord_fields _ _ _ _ _
theorem addroundkey (j : RoundIdx) : Statement (.addroundkey j) := packWord_fields _ _ _ _ _
theorem keybind (m : KeyMask) : Statement (.keybind m) := packWord_fields _ _ _ _ _
theorem keyunbind (m : KeyMask) : Statement (.keyunbind m) := packWord_fields _ _ _ _ _
theorem symkeygen : Statement .symkeygen := packWord_fields _ _ _ _ _
theorem aesenc : Statement .aesenc := packWord_fields _ _ _ _ _
theorem aesdec : Statement .aesdec := packWord_fields _ _ _ _ _
theorem cbcenc (src : IvSource) : Statement (.cbcenc src) := packWord_fields _ _ _ _ _
theorem cbcdec : Statement .cbcdec := packWord_fields _ _ _ _ _
theorem bmul (a b c : XReg) : Statement (.bmul a b c) := packWord_fields _ _ _ _ _
theorem bmodexp (a b c d : XReg) : Statement (.bmodexp a b c d) := packWord_fields _ _ _ _ _
theorem bmodinv (a b c : XReg) : Statement (.bmodinv a b c) := packWord_fields _ _ _ _ _
theorem bprime (b : XReg) : Statement (.bprime b) := packWord_fields _ _ _ _ _
theorem brandprime (a : XReg) : Statement (.brandprime a) := packWord_fields _ _ _ _ _
theorem rsakeygen (a b c : XReg) : Statement (.rsakeygen a b c) := packWord_fields _ _ _ _ _
theorem rsaenc : Statement .rsaenc := packWord_fields _ _ _ _ _
theorem rsadec : Statement .rsadec := packWord_fields _ _ _ _ _

end Sys2Proof.Laws.OpcodeField
end

