-- ==== Sys2Proof/Laws/Step.lean ====
section
/-! SUPPORT. Everything a step can do: one inversion lemma for the sequencer, the coincident access, the event and the step,
and the induction over steps. -/

namespace Sys2Proof.Laws

open Sys2Proof.Machine

variable {s t : State}

/-- What the sequencer's move can do. -/
theorem runSequencer_cases (h : runSequencer s = .next t) :
    ((s.rstn = false ∨ s.seq = .idle) ∧ t = s) ∨
    (s.rstn = true ∧ s.seq = .init ∧ t = endInit s) ∨
    (s.rstn = true ∧ s.seq = .busy ∧ ∃ e, decode s.cmd = .error e ∧ t = finish .illegalCommand s) ∨
    (s.rstn = true ∧ s.seq = .busy ∧ ∃ i, decode s.cmd = .ok i ∧ exec i s = .next t) := by
  unfold runSequencer at h
  split at h
  · next hr => exact .inl ⟨.inl (by simpa using hr), next_iff.1 h⟩
  · next hr =>
    have hr : s.rstn = true := by simpa using hr
    split at h
    · next hs => exact .inr (.inl ⟨hr, hs, next_iff.1 h⟩)
    · next hs => exact .inl ⟨.inr hs, next_iff.1 h⟩
    · next hs =>
      simp only [runCommand, fetchCommand] at h
      split at h
      · next i hi => exact .inr (.inr (.inr ⟨hr, hs, i, hi, h⟩))
      · next e he => exact .inr (.inr (.inl ⟨hr, hs, e, he, raiseErr_next.1 h⟩))

/-- What an access in the cycle of a finish can do. -/
theorem accessAtFinish_cases {acc : Access} (h : accessAtFinish acc s = .next t) :
    (busy s = false ∧ t = access acc s) ∨
    (busy s = true ∧ ∃ u, runSequencer { access acc s with abortReq := s.abortReq } = .next u ∧
      ((busy u = true ∧ t = { u with abortReq := (access acc s).abortReq }) ∨ (busy u = false ∧ t = u))) := by
  unfold accessAtFinish at h
  cases hb : busy s
  · simp only [hb, Bool.not_false, if_true] at h
    exact .inl ⟨rfl, next_iff.1 h⟩
  · simp only [hb, Bool.not_true, Bool.false_eq_true, if_false] at h
    refine .inr ⟨rfl, ?_⟩
    split at h
    · next u hu =>
      rw [next_iff] at h
      refine ⟨u, hu, ?_⟩
      cases hbu : busy u
      · exact .inr ⟨rfl, by simpa [hbu] using h⟩
      · exact .inl ⟨rfl, by simpa [hbu] using h⟩
    · cases h
    · cases h

/-- When the running command awaits a word: its own word decodes, and with none on offer it waits. -/
theorem awaitsWord_iff : awaitsWord s = true ↔
    s.rstn = true ∧ s.seq = .busy ∧
      ∃ i u, decode s.cmd = .ok i ∧ exec i { s with rng := [] } = .next u ∧ u.seq = .busy := by
  constructor
  · intro h
    unfold awaitsWord at h
    split at h
    · next u hu =>
      have hb : s.rstn = true ∧ u.seq = .busy := by simpa using h
      rcases runSequencer_cases hu with ⟨hr | hr, rfl⟩ | ⟨-, -, rfl⟩ | ⟨-, -, e, -, rfl⟩ | ⟨hr, hs, i, hi, hx⟩
      · rw [show s.rstn = false from hr] at hb; cases hb.1
      · rw [hr] at hb; cases hb.2
      · cases hb.2
      · cases hb.2
      · exact ⟨hr, hs, i, u, hi, hx, hb.2⟩
    · cases h
    · cases h
  · rintro ⟨hr, hs, i, u, hi, hx, hu⟩
    have hm : runSequencer { s with rng := [] } = .next u := by
      simpa only [runSequencer, runCommand, fetchCommand, hr, hs, hi, Bool.not_true, Bool.false_eq_true, if_false] using hx
    rw [awaitsWord, hm]
    simp [hr, hu]

/-- What a draw by itself can do: nothing, or one word for a command that awaits it. -/
theorem drawOne_cases (s : State) :
    (drawOne s = s ∧ (s.rng = [] ∨ awaitsWord s = false)) ∨
    ∃ w ws, s.rng = w :: ws ∧ awaitsWord s = true ∧ drawOne s = takeWord w ws s := by
  unfold drawOne
  split
  · next h => exact .inl ⟨rfl, .inl h⟩
  · next w ws h =>
    cases ha : awaitsWord s
    · exact .inl ⟨rfl, .inr rfl⟩
    · exact .inr ⟨w, ws, h, rfl, rfl⟩

/-- What a step can do: the sequencer's move when no event is listed, else the oldest event's effect. -/
theorem step_cases (h : step s = .next t) :
    (s.inputs = [] ∧ runSequencer s = .next t) ∨
    ∃ e es, s.inputs = e :: es ∧ handleEvent e { s with inputs := es } = .next t := by
  simp only [step, stepEvent] at h
  split at h
  · next hi => exact .inl ⟨hi, h⟩
  · next e es hi => exact .inr ⟨e, es, hi, h⟩

/-- What holds at the start and is kept by every step holds along every run of next states. -/
theorem keeps_along {P : State → Prop} (hstep : ∀ s t, P s → step s = .next t → P t) :
    ∀ (n : Nat) (s t : State), P s → Sys2Proof.core.run n s = .next t → P t := by
  intro n
  induction n with
  | zero =>
    intro s t hs h
    have : t = s := next_iff.1 h
    exact this ▸ hs
  | succ n ih =>
    intro s t hs h
    simp only [Host.Core.run, Sys2Proof.core] at h
    split at h
    · next u hu => exact ih u t (hstep s u hs hu) h
    · cases h
    · cases h

end Sys2Proof.Laws
end

