-- ==== Sys2Proof/Laws/Terms.lean ====
section
/-! SUPPORT. The terms of claims (Safety.lean) beside the machine's definitions: what each is in the other's words. -/

namespace Sys2Proof.Laws

open Sys2Proof.Machine

/-! ### Registers and bytes -/

/-- A written big-integer register reads back, the others as before. -/
theorem xRead_xWrite (a i : XReg) (v : Nat) (s : State) : xRead (xWrite a v s) i = if i = a then v else xRead s i := by
  unfold xRead xWrite
  simp only [Fin.getElem_fin, Vector.getElem_set]
  by_cases h : i = a
  · simp [h]
  · rw [if_neg (by intro hh; exact h (Fin.ext hh.symm)), if_neg h]

/-- Four drawn words as a block, in both spellings. -/
theorem blockOfWords_eq_drawnBlock (w0 w1 w2 w3 : Word) : blockOfWords [w0,w1,w2,w3] = drawnBlock w0 w1 w2 w3 := by
  apply Vector.ext
  intro i hi
  simp only [blockOfWords, drawnBlock, Vector.getElem_ofFn, wordByte]
  ext k hk; simp [BitVec.getElem_extractLsb', BitVec.getElem_setWidth]

theorem message_eq_inBytes (s : State) (n : Nat) : message s n = inBytes s n := rfl

theorem natSize_eq_bitlen (n : Nat) : Nat.size n = bitlen n := by
  apply le_antisymm
  · rw [Nat.size_le]; exact lt_two_pow_bitlen n
  · rw [bitlen_le_iff]; exact Nat.lt_size_self n

theorem byteLength_eq_blen (n : Nat) : byteLength n = blen n := by
  unfold byteLength blen ceilDiv; rw [natSize_eq_bitlen]; rfl

theorem bigEndian_eq_beNat (s : List Byte) : bigEndian s = beNat s := by
  unfold bigEndian
  induction s using List.reverseRecOn with
  | nil => rfl
  | append_singleton s b ih =>
    rw [beNat_append, ← ih, List.reverse_append]
    simp [Nat.ofDigits_cons]
    ring

theorem paddedMessage_eq_rsaPadded (c : Config) (k : Nat) (m : List Byte) : paddedMessage c k m = rsaPadded c.digest k m := by
  simp [paddedMessage, rsaPadded, rep]

theorem getD_beBytes (k v i : Nat) (h : i < k) : (beBytes k v).getD i 0 = bigEndianByte k v i := by
  rw [List.getD_eq_getElem _ _ (by simpa using h)]
  simp [beBytes, bigEndianByte]

/-! ### OUT and IN -/

/-- A buffer command's error, as claims say it. -/
theorem bufferErrorFrom_loseOut (c : ErrCode) (s : State) : BufferErrorFrom c s (finish c (loseOut s)) :=
  ⟨freeOut s.cfg.bufBytes s.fresh, s.fresh + 1, by simp only [finish, loseOut, ended]⟩

/-- Reading OUT after a string was written at its start. -/
theorem memRead_memWriteBytes_out {m : Memory} (hm : Memory.wf m = true) (bs : List Byte) (i : Nat) :
   memRead (memWriteBytes m outBase bs) (0x2000 + i) = if i < bs.length then bs.getD i 0 else memRead m (0x2000+i) := by
  rw [memRead_memWriteBytes _ hm]
  unfold outBase
  by_cases h : i < bs.length
  · rw [if_pos (by omega), if_pos h, show 0x2000 + i - 0x2000 = i by omega]
  · rw [if_neg (by omega), if_neg h]

/-- A string written at the start of OUT, as claims say it. -/
theorem outWritten_memWriteBytes (s t : State) (bs : List Byte) (n : Nat) (f : Nat → Byte)
    (hwf : Memory.wf s.outBuf = true) (hn : bs.length = n) (hlt : n < 2 ^ 32) (hf : ∀ i, i < n → bs.getD i 0 = f i)
    (h1 : t.outBuf = memWriteBytes s.outBuf outBase bs) (h2 : t.outLen = BitVec.ofNat 32 bs.length) : OutWritten s t n f := by
  constructor
  · intro a
    rw [h1, memRead_memWriteBytes _ hwf, hn]
    unfold outBase
    by_cases ha : 0x2000 ≤ a ∧ a < 0x2000 + n
    · rw [if_pos ha, if_pos ha, hf _ (by omega)]
    · rw [if_neg ha, if_neg ha]
  · rw [h2, hn]; simp; omega

/-- Blocks written to OUT read back. -/
theorem outBlock_bytesOfBlocks {m : Memory} (hm : Memory.wf m = true) (bs : List Block) (t : State)
    (ht : t.outBuf = memWriteBytes m outBase (bytesOfBlocks bs)) (k : Nat) (hk : k < bs.length) : outBlock t k = bs[k] := by
  apply Vector.ext
  intro i hi
  simp only [outBlock, Vector.getElem_ofFn, outByte, ht]
  rw [memRead_memWriteBytes_out hm, if_pos (by rw [length_bytesOfBlocks]; omega), getD_bytesOfBlocks _ _ _ hk hi]

/-- A block of the bytes of IN. -/
theorem blockAt_inBytes (s : State) (n k : Nat) (h : 16 * k + 16 ≤ n) : blockAt (inBytes s n) k = inBlock s k := by
  apply Vector.ext
  intro i hi
  rw [getElem_blockAt _ _ _ hi]
  simp only [inBlock, Vector.getElem_ofFn, inByte]
  rw [List.getD_eq_getElem _ _ (by simp [inBytes]; omega)]
  simp only [inBytes]; rw [getElem_memReadBytes]; rfl

/-! ### CBC -/

/-- Each cipher block of CBC is made from the one before. -/
theorem cbcEncryptBlocks_getElem (rk : RoundKeys) : ∀ (ps : List Block) (prev : Block) (k : Nat) (hk : k < ps.length),
    ((prev :: cbcEncryptBlocks rk prev ps)[k + 1]'(by simp; omega)) =
      cipher rk (blockXor ps[k] ((prev :: cbcEncryptBlocks rk prev ps)[k]'(by simp; omega))) := by
  intro ps
  induction ps with
  | nil => intro prev k hk; simp at hk
  | cons p ps ih =>
    intro prev k hk
    cases k with
    | zero => simp [cbcEncryptBlocks]
    | succ k =>
      have := ih (cipher rk (blockXor p prev)) k (by simpa using hk)
      simpa [cbcEncryptBlocks] using this

/-- A byte of the padded message. -/
theorem getD_pad_inBytes (s : State) (i : Nat) (hi : i < s.inLen.toNat + (16 - s.inLen.toNat % 16)) :
    (pad (inBytes s (inLenNat s))).getD i 0 = cbcPaddedByte s i := by
  unfold pad cbcPaddedByte
  have hl : (inBytes s (inLenNat s)).length = s.inLen.toNat := by simp [inBytes, inLenNat]
  split
  · next h =>
    rw [List.getD_append _ _ _ _ (by rw [hl]; exact h)]
    rw [List.getD_eq_getElem _ _ (by rw [hl]; exact h)]
    simp only [inBytes]; rw [getElem_memReadBytes]; rfl
  · next h =>
    rw [List.getD_append_right _ _ _ _ (by rw [hl]; omega), hl]
    unfold rep padLen
    rw [List.getD_eq_getElem _ _ (by simp; omega)]
    simp

/-- Each plain block of CBC is made from two cipher blocks. -/
theorem cbcDecryptBlocks_getElem (rk : RoundKeys) : ∀ (qs : List Block) (prev : Block) (k : Nat) (hk : k < qs.length),
    ((cbcDecryptBlocks rk prev qs)[k]'(by simp; omega)) = blockXor (invCipher rk qs[k]) ((prev :: qs)[k]'(by simp; omega)) := by
  intro qs
  induction qs with
  | nil => intro prev k hk; simp at hk
  | cons p ps ih =>
    intro prev k hk
    cases k with
    | zero => simp [cbcDecryptBlocks]
    | succ k => simpa [cbcDecryptBlocks] using ih p k (by simpa using hk)

/-- A byte that CBC decryption recovers. -/
theorem getD_cbcDecrypt (s : State) (n i : Nat) (hn : n % 16 = 0) (hi : i + 16 < n) :
    (cbcDecrypt s.rk (inBytes s n)).getD i 0 = cbcPlainByte s i := by
  have hln : (inBytes s n).length = n := by simp [inBytes]
  have hb : ∀ k (hk : k < (blocksOf (inBytes s n) (n/16)).length), (blocksOf (inBytes s n) (n/16))[k] = inBlock s k := by
    intro k hk
    simp only [blocksOf, List.getElem_map, List.getElem_range]
    simp at hk
    exact blockAt_inBytes s n k (by omega)
  unfold cbcDecrypt
  rw [hln]
  generalize hq : blocksOf (inBytes s n) (n/16) = bl at *
  match bl, hq with
  | [], hq => have := congrArg List.length hq; simp at this; omega
  | iv :: qs, hq =>
    have hl := congrArg List.length hq
    simp at hl
    simp only
    have hk : i / 16 < qs.length := by omega
    have e := getD_bytesOfBlocks (cbcDecryptBlocks s.rk iv qs) (i/16) (i%16) (by simpa using hk) (by omega)
    rw [Nat.div_add_mod] at e
    rw [e, cbcDecryptBlocks_getElem _ _ _ _ hk]
    have h1 := hb (i/16+1) (by simpa using hk)
    have h2 := hb (i/16) (by simp; omega)
    simp only [List.getElem_cons_succ] at h1
    rw [h1, h2]
    unfold cbcPlainByte blockXor
    simp only [Vector.getElem_zipWith]
    refine congrArg₂ (fun a b : Byte => a ^^^ b) ?_ ?_
    · rw [List.getD_eq_getElem _ _ (by simp; omega)]; simp
    · simp only [inBlock, Vector.getElem_ofFn]; rw [Nat.div_add_mod]

/-! ### RSA padding -/

/-- The unpadding of a buffer whose first 0x01 is byte i. -/
theorem rsaUnpad_first (ds k v i : Nat) (hi : i < k) (h1 : bigEndianByte k v i = 0x01)
    (hm : ∀ j, j < i → bigEndianByte k v j ≠ 0x01) :
    rsaUnpad ds (beBytes k v) = if k < i + 1 + ds then none else some ((beBytes k v).drop (i+1+ds)) := by
  have hf : (beBytes k v).findIdx (· == 0x01) = i := by
    rw [List.findIdx_eq (by simpa using hi)]
    constructor
    · have := getD_beBytes k v i hi
      rw [List.getD_eq_getElem _ _ (by simpa using hi)] at this
      rw [this, h1]; rfl
    · intro j hj
      have := getD_beBytes k v j (by omega)
      rw [List.getD_eq_getElem _ _ (by simp; omega)] at this
      rw [this]
      simpa using hm j hj
  simp only [rsaUnpad, hf, length_beBytes]
  rw [if_neg (by omega)]

/-- A buffer without 0x01 does not unpad. -/
theorem rsaUnpad_none (ds k v : Nat) (hm : ∀ j, j < k → bigEndianByte k v j ≠ 0x01) : rsaUnpad ds (beBytes k v) = none := by
  have hf : (beBytes k v).findIdx (· == 0x01) = (beBytes k v).length := by
    rw [List.findIdx_eq_length]
    intro x hx
    obtain ⟨j, hj, rfl⟩ := List.getElem_of_mem hx
    have := getD_beBytes k v j (by simpa using hj)
    rw [List.getD_eq_getElem _ _ hj] at this
    rw [this]
    simpa using hm j (by simpa using hj)
  simp only [rsaUnpad, hf, if_true]

/-! ### Primality -/

/-- Which squarings reach n − 1. -/
theorem squaringsReach_iff {n : Nat} : ∀ k x,
    squaringsReach k x n = true ↔ ∃ j, 1 ≤ j ∧ j ≤ k ∧ x ^ 2 ^ j % n = n - 1 := by
  intro k x
  constructor
  · intro h
    induction k generalizing x with
    | zero => simp [squaringsReach] at h
    | succ k ih =>
      simp only [squaringsReach] at h
      split at h
      · next hy => exact ⟨1, by omega, by omega, by rw [pow_one, pow_two]; exact hy⟩
      · obtain ⟨j, h1, h2, h3⟩ := ih _ h
        refine ⟨j+1, by omega, by omega, ?_⟩
        rw [← h3, ← Nat.pow_mod, ← pow_two, ← pow_mul, ← pow_succ']
  · rintro ⟨j, h1, h2, h3⟩; exact squaringsReach_of h1 h2 h3

/-- A number splits into a power of two and an odd part in one way. -/
theorem two_pow_mul_odd_unique {a b c d : Nat} (hb : b % 2 = 1) (hd : d % 2 = 1) (h : 2^a * b = 2^c * d) : a = c ∧ b = d := by
  have : a = c := by
    rcases lt_trichotomy a c with h1 | h1 | h1
    · obtain ⟨k, rfl⟩ := Nat.exists_eq_add_of_lt h1
      rw [show a + k + 1 = a + (k+1) by ring, pow_add, mul_assoc] at h
      have := Nat.eq_of_mul_eq_mul_left (by positivity) h
      have : b % 2 = 0 := by rw [this, pow_succ, mul_right_comm]; simp
      omega
    · exact h1
    · obtain ⟨k, rfl⟩ := Nat.exists_eq_add_of_lt h1
      rw [show c + k + 1 = c + (k+1) by ring, pow_add, mul_assoc] at h
      have := Nat.eq_of_mul_eq_mul_left (by positivity) h
      have : d % 2 = 0 := by rw [← this, pow_succ, mul_right_comm]; simp
      omega
  subst this
  exact ⟨rfl, Nat.eq_of_mul_eq_mul_left (by positivity) h⟩

/-- A round of the test is the round of the claim. -/
theorem roundPassed_iff {n base : Nat} (hn : 5 ≤ n) (ho : n % 2 = 1) : RoundPassed base n ↔
    roundPasses base (splitTwos (bitlen (n-1)) (n-1)).1 (splitTwos (bitlen (n-1)) (n-1)).2 n = true := by
  obtain ⟨h1, h2⟩ := splitTwos_spec (fuel := bitlen (n-1)) (v := n-1) (by omega) (lt_two_pow_bitlen _)
  generalize splitTwos (bitlen (n-1)) (n-1) = st at *
  obtain ⟨e, d⟩ := st
  simp only at h1 h2 ⊢
  have he : 1 ≤ e := by
    rcases Nat.eq_zero_or_pos e with rfl | h
    · simp at h1; omega
    · exact h
  have key : roundPasses base e d n = true ↔ (base ^ d % n = 1 ∨ ∃ r, r < e ∧ base ^ (2^r*d) % n = n-1) := by
    unfold roundPasses
    rw [powMod_eq (by omega)]
    simp only [Bool.or_eq_true, decide_eq_true_eq]
    rw [squaringsReach_iff]
    have hp : ∀ j, (base^d % n)^2^j % n = base ^ (2^j*d) % n := by
      intro j; rw [← Nat.pow_mod, ← pow_mul, mul_comm]
    constructor
    · rintro ((h | h) | ⟨j, h3, h4, h5⟩)
      · exact .inl h
      · exact .inr ⟨0, by omega, by simpa using h⟩
      · exact .inr ⟨j, by omega, by rw [← hp]; exact h5⟩
    · rintro (h | ⟨r, h3, h4⟩)
      · exact .inl (.inl h)
      · rcases Nat.eq_zero_or_pos r with rfl | hr
        · exact .inl (.inr (by simpa using h4))
        · exact .inr ⟨r, hr, by omega, by rw [hp]; exact h4⟩
  rw [key]
  constructor
  · rintro ⟨e', d', h3, h4, h5⟩
    obtain ⟨rfl, rfl⟩ := two_pow_mul_odd_unique h2 h4 (h1.symm.trans h3)
    exact h5
  · intro h; exact ⟨e, d, h1, h2, h⟩

/-- The rounds of Miller–Rabin: all passed, the first that fails, or the words run out. -/
theorem millerRabinRounds_spec (s t n w : Nat) : ∀ (k : Nat) (ws : List Word),
    ((∀ i, i < k → roundPasses (roundBase n w ws i) s t n = true) → k * w ≤ ws.length →
      millerRabinRounds k s t n w ws = some (true, ws.drop (k * w))) ∧
    (∀ j, j < k → (∀ i, i < j → roundPasses (roundBase n w ws i) s t n = true) →
      roundPasses (roundBase n w ws j) s t n = false → (j + 1) * w ≤ ws.length →
      millerRabinRounds k s t n w ws = some (false, ws.drop ((j + 1) * w))) ∧
    (∀ j, j < k → (∀ i, i < j → roundPasses (roundBase n w ws i) s t n = true) → j * w ≤ ws.length →
      ws.length < (j + 1) * w → millerRabinRounds k s t n w ws = none) := by
  intro k
  induction k with
  | zero => intro ws; refine ⟨fun _ _ => by simp [millerRabinRounds], fun j h => by omega, fun j h => by omega⟩
  | succ k ih =>
    intro ws
    have hb : w ≤ ws.length → randBase n w ws = some (roundBase n w ws 0, ws.drop w) := by
      intro h; unfold randBase roundBase; rw [drawWords_eq, if_pos h]; simp
    have hshift : ∀ i, roundBase n w (ws.drop w) i = roundBase n w ws (i+1) := by
      intro i; unfold roundBase; rw [List.drop_drop]; congr 4; ring_nf
    obtain ⟨i1, i2, i3⟩ := ih (ws.drop w)
    simp only [hshift, List.length_drop] at i1 i2 i3
    refine ⟨?_, ?_, ?_⟩
    · intro h hl
      have hw : w ≤ ws.length := by rw [add_mul] at hl; omega
      simp only [millerRabinRounds, hb hw, h 0 (by omega), if_true]
      rw [i1 (fun i hi => h (i+1) (by omega)) (by rw [add_mul] at hl; omega), List.drop_drop]
      congr 3; ring
    · intro j hj h hf hl
      have hw : w ≤ ws.length := by rw [add_mul] at hl; omega
      cases j with
      | zero => simp only [millerRabinRounds, hb hw, hf]; simp
      | succ j =>
        simp only [millerRabinRounds, hb hw, h 0 (by omega), if_true]
        rw [i2 j (by omega) (fun i hi => h (i+1) (by omega)) hf (by rw [add_mul] at hl; omega), List.drop_drop]
        congr 3; ring
    · intro j hj h hl hl2
      cases j with
      | zero =>
        have : drawWords w ws = none := drawWords_none.2 (by omega)
        simp [millerRabinRounds, randBase, this]
      | succ j =>
        have hw : w ≤ ws.length := by rw [add_mul] at hl; omega
        simp only [millerRabinRounds, hb hw, h 0 (by omega), if_true]
        exact i3 j (by omega) (fun i hi => h (i+1) (by omega)) (by rw [add_mul] at hl; omega) (by rw [add_mul] at hl2; omega)

/-- Miller–Rabin of an odd n of at least 5 is its rounds. -/
theorem millerRabin_odd {rounds n : Nat} (hn : 5 ≤ n) (ho : n % 2 = 1) (ws : List Word) :
    millerRabin rounds n ws = millerRabinRounds rounds (splitTwos (bitlen (n - 1)) (n - 1)).1
      (splitTwos (bitlen (n - 1)) (n - 1)).2 n (ceilDiv (bitlen n) 32) ws := by
  unfold millerRabin
  rw [if_neg (by omega), if_neg (by omega), if_neg (by omega)]

/-- The bits of the machine's candidate. -/
theorem isCandidate_primeCandidate {bits : Nat} (us : List Word) (hb : 2 ≤ bits) :
    IsCandidate bits us (primeCandidate bits (natOfWords us)) := by
  intro k
  unfold primeCandidate
  rw [Nat.testBit_or, Nat.testBit_or, Nat.testBit_mod_two_pow, Nat.testBit_two_pow]
  have h1 : Nat.testBit 1 k = decide (k = 0) := by
    cases k <;> simp [Nat.testBit_succ]
  rw [h1]
  by_cases hk : k < bits
  · by_cases hh : bits - 1 = k
    · simp [hk, hh]
    · simp [hk, hh, Ne.symm hh, beq_eq_decide]
  · simp [hk, show bits - 1 ≠ k by omega, show k ≠ 0 by omega]

/-- The candidate of drawn words is the machine's. -/
theorem isCandidate_eq {bits : Nat} {us : List Word} {c : Nat} (hb : 2 ≤ bits) (h : IsCandidate bits us c) :
    c = primeCandidate bits (natOfWords us) :=
  Nat.eq_of_testBit_eq fun k => (h k).trans (isCandidate_primeCandidate us hb k).symm

end Sys2Proof.Laws
end

