-- ==== Sys2Proof/Tests/Slice0.lean ====
section
/-! SUPPORT. Tests: expected results are the vectors of 95_test_vectors.md, derived there from the rules; and for every
obligation with hypotheses a witness that meets them. -/

namespace Sys2Proof.Tests

open Sys2Proof Sys2Proof.Machine

set_option Elab.async false

/-! ### Helpers -/

/-- Small parameters: 256-byte buffers, 64-bit registers, two rounds, a one-byte digest. -/
def cfgT : Config := ⟨256, 64, 2, [0xD1]⟩

/-- The parameters of the codec vectors (95_test_vectors.md, Conventions), with 320-bit registers. -/
def cfgRsa : Config := ⟨256, 320, 40, beBytes 32 0xe3b0c44298fc1c149afbf4c8996fb92427ae41e4649b934ca495991b7852b855⟩

/-- A core after Init. -/
def idleT : State := { State.resetWith cfgT with seq := .idle }

/-- The same with a command started. -/
def busyT : State := { idleT with seq := .busy }

/-- A block from its 32 hex digits. -/
def blk (v : Nat) : Block := Vector.ofFn fun i : Fin 16 => BitVec.ofNat 8 (v / 256 ^ (15 - i.val))

/-- With a symmetric key bound. -/
def keyed (k : Nat) (s : State) : State := { s with key := blk k, rk := keyExpansion (blk k), keyValid := true }

/-- With a byte string in IN and its length in IN_LEN. -/
def loaded (bs : List Byte) (s : State) : State :=
  { s with inBuf := memWriteBytes [] inBase bs, inLen := BitVec.ofNat 32 bs.length }

/-- With values in X0.. -/
def withX (vs : List Nat) (s : State) : State := { s with x := Vector.ofFn fun i : Fin 8 => vs.getD i.val 0 }

/-- The first n words of the stream of 95_test_vectors.md §DRAW. -/
def stream (n : Nat) : List Word := (List.range n).map fun k => BitVec.ofNat 32 (0x9E3779B9 * (k + 1))

/-- The outcome is a next state with this code and property. -/
def endsWith (c : ErrCode) (o : Host.Outcome State Fault Refusal) (p : State → Bool) : Bool :=
  match o with
  | .next t => t.errcode == c && t.done && t.seq == .idle && p t
  | .fault _ => false
  | .refused _ => false

/-- OUT starts with this string, and OUT_LEN is its length. -/
def outIs (bs : List Byte) (t : State) : Bool :=
  t.outLen == BitVec.ofNat 32 bs.length && memReadBytes t.outBuf outBase bs.length == bs

/-- The state an instruction leaves. -/
def after (i : Instr) (s : State) : State :=
  match exec i s with
  | .next t => t
  | .fault _ => s
  | .refused _ => s

theorem exec_after {i : Instr} {s : State} (h : (exec i s matches .next _) = true) : exec i s = .next (after i s) := by
  unfold after
  split at h
  · next t ht => rw [ht]
  · cases h

/-! ### Ill-formed terms -/

theorem test_wellFormed_emptyMask :
    Instr.wellFormed (.keybind ⟨false, false, false⟩) = false ∧
    Instr.wellFormed (.keyunbind ⟨false, false, false⟩) = false := by decide

theorem test_wellFormed_sameDestination : Instr.wellFormed (.rsakeygen 3 3 1) = false := by decide

/-! ### Decoding: words written out from the table of 30_encoding.md R105, fields FD FC FB FA OP -/

theorem test_decode_galoisField :
    decode 0b00000000_0000_0000_0000_0000_00000000#32 = .ok .nop ∧
    decode 0b00000000_0000_0000_0000_0000_00000001#32 = .ok .gfmul ∧
    decode 0b00000000_0000_0000_0000_0000_00000010#32 = .ok .xtime := by decide +kernel

theorem test_decode_blockTransform :
    decode 0b00000000_0000_0000_0000_0000_00010000#32 = .ok .sbox ∧
    decode 0b00000000_0000_0000_0000_0000_00010001#32 = .ok .invsbox ∧
    decode 0b00000000_0000_0000_0000_0000_00010010#32 = .ok .subbytes ∧
    decode 0b00000000_0000_0000_0000_0000_00010011#32 = .ok .invsubbytes ∧
    decode 0b00000000_0000_0000_0000_0000_00010100#32 = .ok .shiftrows ∧
    decode 0b00000000_0000_0000_0000_0000_00010101#32 = .ok .invshiftrows ∧
    decode 0b00000000_0000_0000_0000_0000_00010110#32 = .ok .mixcolumns ∧
    decode 0b00000000_0000_0000_0000_0000_00010111#32 = .ok .invmixcolumns ∧
    decode 0b00000000_0000_0000_0000_1010_00011000#32 = .ok (.addroundkey 10) := by decide +kernel

theorem test_decode_keySchedule :
    decode 0b00000000_0000_0000_0000_0011_00100000#32 = .ok (.keybind ⟨true, true, false⟩) ∧
    decode 0b00000000_0000_0000_0000_0100_00100001#32 = .ok (.keyunbind ⟨false, false, true⟩) ∧
    decode 0b00000000_0000_0000_0000_0000_00100010#32 = .ok .symkeygen := by decide +kernel

theorem test_decode_ciphers :
    decode 0b00000000_0000_0000_0000_0000_00110000#32 = .ok .aesenc ∧
    decode 0b00000000_0000_0000_0000_0000_00110001#32 = .ok .aesdec ∧
    decode 0b00000000_0000_0000_0000_0000_01000000#32 = .ok (.cbcenc .rng) ∧
    decode 0b00000000_0000_0000_0000_0001_01000000#32 = .ok (.cbcenc .ivreg) ∧
    decode 0b00000000_0000_0000_0000_0000_01000001#32 = .ok .cbcdec := by decide +kernel

theorem test_decode_bigInt :
    decode 0b00000000_0000_0001_0000_0010_01010000#32 = .ok (.bmul 2 0 1) ∧
    decode 0b00000000_0010_0110_0101_0111_01010001#32 = .ok (.bmodexp 7 5 6 2) ∧
    decode 0b00000000_0000_0100_0001_0010_01010010#32 = .ok (.bmodinv 2 1 4) ∧
    decode 0b00000000_0000_0000_0101_0000_01010011#32 = .ok (.bprime 5) ∧
    decode 0b00000000_0000_0000_0000_0011_01010100#32 = .ok (.brandprime 3) := by decide +kernel

theorem test_decode_rsa :
    decode 0b00000000_0000_0001_0100_0011_01100000#32 = .ok (.rsakeygen 3 4 1) ∧
    decode 0b00000000_0000_0000_0000_0000_01110000#32 = .ok .rsaenc ∧
    decode 0b00000000_0000_0000_0000_0000_01110001#32 = .ok .rsadec := by decide +kernel

/-- The illegal words of 95_test_vectors.md §ENC, §TR row 21, §RSA row 17. -/
theorem test_decode_illegal :
    decode 0x00000003 = .error (.unknownOpcode 0x03) ∧ decode 0x01000030 = .error .reservedNotZero ∧
    decode 0x00000130 = .error .unusedFieldNotZero ∧ decode 0x00000020 = .error .maskOutOfRange ∧
    decode 0x00000240 = .error .ivSourceAboveOne ∧ decode 0x00000850 = .error .registerAboveSeven ∧
    decode 0x00000B18 = .error .roundAboveTen ∧ decode 0x00013360 = .error .sameDestination := by decide +kernel

/-- The match words of the table whose zero fields are themselves illegal (log 17), and one of a legal row. -/
theorem test_table_rows_with_zero_fields :
    decodeTableWord 32 0x20 = none ∧ decodeTableWord 32 0x21 = none ∧ decodeTableWord 32 0x60 = none ∧
    decodeTableWord 32 0x50 = some (.bmul 0 0 0) := by decide +kernel

theorem test_assembler :
    assemblerText (.keybind ⟨true, true, false⟩) = "KEYBIND sym|pub" ∧ assemblerText .aesenc = "AESENC" ∧
    assemblerText (.bmodexp 3 0 1 2) = "BMODEXP x3, x0, x1, x2" := by decide +kernel

theorem test_opcodes_distinct : (opcodeMap.map OpRow.op).Nodup := by decide +kernel

/-! ### Commands -/

theorem test_nop : endsWith .ok (exec .nop busyT) (fun t => t.res == 0 && t.state == Block.zero) = true := by decide +kernel

/-- §GF rows 3, 6, 10. -/
theorem test_gfmul :
    endsWith .ok (exec .gfmul { busyT with opa := 0xFFFFFF57, opb := 0x00000183 }) (·.res == 0xC1) = true ∧
    endsWith .ok (exec .gfmul { busyT with opa := 0xFF, opb := 0xFF }) (·.res == 0x13) = true := by decide +kernel

/-- §GF rows 1, 2. -/
theorem test_xtime :
    endsWith .ok (exec .xtime { busyT with opa := 0x57 }) (·.res == 0xAE) = true ∧
    endsWith .ok (exec .xtime { busyT with opa := 0xFF }) (·.res == 0xE5) = true := by decide +kernel

/-- §TR rows 1, 2. -/
theorem test_sbox :
    endsWith .ok (exec .sbox { busyT with opa := 0x53 }) (·.res == 0xED) = true ∧
    endsWith .ok (exec .invsbox { busyT with opa := 0xFF }) (·.res == 0x7D) = true := by decide +kernel

/-- §TR rows 15, 5. -/
theorem test_subbytes :
    endsWith .ok (exec .subbytes { busyT with state := blk 0x193de3bea0f4e22b9ac68d2ae9f84808 })
      (·.state == blk 0xd42711aee0bf98f1b8b45de51e415230) = true ∧
    endsWith .ok (exec .invsubbytes busyT) (·.state == blk 0x52525252525252525252525252525252) = true := by decide +kernel

/-- §TR rows 6, 7. -/
theorem test_shiftrows :
    endsWith .ok (exec .shiftrows { busyT with state := blk 0x000102030405060708090a0b0c0d0e0f })
      (·.state == blk 0x00050a0f04090e03080d02070c01060b) = true ∧
    endsWith .ok (exec .invshiftrows { busyT with state := blk 0x000102030405060708090a0b0c0d0e0f })
      (·.state == blk 0x000d0a0704010e0b0805020f0c090603) = true := by decide +kernel

/-- §TR rows 9, 12. -/
theorem test_mixcolumns :
    endsWith .ok (exec .mixcolumns { busyT with state := blk 0xdb135345f20a225cd4d4d4d52d26314c })
      (·.state == blk 0x8e4da1bc9fdc589dd5d5d7d64d7ebdf8) = true ∧
    endsWith .ok (exec .invmixcolumns { busyT with state := blk 0x01000000010000000100000001000000 })
      (·.state == blk 0x0e090d0b0e090d0b0e090d0b0e090d0b) = true := by decide +kernel

/-- §TR rows 18, 20. -/
theorem test_addroundkey :
    endsWith .ok (exec (.addroundkey 1) (keyed 0x2b7e151628aed2a6abf7158809cf4f3c
      { busyT with state := blk 0x046681e5e0cb199a48f8d37a2806264c }))
      (·.state == blk 0xa49c7ff2689f352b6b5bea43026a5049) = true ∧
    endsWith .missingKey (exec (.addroundkey 0) busyT) (·.state == Block.zero) = true := by decide +kernel

/-- §KS rows 1, 3. -/
theorem test_keybind :
    endsWith .ok (exec (.keybind ⟨true, false, false⟩) { busyT with key := blk 0x000102030405060708090a0b0c0d0e0f })
      (fun t => t.rk[10] == blk 0x13111d7fe3944a17f307a78b4d2b30c5 && statusWord t == 0x00000012) = true ∧
    endsWith .badOperand (exec (.keybind ⟨true, true, false⟩) busyT)
      (fun t => !t.keyValid && t.rk == RoundKeys.zero) = true := by decide +kernel

/-- §KS row 4. -/
theorem test_keyunbind :
    endsWith .ok (exec (.keyunbind ⟨true, true, true⟩) (keyed 5 { busyT with pubValid := true, privValid := true }))
      (fun t => statusWord t == 0x00000002 && t.key == blk 5) = true := by decide +kernel

/-- §KS rows 7, 8. -/
theorem test_symkeygen :
    endsWith .ok (exec .symkeygen { busyT with arg := 16, rng := stream 5 })
      (fun t => t.key == blk 0xb979379e72f36e3c2b6da6dae4e6dd78 && t.rk[10] == blk 0x71a8f2bc489638131df5ea6e58c3f72d &&
        t.rngPos == 4 && t.rng.length == 1 && t.keyValid) = true ∧
    endsWith .badKeyLength (exec .symkeygen { busyT with arg := 24, rng := stream 5 })
      (fun t => t.rngPos == 0 && t.rng.length == 5) = true := by decide +kernel

/-- §AES rows 3, 4. -/
theorem test_aes :
    endsWith .ok (exec .aesenc (keyed 0x2b7e151628aed2a6abf7158809cf4f3c
      { busyT with state := blk 0x3243f6a8885a308d313198a2e0370734 }))
      (·.state == blk 0x3925841d02dc09fbdc118597196a0b32) = true ∧
    endsWith .ok (exec .aesdec (keyed 0x2b7e151628aed2a6abf7158809cf4f3c
      { busyT with state := blk 0x3925841d02dc09fbdc118597196a0b32 }))
      (·.state == blk 0x3243f6a8885a308d313198a2e0370734) = true := by decide +kernel

/-- §CBC row 3. -/
theorem test_cbcenc_ivreg :
    endsWith .ok (exec (.cbcenc .ivreg) (loaded (rep 0x41 15)
      (keyed 0 { busyT with iv := blk 0x000102030405060708090a0b0c0d0e0f })))
      (outIs (beBytes 32 0x000102030405060708090a0b0c0d0e0fe1d2954e434c12ebac0ed4c2aa5a51d2)) = true := by decide +kernel

/-- §CBC row 12. -/
theorem test_cbcenc_rng :
    endsWith .ok (exec (.cbcenc .rng) (loaded (rep 0x41 16) (keyed 0 { busyT with rng := stream 4 })))
      (fun t => outIs (beBytes 48
        0xb979379e72f36e3c2b6da6dae4e6dd7844aa3314a3343a277b4140a47b6b0fc1eff34e121bca3d079de7989645b5339c) t &&
        t.iv == blk 0xb979379e72f36e3c2b6da6dae4e6dd78 && t.rngPos == 4) = true := by decide +kernel

/-- §CBC rows 6 and 11: the text of row 4, whole and with IV byte 15 changed by 0x11. -/
theorem test_cbcdec :
    endsWith .ok (exec .cbcdec (loaded (beBytes 32
      0x000102030405060708090a0b0c0d0e0f358d5b59adb65d04107676586f473446) (keyed 0 busyT))) (outIs []) = true ∧
    endsWith .ok (exec .cbcdec (loaded (beBytes 32
      0x000102030405060708090a0b0c0d0e1e358d5b59adb65d04107676586f473446) (keyed 0 busyT))) (outIs (rep 0x10 15)) = true := by
  decide +kernel

/-- §CBC row 10: pad byte 0x11. -/
theorem test_cbcdec_invalidPadding :
    endsWith .invalidPadding (exec .cbcdec (loaded (beBytes 32
      0x000102030405060708090a0b0c0d0e0e358d5b59adb65d04107676586f473446) (keyed 0 busyT))) (·.outLen == 0) = true := by
  decide +kernel

/-- §BIG row 3, and row 2 at 64 bits. -/
theorem test_bmul :
    endsWith .ok (exec (.bmul 0 0 0) (withX [2 ^ 31 + 1] busyT)) (fun t => t.x[0] == 2 ^ 62 + 2 ^ 32 + 1 && !t.ovf) = true ∧
    endsWith .ok (exec (.bmul 2 0 1) (withX [2 ^ 63, 2] busyT)) (fun t => t.x[2] == 0 && t.ovf) = true := by decide +kernel

/-- §BIG rows 7, 8, 9. -/
theorem test_bmodexp :
    endsWith .ok (exec (.bmodexp 3 0 1 2) (withX [3, 200, 2 ^ 61 - 1] busyT)) (fun t => t.x[3] == 424410663027747676) = true ∧
    endsWith .ok (exec (.bmodexp 3 0 1 2) (withX [0, 0, 7] busyT)) (fun t => t.x[3] == 1) = true ∧
    endsWith .ok (exec (.bmodexp 3 0 1 2) (withX [5, 3, 1] busyT)) (fun t => t.x[3] == 0) = true := by decide +kernel

/-- §BIG rows 11, 13. -/
theorem test_bmodinv :
    endsWith .ok (exec (.bmodinv 2 1 4) (withX [0, 17, 0, 0, 3120] busyT)) (fun t => t.x[2] == 2753) = true ∧
    endsWith .notInvertible (exec (.bmodinv 2 1 4) (withX [0, 2, 9, 0, 4] busyT)) (fun t => t.x[2] == 9) = true := by
  decide +kernel

/-- §MR: 561 fails at its first base; 97 passes its 40 rounds, a word a base. -/
theorem test_bprime :
    endsWith .ok (exec (.bprime 5) (withX [0, 0, 0, 0, 0, 561] { busyT with cfg := cfgRsa, rng := stream 90 }))
      (fun t => !t.prime && t.rngPos == 1) = true ∧
    endsWith .ok (exec (.bprime 5) (withX [0, 0, 0, 0, 0, 97] { busyT with cfg := cfgRsa, rng := stream 90 }))
      (fun t => t.prime && t.rngPos == 40) = true := by decide +kernel

/-- §MR: ARG = 64 and ARG = 2. -/
theorem test_brandprime :
    endsWith .ok (exec (.brandprime 3) { busyT with cfg := cfgRsa, arg := 64, rng := stream 120 })
      (fun t => t.x[3] == 9980051192820582901 && t.rngPos == 110) = true ∧
    endsWith .ok (exec (.brandprime 3) { busyT with arg := 2, rng := stream 2 })
      (fun t => t.x[3] == 3 && t.rngPos == 1) = true := by decide +kernel

/-- §RSA row 1. -/
theorem test_rsakeygen :
    endsWith .ok (exec (.rsakeygen 3 4 1) (withX [0, 65537] { busyT with cfg := cfgRsa, arg := 16, rng := stream 100 }))
      (fun t => t.x[3] == 63929 && t.x[4] == 50723 && t.pubE == 65537 && t.pubN == 3242670667 && t.privN == 3242670667 &&
        t.privD == 1429135153 && t.rngPos == 90 && statusWord t == 0x00000062) = true := by decide +kernel

/-- §RSA row 15. -/
theorem test_rsakeygen_notInvertible :
    endsWith .notInvertible (exec (.rsakeygen 3 4 1) (withX [0, 2] { busyT with cfg := cfgRsa, arg := 16, rng := stream 100 }))
      (fun t => t.x[3] == 0 && t.pubN == 0 && !t.pubValid && t.rngPos == 90) = true := by decide +kernel

/-- Key B of §RSA, bound. -/
def keyB : State :=
  { busyT with
    cfg := cfgRsa, pubE := 65537, pubValid := true, privValid := true
    pubN := 0xa8000000000000000000000000000000000000212000000000000000000000000000000000000177
    privN := 0xa8000000000000000000000000000000000000212000000000000000000000000000000000000177
    privD := 0x48f4970b68f4970b68f4970b68f4970b68f4971916d0e92f16d0e92f16d0e92f16d0e92f16d0e9c1 }

/-- §RSA rows 4, 7. -/
theorem test_rsaenc :
    endsWith .ok (exec .rsaenc (loaded [0x68, 0x69] keyB))
      (outIs (beBytes 40 0x565502f0716bdd4b4c23ce30372ca1c74e9f66452202c3138dfc3ca3d263e9a7e054a22846ecd8c7)) = true ∧
    endsWith .messageTooLong (exec .rsaenc (loaded (rep 0x41 7) keyB)) (·.outLen == 0) = true := by decide +kernel

/-- §RSA rows 8, 11. -/
theorem test_rsadec :
    endsWith .ok (exec .rsadec (loaded
      (beBytes 40 0x565502f0716bdd4b4c23ce30372ca1c74e9f66452202c3138dfc3ca3d263e9a7e054a22846ecd8c7) keyB))
      (outIs [0x68, 0x69]) = true ∧
    endsWith .padError (exec .rsadec (loaded (beBytes 40 1) keyB)) (·.outLen == 0) = true := by decide +kernel

/-! ### The bus, the sequencer, reset -/

/-- Program P5 step 7: a dropped write and an abort while BRANDPRIME waits, with no word on the port. -/
theorem test_abort :
    endsWith .aborted (step { access (.write 0x0010 0x00000002 0xF) (access (.write 0x0028 5 0xF)
      (after (.brandprime 3) { busyT with arg := 64 })) with cmd := 0x00000354 })
      (fun t => statusWord t == 0x000D0006 && t.opa == 0 && t.x[3] == 0) = true := by decide +kernel

/-- Program P1: KEY is written word by word in lane order (20_memory.md R75). -/
theorem test_lanes : (access (.write 0x0050 0x16157e2b 0xF) idleT).key = blk 0x2b7e1516000000000000000000000000 := by
  decide +kernel

/-- Program P5 step 5: a reserved opcode. -/
theorem test_illegal : endsWith .illegalCommand (step { busyT with cmd := 0x00000003 })
    (fun t => statusWord t == 0x00010002) = true := by decide +kernel

/-- From reset, a command word placed for the next step is the one it runs. -/
theorem test_withFetchWord :
    endsWith .ok (step (State.reset.withFetchWord 32 0x00000010)) (·.res == 0x63) = true ∧
    endsWith .missingKey (step (State.reset.withFetchWord 32 0x00000030)) (fun _ => true) = true := by decide +kernel

/-- From reset, one move of the sequencer ends Init (70_reset_and_hazards.md R301). -/
theorem test_init : (match step State.reset with | .next t => t.seq == .idle && statusWord t == 0 | _ => false) = true := by
  decide +kernel

/-- SYMKEYGEN with some of its four words drawn, and a fifth word on the port. -/
def drewT (n : Nat) : State := { busyT with cmd := 0x00000022, arg := 16, drawn := stream n, rng := [7], inputs := [.draw] }

/-- 20_memory.md R82, 60_exceptions.md R276: a draw takes one word when the command needs it and no abort is pending. -/
theorem test_draw :
    (match step (drewT 3) with | .next t => t.drawn == stream 3 ++ [7] && t.rng == [] && t.rngPos == 1 && t.seq == .busy | _ => false)
      = true ∧
    (match step (drewT 4) with | .next t => t.drawn == stream 4 && t.rng == [7] && t.seq == .busy | _ => false) = true ∧
    (match step { drewT 3 with abortReq := true } with | .next t => t.drawn == stream 3 && t.rng == [7] | _ => false) = true := by
  decide +kernel

/-- 60_exceptions.md R275, R276: an abort before the last draw ends SYMKEYGEN, one after it does not, and is cleared. -/
theorem test_abort_afterLastDraw :
    endsWith .aborted (step { drewT 3 with abortReq := true, inputs := [] }) (fun t => t.rng == [7] && !t.keyValid) = true ∧
    endsWith .ok (step { drewT 4 with abortReq := true, inputs := [] })
      (fun t => t.rng == [7] && t.keyValid && !t.abortReq) = true := by decide +kernel

/-! ### Witnesses: for every obligation with hypotheses, states and operands that meet them, clause by clause -/

/-- `Inv`, clause by clause, for concrete states. -/
theorem inv_of {s : State} (h1 : s.cfg.Legal)
    (h2 : (∀ i : XReg, xRead s i < 2 ^ s.cfg.bigBits) ∧ s.pubE < 2 ^ s.cfg.bigBits ∧ s.pubN < 2 ^ s.cfg.bigBits ∧
      s.privD < 2 ^ s.cfg.bigBits ∧ s.privN < 2 ^ s.cfg.bigBits)
    (h3 : Memory.wf s.inBuf = true ∧ Memory.wf s.outBuf = true ∧
      Memory.within inBase (inBase + s.cfg.bufBytes) s.inBuf = true ∧
      Memory.within outBase (outBase + s.cfg.bufBytes) s.outBuf = true)
    (h4 : s.res.toNat < 256 ∧ s.outLen.toNat ≤ s.cfg.bufBytes ∧ (s.keyValid = true → s.rk = keyExpansion s.key) ∧
      (s.pubValid = true → 2 ≤ s.pubN) ∧ (s.privValid = true → 2 ≤ s.privN))
    (h5 : (s.abortReq = true → s.seq = .busy) ∧ (s.drawn ≠ [] → s.seq = .busy) ∧
      (s.seq = .busy → s.done = false ∧ s.errcode = .ok) ∧
      (s.seq = .init →
        s.keyValid = false ∧ s.pubValid = false ∧ s.privValid = false ∧ s.done = false ∧ s.errcode = .ok) ∧
      (s.rstn = false → s.seq = .init)) : Inv s :=
  ⟨h1, ⟨h2.1, h2.2.1, h2.2.2.1, h2.2.2.2.1, h2.2.2.2.2⟩, ⟨h3.1, h3.2.1, h3.2.2.1, h3.2.2.2⟩, h4.1, h4.2.1, h4.2.2.1,
    h4.2.2.2.1, h4.2.2.2.2, h5.1, h5.2.1, h5.2.2.1, h5.2.2.2.1, h5.2.2.2.2⟩

theorem inv_idleT : Inv idleT := by
  refine inv_of ?_ ?_ ?_ ?_ ?_ <;> decide +kernel

theorem witness_EncodedCommandsDecode :
    Instr.wellFormed (.bmodexp 7 0 7 0) = true ∧ Instr.wellFormed (.keybind ⟨false, false, true⟩) = true ∧
    Instr.wellFormed (.rsakeygen 0 7 7) = true := by decide

theorem witness_DecodedWordsEncode : decode 0x00777751 = .ok (.bmodexp 7 7 7 7) := by decide +kernel

theorem witness_SequencerDecodesAsR104 :
    (Running { busyT with cmd := 0x00000A18 } ∧ busyT.inputs = [] ∧ LegalWord 0x00000A18) ∧ ¬ LegalWord 0x00000B18 := by
  refine ⟨⟨⟨rfl, rfl⟩, rfl, ?_⟩, ?_⟩ <;> (unfold LegalWord; decide)

theorem witness_StepRunsTheDecodedCommand :
    (Running { busyT with cmd := 0x00000A18 } ∧ decode 0x00000A18 = .ok (.addroundkey 10) ∧ busyT.inputs = []) ∧
    (idleT.rstn = true ∧ idleT.seq = .idle) ∧
    -- a command that awaits a word, one that has drawn all its words, a core that runs no command
    (Running (drewT 3) ∧ decode (drewT 3).cmd = .ok .symkeygen ∧ (drewT 3).rng = 7 :: [] ∧
      exec .symkeygen { drewT 3 with rng := [] } = .next (after .symkeygen { drewT 3 with rng := [] }) ∧
      (after .symkeygen { drewT 3 with rng := [] }).seq = .busy) ∧
    (Running (drewT 4) ∧ decode (drewT 4).cmd = .ok .symkeygen ∧ (drewT 4).rng = 7 :: [] ∧
      exec .symkeygen { drewT 4 with rng := [] } = .next (after .symkeygen { drewT 4 with rng := [] }) ∧
      (after .symkeygen { drewT 4 with rng := [] }).seq ≠ .busy) ∧
    ¬ Running idleT ∧ busyT.rng = [] :=
  ⟨⟨⟨rfl, rfl⟩, by decide +kernel, rfl⟩, ⟨rfl, rfl⟩, ⟨⟨rfl, rfl⟩, by decide +kernel, rfl, exec_after rfl, rfl⟩,
    ⟨⟨rfl, rfl⟩, by decide +kernel, rfl, exec_after rfl, by decide⟩, by decide, rfl⟩

theorem witness_CommandWriteStartsTheCommand :
    (idleT.rstn = true ∧ idleT.seq = .idle) ∧ (busyT.rstn = true ∧ busyT.seq ≠ .idle) := by decide

theorem witness_FieldLaws : (0x53 : Byte) ≠ 0 ∧ gmul 0x53 0xCA = 1 := by decide +kernel

theorem witness_AddRoundKeyResult : (keyed 1 busyT).keyValid = true ∧ busyT.keyValid = false := by decide

theorem witness_KeyBindResult :
    (2 ≤ ({ busyT with pubN := 2, privN := 2 } : State).pubN ∧ 2 ≤ ({ busyT with pubN := 2, privN := 2 } : State).privN) ∧
    ((⟨false, true, false⟩ : KeyMask).pub = true ∧ ({ busyT with pubN := 1 } : State).pubN < 2) ∧
    ((⟨false, false, true⟩ : KeyMask).priv = true ∧ ({ busyT with privN := 1 } : State).privN < 2) := by decide

theorem witness_SymKeyGenResult :
    (∃ s : State, s.arg = 16 ∧ s.drawn = [] ∧ s.abortReq = false ∧ s.rng = 1 :: 2 :: 3 :: 4 :: []) ∧
    (∃ s : State, s.arg ≠ 16) ∧ (∃ s : State, s.arg = 16 ∧ s.abortReq = true ∧ s.drawn.length < 4) :=
  ⟨⟨{ busyT with arg := 16, rng := [1, 2, 3, 4] }, by decide⟩, ⟨{ busyT with arg := 24 }, by decide⟩,
    ⟨{ busyT with arg := 16, abortReq := true, drawn := [1, 2, 3] }, by decide⟩⟩

theorem witness_BlockCipherIsItsRounds : (keyed 1 busyT).keyValid = true ∧ busyT.keyValid = false := by decide

theorem witness_BlockCipherInverseLaw : (keyed 1 busyT).keyValid = true := by decide

/-- The longest message: 16 + 239 + 1 = 256 bytes. -/
theorem witness_CbcEncryptResult :
    ∃ s : State, s.cfg.Legal ∧ Memory.wf s.outBuf = true ∧ s.keyValid = true ∧
      16 + s.inLen.toNat + (16 - s.inLen.toNat % 16) ≤ s.cfg.bufBytes ∧ s.inLen = 239 ∧
      s.drawn = [] ∧ s.abortReq = false ∧ s.rng = 1 :: 2 :: 3 :: 4 :: [] :=
  ⟨{ keyed 1 busyT with inLen := 239, rng := [1, 2, 3, 4] }, by decide⟩

/-- Pad bytes 0x10, 0x00 and 0x11, by byte 15 of the IV. -/
theorem witness_CbcDecryptResult :
    ∃ s₁ s₂ s₃ : State, (∀ s ∈ [s₁, s₂, s₃], s.cfg.Legal ∧ Memory.wf s.outBuf = true ∧ s.keyValid = true ∧
        s.inLen.toNat ≤ s.cfg.bufBytes ∧ 32 ≤ s.inLen.toNat ∧ s.inLen.toNat % 16 = 0) ∧
      (cbcPlainByte s₁ (s₁.inLen.toNat - 17)).toNat = 16 ∧ (cbcPlainByte s₂ (s₂.inLen.toNat - 17)).toNat = 0 ∧
      (cbcPlainByte s₃ (s₃.inLen.toNat - 17)).toNat = 17 :=
  ⟨loaded (beBytes 16 0x7A ++ rep 0 16) { busyT with keyValid := true },
    loaded (beBytes 16 0x6A ++ rep 0 16) { busyT with keyValid := true },
    loaded (beBytes 16 0x7B ++ rep 0 16) { busyT with keyValid := true }, by decide +kernel⟩

theorem witness_CbcErrors :
    busyT.keyValid = false ∧
    (∃ s : State, s.keyValid = true ∧ s.cfg.bufBytes < 16 + s.inLen.toNat + (16 - s.inLen.toNat % 16) ∧ s.inLen = 240) ∧
    (∃ s : State, s.keyValid = true ∧ s.cfg.bufBytes < s.inLen.toNat ∧ s.inLen = 257) ∧
    (∃ s : State, s.keyValid = true ∧ s.inLen.toNat ≤ s.cfg.bufBytes ∧ s.inLen.toNat < 32) ∧
    (∃ s : State, s.keyValid = true ∧ s.inLen.toNat ≤ s.cfg.bufBytes ∧ s.inLen.toNat % 16 ≠ 0) :=
  ⟨rfl, ⟨{ keyed 1 busyT with inLen := 240 }, by decide⟩, ⟨{ keyed 1 busyT with inLen := 257 }, by decide⟩,
    ⟨{ keyed 1 busyT with inLen := 16 }, by decide⟩, ⟨{ keyed 1 busyT with inLen := 33 }, by decide⟩⟩

/-- A core that enciphers two bytes, and the core after it with OUT copied into IN. -/
def cbcFrom : State := loaded [0x41, 0x42] (keyed 0 busyT)
def copied (t : State) : State :=
  { t with seq := .idle, inBuf := memWriteBytes [] inBase (memReadBytes t.outBuf outBase t.outLen.toNat), inLen := t.outLen }

theorem witness_CbcRoundTrip :
    Inv cbcFrom ∧ cbcFrom.seq = .busy ∧ exec (.cbcenc .ivreg) cbcFrom = .next (after (.cbcenc .ivreg) cbcFrom) ∧
    (after (.cbcenc .ivreg) cbcFrom).seq = .idle ∧ (after (.cbcenc .ivreg) cbcFrom).errcode = .ok ∧
    ∃ u, u = copied (after (.cbcenc .ivreg) cbcFrom) ∧ Inv u ∧ u.cfg = cbcFrom.cfg ∧ u.keyValid = true ∧
      u.rk = (after (.cbcenc .ivreg) cbcFrom).rk ∧ u.inLen = (after (.cbcenc .ivreg) cbcFrom).outLen ∧
      ∀ i, i < (after (.cbcenc .ivreg) cbcFrom).outLen.toNat → inByte u i = outByte (after (.cbcenc .ivreg) cbcFrom) i := by
  refine ⟨?_, rfl, exec_after ?_, ?_, ?_, _, rfl, ?_, ?_, ?_, ?_, ?_, ?_⟩
  · refine inv_of ?_ ?_ ?_ ?_ ?_ <;> decide +kernel
  · decide +kernel
  · decide +kernel
  · decide +kernel
  · refine inv_of ?_ ?_ ?_ ?_ ?_ <;> decide +kernel
  all_goals decide +kernel

theorem witness_ModularExponentResult : xRead (withX [0, 0, 0, 1] busyT) 3 ≠ 0 ∧ xRead busyT 3 = 0 := by decide

theorem witness_ModularInverseResult :
    (xRead (withX [3, 11] busyT) 1 ≠ 0 ∧ Nat.Coprime (xRead (withX [3, 11] busyT) 0) (xRead (withX [3, 11] busyT) 1)) ∧
    xRead busyT 1 = 0 ∧
    (xRead (withX [2, 4] busyT) 1 ≠ 0 ∧ ¬ Nat.Coprime (xRead (withX [2, 4] busyT) 0) (xRead (withX [2, 4] busyT) 1)) := by
  decide +kernel

/-- 5 − 1 = 2² · 1 and 2² mod 5 = 4: the base 2 passes for 5. -/
theorem roundPassed_2_5 : RoundPassed 2 5 := ⟨2, 1, by decide, by decide, .inr ⟨1, by decide, by decide⟩⟩

/-- 9 − 1 = 2³ · 1 and 2, 4, 7 are the squarings of 2 mod 9: the base 2 fails for 9. -/
theorem not_roundPassed_2_9 : ¬ RoundPassed 2 9 := by
  rw [Laws.roundPassed_iff (by decide) (by decide)]
  decide +kernel

theorem witness_PrimalityResult :
    busyT.cfg.Legal ∧ busyT.drawn = [] ∧
    (xRead (withX [1] busyT) 0 < 2 ∧ xRead (withX [4] busyT) 0 ≠ 2 ∧ xRead (withX [4] busyT) 0 % 2 = 0) ∧
    (xRead (withX [2] busyT) 0 = 2 ∧ xRead (withX [3] busyT) 0 = 3) ∧
    (5 ≤ xRead (withX [5] busyT) 0 ∧ xRead (withX [5] busyT) 0 % 2 = 1 ∧
      ({ withX [5] busyT with abortReq := true } : State).abortReq = true) ∧
    -- a first round that fails: n = 9, base 2
    (5 ≤ xRead (withX [9] busyT) 0 ∧ xRead (withX [9] busyT) 0 % 2 = 1 ∧ busyT.abortReq = false ∧ 0 < busyT.cfg.mrRounds ∧
      ¬ RoundPassed (roundBase 9 1 [6] 0) 9 ∧ (0 + 1) * ((Nat.size 9 + 31) / 32) ≤ [(6 : Word)].length) ∧
    -- two rounds that pass: n = 5, base 2
    ((∀ i, i < busyT.cfg.mrRounds → RoundPassed (roundBase 5 1 [0, 2] i) 5) ∧
      busyT.cfg.mrRounds * ((Nat.size 5 + 31) / 32) ≤ [(0 : Word), 2].length) ∧
    -- one round that passes, and no word for the second
    (1 < busyT.cfg.mrRounds ∧ (∀ i, i < 1 → RoundPassed (roundBase 5 1 [0] i) 5) ∧
      1 * ((Nat.size 5 + 31) / 32) ≤ [(0 : Word)].length ∧ [(0 : Word)].length < (1 + 1) * ((Nat.size 5 + 31) / 32)) := by
  have h5 : Nat.size 5 = 3 := by rw [Laws.natSize_eq_bitlen]; decide +kernel
  have h9 : Nat.size 9 = 4 := by rw [Laws.natSize_eq_bitlen]; decide +kernel
  have e9 : roundBase 9 1 [6] 0 = 2 := by decide +kernel
  have e0 : roundBase 5 1 [0, 2] 0 = 2 := by decide +kernel
  have e1 : roundBase 5 1 [0, 2] 1 = 2 := by decide +kernel
  have e2 : roundBase 5 1 [0] 0 = 2 := by decide +kernel
  rw [h5, h9, e9]
  refine ⟨by decide +kernel, rfl, by decide +kernel, by decide +kernel, by decide +kernel,
    ⟨by decide +kernel, by decide +kernel, rfl, by decide +kernel, not_roundPassed_2_9, by decide⟩, ⟨?_, by decide +kernel⟩,
    by decide +kernel, ?_, by decide, by decide⟩
  · intro i hi
    have : i < 2 := hi
    rcases (show i = 0 ∨ i = 1 by omega) with rfl | rfl
    · rw [e0]; exact roundPassed_2_5
    · rw [e1]; exact roundPassed_2_5
  · intro i hi
    obtain rfl : i = 0 := by omega
    rw [e2]; exact roundPassed_2_5

theorem witness_PrimesAreNeverReportedComposite :
    (Nat.Prime (xRead (withX [5] busyT) 0) ∧ busyT.drawn = [] ∧ busyT.abortReq = false ∧
      busyT.cfg.mrRounds * ((Nat.size (xRead (withX [5] busyT) 0) + 31) / 32) ≤ ([0, 2] : List Word).length) ∧
    (∃ s t : State, Nat.Prime (xRead s 0) ∧ s.seq = .busy ∧ exec (.bprime 0) s = .next t ∧ t.seq = .idle ∧
      t.errcode = .ok) := by
  have h5 : xRead (withX [5] busyT) 0 = 5 := by decide +kernel
  have h : Nat.size 5 = 3 := by rw [Laws.natSize_eq_bitlen]; decide +kernel
  rw [h5, h]
  refine ⟨⟨by norm_num, rfl, rfl, by decide +kernel⟩, { withX [5] busyT with rng := [0, 2] }, _, ?_, rfl, exec_after ?_, ?_, ?_⟩
  · show Nat.Prime 5
    norm_num
  all_goals decide +kernel

theorem witness_RandomPrimeResult :
    (∃ s : State, s.arg.toNat < 2 ∧ s.arg = 1) ∧ (∃ s : State, s.cfg.bigBits < s.arg.toNat ∧ s.arg = 65) ∧
    (∃ s : State, 2 ≤ s.arg.toNat ∧ s.arg.toNat ≤ s.cfg.bigBits ∧ s.drawn = [] ∧ s.abortReq = true) ∧
    (∃ s : State, 2 ≤ s.arg.toNat ∧ s.arg.toNat ≤ s.cfg.bigBits ∧ s.drawn = [] ∧ s.abortReq = false ∧
      IsCandidate s.arg.toNat [0] 3 ∧ [(0 : Word)].length = (s.arg.toNat + 31) / 32 ∧ s.rng = [0] ++ [7] ∧
      millerRabin s.cfg.mrRounds 3 [7] = some (true, [7]) ∧ Nat.Prime 3 ∧
      primeTestWords s.cfg.mrRounds 3 ≤ [(7 : Word)].length) ∧
    -- the candidate 9 of 4 bits fails, the next, 11, passes
    (∃ s u : State, s.arg = 4 ∧ s.drawn = [] ∧ s.abortReq = false ∧ IsCandidate 4 [0] 9 ∧ s.rng = [0] ++ [6, 2, 0, 0] ∧
      millerRabin s.cfg.mrRounds 9 [6, 2, 0, 0] = some (false, [2, 0, 0]) ∧
      exec (.brandprime 3) { s with rng := [2, 0, 0], rngPos := s.rngPos + (s.rng.length - 3), seq := .busy } = .next u ∧
      u.seq = .idle ∧ u.errcode = .ok) := by
  refine ⟨⟨{ busyT with arg := 1 }, by decide⟩, ⟨{ busyT with arg := 65 }, by decide⟩,
    ⟨{ busyT with arg := 2, abortReq := true }, by decide⟩,
    ⟨{ busyT with arg := 2, rng := [0, 7] }, by decide, by decide, rfl, rfl, ?_, by decide, rfl, by decide +kernel,
      by norm_num, by decide⟩,
    ⟨{ busyT with arg := 4, rng := [0, 6, 2, 0, 0] }, _, rfl, rfl, rfl, ?_, rfl, by decide +kernel, exec_after ?_, ?_, ?_⟩⟩
  · exact Laws.isCandidate_primeCandidate (bits := 2) [0] (by decide)
  · exact Laws.isCandidate_primeCandidate (bits := 4) [0] (by decide)
  all_goals decide +kernel

/-- Two primes of 2 bits, both 3, with φ = 4: e = 3 is coprime to it, e = 2 is not. -/
theorem witness_RsaKeyGenResult :
    (3 : XReg) ≠ 4 ∧ (∃ s : State, s.arg.toNat < 2 ∧ s.arg = 1) ∧
    (∃ s : State, s.cfg.bigBits < 2 * s.arg.toNat ∧ s.arg = 33) ∧
    (∃ s : State, 2 ≤ s.arg.toNat ∧ 2 * s.arg.toNat ≤ s.cfg.bigBits ∧ s.drawn = [] ∧ s.abortReq = true) ∧
    (∀ e ∈ [2, 3], ∃ s : State, 2 ≤ s.arg.toNat ∧ 2 * s.arg.toNat ≤ s.cfg.bigBits ∧ s.drawn = [] ∧ s.abortReq = false ∧
      randPrime s.cfg.mrRounds s.arg.toNat s.rng = some (3, [5]) ∧
      randPrime s.cfg.mrRounds s.arg.toNat [5] = some (3, []) ∧ xRead s 1 = e) ∧
    Nat.Coprime 3 ((3 - 1) * (3 - 1)) ∧ ¬ Nat.Coprime 2 ((3 - 1) * (3 - 1)) := by
  refine ⟨by decide, ⟨{ busyT with arg := 1 }, by decide⟩, ⟨{ busyT with arg := 33 }, by decide⟩,
    ⟨{ busyT with arg := 2, abortReq := true }, by decide⟩, ?_, by decide, by decide⟩
  intro e he
  refine ⟨withX [0, e] { busyT with arg := 2, rng := [0, 5] }, ?_⟩
  rcases (show e = 2 ∨ e = 3 by simpa using he) with rfl | rfl <;> decide +kernel

theorem witness_RsaKeyGenCompletes :
    ∃ s : State, (3 : XReg) ≠ 4 ∧ 2 ≤ s.arg.toNat ∧ 2 * s.arg.toNat ≤ s.cfg.bigBits ∧ s.drawn = [] ∧ s.abortReq = false ∧
      Nat.Prime 3 ∧ [(0 : Word)].length = (s.arg.toNat + 31) / 32 ∧ IsCandidate s.arg.toNat [0] 3 ∧
      ([] : List Word).length = primeTestWords s.cfg.mrRounds 3 ∧ [(5 : Word)].length = (s.arg.toNat + 31) / 32 ∧
      IsCandidate s.arg.toNat [5] 3 ∧ s.rng = [0] ++ [] ++ [5] ++ [] ++ [9] ∧
      Nat.Coprime (xRead s 1) ((3 - 1) * (3 - 1)) :=
  ⟨withX [0, 3] { busyT with arg := 2, rng := [0, 5, 9] }, by decide, by decide, by decide, rfl, rfl, by norm_num, by decide,
    Laws.isCandidate_primeCandidate (bits := 2) [0] (by decide), by decide, by decide,
    Laws.isCandidate_primeCandidate (bits := 2) [5] (by decide), rfl, by decide +kernel⟩

theorem witness_PaddedMessageIsBelowTheModulus :
    ([] : List Byte).length + cfgT.digest.length + 2 ≤ blen 0x10000 ∧ 0 < blen 0x10000 - cfgT.digest.length - 1 - 0 ∧
    1 = blen 0x10000 - cfgT.digest.length - 1 - 0 ∧ 2 < blen 0x10000 := by decide +kernel

/-- A three-byte modulus takes the empty message with a one-byte digest. -/
theorem witness_RsaEncryptResult :
    (∃ s : State, s.cfg.Legal ∧ Memory.wf s.outBuf = true ∧ s.pubValid = true ∧ s.inLen.toNat ≤ s.cfg.bufBytes ∧
      s.inLen.toNat + s.cfg.digest.length + 2 ≤ byteLength s.pubN ∧ byteLength s.pubN ≤ s.cfg.bufBytes) ∧
    busyT.pubValid = false ∧
    (∃ s : State, s.pubValid = true ∧ s.cfg.bufBytes < s.inLen.toNat ∧ s.inLen = 257) ∧
    (∃ s : State, s.pubValid = true ∧ s.inLen.toNat ≤ s.cfg.bufBytes ∧
      byteLength s.pubN < s.inLen.toNat + s.cfg.digest.length + 2 ∧ s.inLen = 1) ∧
    (∃ s : State, s.cfg.Legal ∧ s.pubValid = true ∧ s.inLen.toNat ≤ s.cfg.bufBytes ∧
      s.inLen.toNat + s.cfg.digest.length + 2 ≤ byteLength s.pubN ∧ s.cfg.bufBytes < byteLength s.pubN) := by
  simp only [Laws.byteLength_eq_blen]
  exact ⟨⟨{ busyT with pubN := 0x10000, pubValid := true }, by decide +kernel⟩, rfl,
    ⟨{ busyT with pubValid := true, inLen := 257 }, by decide⟩,
    ⟨{ busyT with pubN := 0x10000, pubValid := true, inLen := 1 }, by decide +kernel⟩,
    ⟨{ busyT with cfg := { cfgT with bigBits := 4096 }, pubN := 2 ^ 2048, pubValid := true }, by decide +kernel⟩⟩

/-- With the modulus 2²⁴ + 1 and d = 1 the buffer is IN itself: 00 01 D1 41, 00 00 00 01, all zeros. -/
theorem witness_RsaDecryptResult :
    (∃ s : State, s.cfg.Legal ∧ Memory.wf s.outBuf = true ∧ s.privValid = true ∧ s.inLen.toNat ≤ s.cfg.bufBytes ∧
      s.inLen.toNat = byteLength s.privN ∧ 1 < byteLength s.privN ∧
      bigEndianByte (byteLength s.privN) (bigEndian (message s 4) ^ s.privD % s.privN) 1 = 0x01 ∧
      (∀ j, j < 1 → bigEndianByte (byteLength s.privN) (bigEndian (message s 4) ^ s.privD % s.privN) j ≠ 0x01) ∧
      1 + 1 + s.cfg.digest.length ≤ byteLength s.privN) ∧
    (∃ s : State, s.cfg.Legal ∧ Memory.wf s.outBuf = true ∧ s.privValid = true ∧ s.inLen.toNat = byteLength s.privN ∧
      bigEndianByte (byteLength s.privN) (bigEndian (message s 4) ^ s.privD % s.privN) 3 = 0x01 ∧
      (∀ j, j < 3 → bigEndianByte (byteLength s.privN) (bigEndian (message s 4) ^ s.privD % s.privN) j ≠ 0x01) ∧
      byteLength s.privN < 3 + 1 + s.cfg.digest.length) ∧
    (∃ s : State, s.privValid = true ∧ s.inLen.toNat = byteLength s.privN ∧
      ∀ i, i < byteLength s.privN →
        bigEndianByte (byteLength s.privN) (bigEndian (message s 4) ^ s.privD % s.privN) i ≠ 0x01) ∧
    busyT.privValid = false ∧ (∃ s : State, s.privValid = true ∧ s.cfg.bufBytes < s.inLen.toNat ∧ s.inLen = 257) ∧
    (∃ s : State, s.privValid = true ∧ s.inLen.toNat ≤ s.cfg.bufBytes ∧ s.inLen.toNat ≠ byteLength s.privN) := by
  simp only [Laws.byteLength_eq_blen, Laws.bigEndian_eq_beNat]
  exact ⟨⟨loaded [0x00, 0x01, 0xD1, 0x41] { busyT with privN := 2 ^ 24 + 1, privD := 1, privValid := true }, by decide +kernel⟩,
    ⟨loaded [0x00, 0x00, 0x00, 0x01] { busyT with privN := 2 ^ 24 + 1, privD := 1, privValid := true }, by decide +kernel⟩,
    ⟨loaded [0x00, 0x00, 0x00, 0x00] { busyT with privN := 2 ^ 24 + 1, privD := 1, privValid := true }, by decide +kernel⟩,
    rfl, ⟨{ busyT with privValid := true, inLen := 257 }, by decide⟩,
    ⟨{ busyT with privN := 2 ^ 24 + 1, privValid := true, inLen := 3 }, by decide +kernel⟩⟩

/-- p = 4099, q = 4111, e = 7, d = 4812223, the message 41. -/
def rsaFrom : State :=
  loaded [0x41] { busyT with pubE := 7, pubN := 16850989, pubValid := true, privD := 4812223, privN := 16850989, privValid := true }

theorem witness_RsaRoundTrip :
    Nat.Prime 4099 ∧ Nat.Prime 4111 ∧ 4099 ≠ 4111 ∧ Inv rsaFrom ∧ rsaFrom.pubN = 4099 * 4111 ∧
    exec .rsaenc rsaFrom = .next (after .rsaenc rsaFrom) ∧ (after .rsaenc rsaFrom).errcode = .ok ∧
    ∃ u, u = copied (after .rsaenc rsaFrom) ∧ Inv u ∧ u.cfg = rsaFrom.cfg ∧ u.privValid = true ∧ u.privN = 4099 * 4111 ∧
      rsaFrom.pubE * u.privD % ((4099 - 1) * (4111 - 1)) = 1 ∧ u.inLen = (after .rsaenc rsaFrom).outLen ∧
      ∀ i, i < (after .rsaenc rsaFrom).outLen.toNat → inByte u i = outByte (after .rsaenc rsaFrom) i := by
  refine ⟨by norm_num, by norm_num, by decide, ?_, by decide, exec_after ?_, ?_, _, rfl, ?_, ?_, ?_, ?_, ?_, ?_, ?_⟩
  · refine inv_of ?_ ?_ ?_ ?_ ?_ <;> decide +kernel
  · decide +kernel
  · decide +kernel
  · refine inv_of ?_ ?_ ?_ ?_ ?_ <;> decide +kernel
  all_goals decide +kernel

theorem witness_FailedCommandsChangeNothing :
    (busyT.seq = .busy ∧ busyT.drawn = []) ∧
    (exec .aesenc busyT = .next (after .aesenc busyT) ∧ (after .aesenc busyT).seq = .idle ∧
      (after .aesenc busyT).errcode ≠ .ok) ∧
    (exec .cbcdec busyT = .next (after .cbcdec busyT) ∧ (after .cbcdec busyT).seq = .idle ∧
      (after .cbcdec busyT).errcode ≠ .ok ∧ isBufferCommand .cbcdec = true) := by
  refine ⟨by decide, ⟨exec_after rfl, by decide +kernel⟩, exec_after rfl, by decide +kernel⟩

/-- Two commands that wait after one word. -/
def waitT : State := keyed 0 { busyT with arg := 16, rng := [1] }

theorem witness_WaitingTakesWordsOnly :
    waitT.seq = .busy ∧ exec .symkeygen waitT = .next (after .symkeygen waitT) ∧ (after .symkeygen waitT).seq = .busy :=
  ⟨rfl, exec_after rfl, rfl⟩

theorem witness_WaitingIsTransparent :
    (waitT.seq = .busy ∧ exec (.cbcenc .rng) waitT = .next (after (.cbcenc .rng) waitT) ∧
      (after (.cbcenc .rng) waitT).seq = .busy) ∧
    ((drewT 3).seq = .busy ∧ (drewT 3).rng = 7 :: [] ∧
      exec .symkeygen { drewT 3 with rng := [] } = .next (after .symkeygen { drewT 3 with rng := [] }) ∧
      (after .symkeygen { drewT 3 with rng := [] }).seq = .busy) :=
  ⟨⟨rfl, exec_after rfl, rfl⟩, rfl, rfl, exec_after rfl, rfl⟩

theorem witness_AbortEndsAWaitingCommand :
    waitT.seq = .busy ∧
    (exec .symkeygen waitT = .next (after .symkeygen waitT) ∧ (after .symkeygen waitT).seq = .busy ∧
      isBufferCommand .symkeygen = false) ∧
    (exec (.cbcenc .rng) waitT = .next (after (.cbcenc .rng) waitT) ∧ (after (.cbcenc .rng) waitT).seq = .busy ∧
      isBufferCommand (.cbcenc .rng) = true) :=
  ⟨rfl, ⟨exec_after rfl, rfl, rfl⟩, exec_after rfl, rfl, rfl⟩

theorem witness_AbortAfterTheLastDrawIsIgnored :
    Running (drewT 4) ∧ decode (drewT 4).cmd = .ok .symkeygen ∧ (drewT 4).abortReq = false ∧ (0x2 : Word).getLsbD 1 = true ∧
    exec .symkeygen { drewT 4 with rng := [] } = .next (after .symkeygen { drewT 4 with rng := [] }) ∧
    (after .symkeygen { drewT 4 with rng := [] }).seq = .idle :=
  ⟨⟨rfl, rfl⟩, by decide +kernel, rfl, rfl, exec_after rfl, rfl⟩

theorem witness_AbortIsIgnoredWithoutAbortPoint :
    draws (.bmul 0 1 2) = false ∧ xRead (withX [3] busyT) 0 < 5 ∧ xRead (withX [10] busyT) 0 % 2 = 0 ∧ busyT.drawn = [] := by
  decide +kernel

theorem witness_RefusedAccessesHaveNoEffect :
    (idleT.cfg.Legal ∧ idleT.rstn = true) ∧ (0xE : Nibble) ≠ 0xF ∧ (0x0041 : Addr).toNat % 4 ≠ 0 ∧
    (∀ a ∈ [0x0034, 0x003C, 0x0070, 0x00FC, 0x01B0, 0x0FFC, 0x1100, 0x2100, 0x3000, 0x3FFC, 0x4008, 0x57FC, 0x5800, 0xFFFC],
      Unmapped idleT.cfg a) ∧
    (∀ a ∈ [0x0000, 0x0030, 0x0040, 0x006C, 0x0100, 0x01AC, 0x1000, 0x10FC, 0x2000, 0x20FC, 0x4000, 0x4004, 0x5604],
      a % 4 = 0 ∧ ¬ Unmapped idleT.cfg a) := by
  unfold Unmapped
  decide +kernel

theorem witness_ReadsHaveNoSideEffects : idleT.seq = .idle := rfl

theorem witness_ScalarRegisterReads :
    (idleT.rstn = true ∧ idleT.cfg.Legal ∧ idleT.seq = .idle) ∧
    ({ idleT with errcode := .aborted } : State).errcode = .aborted := by decide

/-- The first and the last byte of each window, of IN while Busy too, and the last bit of each big-integer register. -/
theorem witness_WindowReads :
    (idleT.rstn = true ∧ idleT.seq = .idle ∧ idleT.cfg.Legal) ∧
    (busyT.rstn = true ∧ busyT.seq ≠ .idle ∧ busyT.cfg.Legal ∧ (access (.read 0x1000) busyT).resp = .data 0 ∧
      (access (.read 0x10FC) busyT).resp = .data 0) ∧
    (∀ a ∈ [0x0040, 0x004C, 0x005C, 0x006C, 0x01AC, 0x1000, 0x10FC, 0x20FC, 0x4E04, 0x5004, 0x5204, 0x5404, 0x5604],
      a % 4 = 0 ∧ (access (.read (BitVec.ofNat 16 a)) idleT).resp = .data 0) ∧
    (0x0040 + 0 / 8 = 0x0040 + 0 ∧ 0x004C + 31 / 8 = 0x0040 + 15 ∧ 0x005C + 31 / 8 = 0x0050 + 15 ∧
      0x006C + 31 / 8 = 0x0060 + 15 ∧ 0x01AC + 31 / 8 = 0x0100 + 16 * 10 + 15) ∧
    (255 < idleT.cfg.bufBytes ∧ 0x10FC + 31 / 8 = 0x1000 + 255 ∧ 0x20FC + 31 / 8 = 0x2000 + 255) ∧
    (63 < idleT.cfg.bigBits ∧ 0x4E04 * 8 + 31 = (0x4000 + 0x200 * 7) * 8 + 63 ∧ 0x5004 * 8 + 31 = 0x5000 * 8 + 63 ∧
      0x5204 * 8 + 31 = 0x5200 * 8 + 63 ∧ 0x5404 * 8 + 31 = 0x5400 * 8 + 63 ∧ 0x5604 * 8 + 31 = 0x5600 * 8 + 63) := by
  decide +kernel

theorem witness_WrittenWordsReadBack :
    (idleT.rstn = true ∧ idleT.seq = .idle ∧ idleT.cfg.Legal ∧ BuffersOk idleT) ∧
    (∀ a ∈ [0x001C, 0x0020, 0x0028, 0x002C, 0x0040, 0x006C, 0x1000, 0x10FC, 0x4000, 0x4E04, 0x5600, 0x5604],
      a % 4 = 0 ∧ StoringOffset idleT.cfg a) ∧ (0x0044 : Addr) ≠ 0x0040 ∧ (0x0044 : Addr) ≠ 0x0014 := by
  refine ⟨⟨rfl, rfl, by decide, inv_idleT.buffers⟩, ?_⟩
  unfold StoringOffset
  decide +kernel

theorem witness_KeyWritesUnbind :
    (idleT.rstn = true ∧ idleT.seq = .idle ∧ idleT.cfg.Legal) ∧
    (KeyOffset 0x0050 ∧ KeyOffset 0x005C ∧ ¬ KeyOffset 0x004C ∧ ¬ KeyOffset 0x0060) ∧
    (PubOffset idleT.cfg 0x5000 ∧ PubOffset idleT.cfg 0x5204 ∧ ¬ PubOffset idleT.cfg 0x5208 ∧ ¬ PubOffset idleT.cfg 0x5400) ∧
    (PrivOffset idleT.cfg 0x5400 ∧ PrivOffset idleT.cfg 0x5604 ∧ ¬ PrivOffset idleT.cfg 0x5608) := by
  unfold KeyOffset PubOffset PrivOffset
  decide +kernel

theorem witness_ReadOnlyWritesHaveNoEffect :
    (idleT.rstn = true ∧ idleT.seq = .idle ∧ idleT.cfg.Legal) ∧ (busyT.rstn = true ∧ busyT.seq ≠ .idle ∧ busyT.cfg.Legal) ∧
    ∀ a ∈ [0x0000, 0x000C, 0x0024, 0x0030, 0x0100, 0x01AC, 0x2000, 0x20FC], a % 4 = 0 ∧ ReadOnlyOffset idleT.cfg a := by
  unfold ReadOnlyOffset
  decide +kernel

theorem witness_WritesWhileBusyAreDropped :
    (busyT.rstn = true ∧ busyT.seq ≠ .idle ∧ busyT.cfg.Legal) ∧
    ({ busyT with seq := .init } : State).seq ≠ .idle ∧
    ∀ a ∈ [0x0018, 0x0028, 0x0050, 0x20FC, 0x5604],
      a % 4 = 0 ∧ ¬ Unmapped busyT.cfg a ∧ BitVec.ofNat 16 a ≠ 0x0010 ∧ BitVec.ofNat 16 a ≠ 0x0014 := by
  unfold Unmapped
  decide +kernel

theorem witness_ControlAndStatusWrites : busyT.rstn = true ∧ idleT.rstn = true := ⟨rfl, rfl⟩

theorem witness_InterruptLevel :
    (busyT.seq = .busy ∧ exec .nop busyT = .next (after .nop busyT) ∧ (after .nop busyT).seq = .idle) ∧ idleT.rstn = true ∧
    (0x2 : Word).getLsbD 1 = true ∧ idleT.seq = .idle := ⟨⟨rfl, exec_after rfl, rfl⟩, rfl, rfl, rfl⟩

theorem witness_HostAccessWhileBusyKeepsTheCommand : busyT.seq ≠ .idle := by decide

theorem witness_CoincidentFinish :
    busyT.rstn = true ∧ busyT.seq = .busy ∧ runSequencer busyT = .next (after .nop busyT) ∧ (after .nop busyT).seq = .idle := by
  refine ⟨rfl, rfl, ?_, rfl⟩
  have h : runSequencer busyT = runCommand busyT := rfl
  have hd : decode (fetchCommand busyT) = .ok .nop := by decide +kernel
  rw [h, runCommand, hd]
  exact exec_after rfl

theorem witness_ResetSequence :
    idleT.cfg.Legal ∧ ∀ a ∈ [0x0000, 0x0004, 0x0008, 0x0014, 0x01AC, 0x5604],
      a % 4 = 0 ∧ ¬ Unmapped idleT.cfg a ∧ BitVec.ofNat 16 a ≠ 0x000C := by
  unfold Unmapped
  decide +kernel

theorem witness_StepKeepsTheInvariant : Inv idleT ∧ step idleT = .next idleT := ⟨inv_idleT, rfl⟩

/-- Steps that bind a symmetric key, and a key pair. -/
theorem witness_OnlyBindingCommandsBindKeys :
    (∃ s t : State, step s = .next t ∧ s.keyValid = false ∧ t.keyValid = true) ∧
    (∃ s t : State, step s = .next t ∧ s.pubValid = false ∧ t.pubValid = true) ∧
    (∃ s t : State, step s = .next t ∧ s.privValid = false ∧ t.privValid = true) := by
  have hs : ∀ (w : Word) (i : Instr) (s : State), decode w = .ok i →
      step { s with seq := .busy, rstn := true, cmd := w, inputs := [] } =
        exec i { s with seq := .busy, rstn := true, cmd := w, inputs := [] } := by
    intro w i s h
    simp only [step, stepEvent, runSequencer, runCommand, fetchCommand, h, Bool.not_true, Bool.false_eq_true, if_false]
  refine ⟨⟨{ busyT with seq := .busy, rstn := true, cmd := 0x00000120, inputs := [] }, _,
      (hs 0x00000120 (.keybind ⟨true, false, false⟩) busyT (by decide +kernel)).trans (exec_after ?_), rfl, ?_⟩,
    ⟨{ { busyT with pubN := 2 } with seq := .busy, rstn := true, cmd := 0x00000220, inputs := [] }, _,
      (hs 0x00000220 (.keybind ⟨false, true, false⟩) { busyT with pubN := 2 } (by decide +kernel)).trans (exec_after ?_), rfl,
      ?_⟩,
    ⟨{ { busyT with privN := 2 } with seq := .busy, rstn := true, cmd := 0x00000420, inputs := [] }, _,
      (hs 0x00000420 (.keybind ⟨false, false, true⟩) { busyT with privN := 2 } (by decide +kernel)).trans (exec_after ?_), rfl,
      ?_⟩⟩ <;> decide +kernel

theorem witness_CommandsWriteOnlyTheirDestinations :
    exec .nop busyT = .next (after .nop busyT) ∧ isBufferCommand .nop = false := ⟨exec_after rfl, rfl⟩

theorem witness_ConfigurationIsFixed : step busyT = .next (after .nop busyT) := by
  have hd : decode (fetchCommand busyT) = .ok .nop := by decide +kernel
  show runCommand busyT = _
  rw [runCommand, hd]
  exact exec_after rfl

theorem witness_UnboundRoundKeysAreNotUsed : busyT.keyValid = false ∧ exec .aesenc busyT = .next (after .aesenc busyT) :=
  ⟨rfl, exec_after rfl⟩

end Sys2Proof.Tests
end

/-! The scalar registers on the host bus: what a read and a write of each does, and the words of STATUS, CTRL and CFG2 bit by bit
(10_state.md R20 to R35; 20_memory.md R78, R79). -/

namespace Sys2Proof.Proofs

open Sys2Proof.Machine Sys2Proof.Laws

/-! ### Mapped accesses -/

theorem busy_eq_true_iff (s : State) : busy s = true ↔ s.seq ≠ .idle := by simp [busy]

theorem busy_eq_false_iff (s : State) : busy s = false ↔ s.seq = .idle := by simp [busy]

theorem scalarTarget_aligned_lt {a : Nat} {t : Target} (h : scalarTarget a = some t) : a % 4 = 0 ∧ a < 0x0040 := by
  unfold scalarTarget at h
  split at h
  case h_14 => cases h
  all_goals decide

/-- The table of the scalar registers is the low end of the register map. -/
theorem accessTarget_of_scalarTarget {c : Config} {a : Addr} {t : Target} (h : scalarTarget a.toNat = some t) :
    accessTarget c a = some t := by
  obtain ⟨ha, hlt⟩ := scalarTarget_aligned_lt h
  have hin : a.toNat < inBase := by unfold inBase; omega
  rw [accessTarget, if_neg (not_not.mpr ha), targetAt, if_pos hin, lowTarget, if_pos hlt, h]

/-- A read of a target that the phase lets the host read answers its word and changes nothing else. -/
theorem read_mapped {s : State} {a : Addr} {t : Target} (hr : s.rstn = true) (ht : accessTarget s.cfg a = some t)
    (hb : busy s = false ∨ readableWhileBusy t = true) :
    access (.read a) s = { s with resp := .data (readTarget s t) } := by
  have hb' : (!busy s || readableWhileBusy t) = true := by simpa using hb
  simp only [access, hostRead, hr, ht, hb', Bool.not_true, Bool.false_eq_true, if_false, if_true]

/-- A full-strobe write of a target that the phase lets the host write is accepted. -/
theorem write_mapped {s : State} {a : Addr} {t : Target} (v : Word) (hr : s.rstn = true)
    (ht : accessTarget s.cfg a = some t) (hb : busy s = false ∨ writableWhileBusy t = true) :
    access (.write a v 0xF) s = { writeTarget v s t with resp := .okay } := by
  have hb' : (!busy s || writableWhileBusy t) = true := by simpa using hb
  simp only [access, hostWrite, hr, ht, hb', Bool.not_true, Bool.false_eq_true, ne_eq, not_true_eq_false, if_false, if_true]

theorem write_status {s : State} (v : Word) (hr : s.rstn = true) :
    access (.write 0x0014 v 0xF) s = { writeStatus v s with resp := .okay } :=
  write_mapped v hr (accessTarget_of_scalarTarget (t := .status) rfl) (.inr rfl)

theorem write_ctrl {s : State} (v : Word) (hr : s.rstn = true) :
    access (.write 0x0010 v 0xF) s = { writeCtrl v s with resp := .okay } :=
  write_mapped v hr (accessTarget_of_scalarTarget (t := .ctrl) rfl) (.inr rfl)

/-- A scalar register that 20_memory.md R79 lists is read in every phase. -/
theorem read_scalar {s : State} {a : Addr} {t : Target} (hr : s.rstn = true) (h : scalarTarget a.toNat = some t)
    (hb : readableWhileBusy t = true) : access (.read a) s = { s with resp := .data (readTarget s t) } :=
  read_mapped hr (accessTarget_of_scalarTarget h) (.inr hb)

/-- While Idle every scalar register is read. -/
theorem read_scalar_idle {s : State} {a : Addr} {t : Target} (hr : s.rstn = true) (hi : s.seq = .idle)
    (h : scalarTarget a.toNat = some t) : access (.read a) s = { s with resp := .data (readTarget s t) } :=
  read_mapped hr (accessTarget_of_scalarTarget h) (.inl ((busy_eq_false_iff s).mpr hi))

/-! ### The words of CTRL, CFG2 and STATUS -/

theorem toNat_ctrlWord (s : State) : (ctrlWord s).toNat = s.ie.toNat := by
  cases h : s.ie <;> simp [ctrlWord, h]

theorem getLsbD_ctrlWord_zero (s : State) : (ctrlWord s).getLsbD 0 = s.ie := by simp [ctrlWord]

theorem getLsbD_ctrlWord_of_pos (s : State) {i : Nat} (hi : 1 ≤ i) : (ctrlWord s).getLsbD i = false := by
  simp [ctrlWord]; omega

/-- Concatenation as a sum: the low word counts as it stands, the high one at its place. -/
theorem toNat_append_eq_add {m n : Nat} (x : BitVec m) (y : BitVec n) : (x ++ y).toNat = x.toNat * 2 ^ n + y.toNat := by
  rw [BitVec.toNat_append, ← Nat.shiftLeft_add_eq_or_of_lt y.isLt, Nat.shiftLeft_eq]

/-- The fields of CFG2 as a number: MR_ROUNDS and the digest's length fit in their bytes. -/
theorem toNat_cfg2Word {c : Config} (hc : c.Legal) :
    (cfg2Word c).toNat = c.digest.length + c.mrRounds * 2 ^ 8 + 8 * 2 ^ 16 := by
  obtain ⟨-, -, ⟨-, hm⟩, hd⟩ := hc
  have hm' : c.mrRounds < 2 ^ 8 := by omega
  have hd' : c.digest.length < 2 ^ 8 := by omega
  simp only [cfg2Word, Config.digestSize, toNat_append_eq_add, BitVec.toNat_ofNat, Nat.mod_eq_of_lt hm', Nat.mod_eq_of_lt hd']
  omega

/-- The flags of STATUS stand at the bits that 10_state.md R27 gives them. -/
theorem getLsbD_statusWord (s : State) :
    (statusWord s).getLsbD 0 = busy s ∧ (statusWord s).getLsbD 1 = s.done ∧ (statusWord s).getLsbD 2 = s.wbusy ∧
    (statusWord s).getLsbD 3 = false ∧ (statusWord s).getLsbD 4 = s.keyValid ∧ (statusWord s).getLsbD 5 = s.pubValid ∧
    (statusWord s).getLsbD 6 = s.privValid ∧ (statusWord s).getLsbD 7 = false ∧ (statusWord s).getLsbD 8 = s.prime ∧
    (statusWord s).getLsbD 9 = s.ovf := by
  simp only [statusWord, BitVec.getLsbD_append]
  simp

theorem extractLsb'_statusWord_errcode (s : State) : (statusWord s).extractLsb' 16 8 = errByte s.errcode := by
  simp (disch := decide) only [statusWord, BitVec.extractLsb'_append_eq_of_le]
  exact BitVec.extractLsb'_append_eq_right

/-- The reserved bits between OVF and ERRCODE. -/
theorem extractLsb'_statusWord_middle (s : State) : (statusWord s).extractLsb' 10 6 = 0 := by
  simp (disch := decide) only [statusWord, BitVec.extractLsb'_append_eq_of_le]
  exact BitVec.extractLsb'_append_eq_right

/-- The reserved bits above ERRCODE. -/
theorem extractLsb'_statusWord_top (s : State) : (statusWord s).extractLsb' 24 8 = 0 := by
  simp (disch := decide) only [statusWord, BitVec.extractLsb'_append_eq_of_le]
  rfl

/-! ### The obligations -/

/-- Settles O50: a write to STATUS is `writeStatus`, a write to CTRL `writeCtrl`, and CTRL reads `ctrlWord`, in every phase. -/
theorem controlAndStatusWrites : Obligations.ControlAndStatusWrites := by
  unfold Obligations.ControlAndStatusWrites
  intro s v hr
  exact ⟨⟨_, write_status v hr, rfl, by simp, by simp⟩, ⟨_, write_ctrl v hr, rfl, by simp⟩,
    ctrlWord s, read_scalar (t := .ctrl) hr rfl rfl, getLsbD_ctrlWord_zero s, fun _ => getLsbD_ctrlWord_of_pos s⟩

/-- Settles O44: each offset names its register, and the words of CFG2, CTRL and STATUS are read off their layouts. -/
theorem scalarRegisterReads : Obligations.ScalarRegisterReads := by
  unfold Obligations.ScalarRegisterReads
  intro s hr hc
  obtain ⟨hbusy, hflags⟩ := getLsbD_statusWord s
  refine ⟨?_, fun hi => ⟨read_scalar_idle (t := .outLen) hr hi rfl,
      read_scalar_idle (t := .res) hr hi rfl⟩,
    ⟨cfg2Word s.cfg, read_scalar (t := .cfg2) hr rfl rfl, toNat_cfg2Word hc⟩,
    ⟨ctrlWord s, read_scalar (t := .ctrl) hr rfl rfl, toNat_ctrlWord s⟩,
    statusWord s, read_scalar (t := .status) hr rfl rfl, ?_⟩
  · simp only [List.forall_mem_cons]
    exact ⟨read_scalar (t := .id) hr rfl rfl, read_scalar (t := .cfg0) hr rfl rfl,
      read_scalar (t := .cfg1) hr rfl rfl, read_scalar (t := .cmd) hr rfl rfl,
      read_scalar (t := .arg) hr rfl rfl, read_scalar (t := .inLen) hr rfl rfl,
      read_scalar (t := .opa) hr rfl rfl, read_scalar (t := .opb) hr rfl rfl,
      List.forall_mem_nil _⟩
  · obtain ⟨hdone, hwbusy, h3, hkey, hpub, hpriv, h7, hprime, hovf⟩ := hflags
    refine ⟨by rw [hbusy, busy_eq_true_iff], hdone, hwbusy, h3, hkey, hpub, hpriv, h7, hprime, hovf,
      extractLsb'_statusWord_middle s, extractLsb'_statusWord_top s, fun p hp he => ?_⟩
    rw [extractLsb'_statusWord_errcode, he]
    clear he
    revert p
    decide

end Sys2Proof.Proofs

/-! The register map and the refusals of the host bus: which aligned offsets are mapped, and what every read and write of them
answers and leaves unchanged (10_state.md R21; 20_memory.md R71 to R74, R76, R78). -/

namespace Sys2Proof.Proofs

open Sys2Proof.Machine Sys2Proof.Laws

/-! ### The unmapped offsets, map by map -/

theorem scalarTarget_eq_none_iff {a : Nat} (ha : a % 4 = 0) (hlt : a < 0x0040) : scalarTarget a = none ↔ 0x0034 ≤ a := by
  have h : ∀ b < 0x0040, b % 4 = 0 → (scalarTarget b = none ↔ 0x0034 ≤ b) := by decide
  exact h a hlt ha

theorem lowTarget_eq_none_iff {a : Nat} (ha : a % 4 = 0) :
    lowTarget a = none ↔ (0x0034 ≤ a ∧ a < 0x0040) ∨ (0x0070 ≤ a ∧ a < 0x0100) ∨ 0x01B0 ≤ a := by
  unfold lowTarget
  split_ifs with hlt
  · rw [scalarTarget_eq_none_iff ha hlt]
    omega
  all_goals simp only [true_iff, false_iff]; omega

theorem bigTarget_eq_none_iff (c : Config) (r : BigReg) (o : Nat) : bigTarget c r o = none ↔ c.bigBits / 8 ≤ o := by
  simp [bigTarget]

/-- Every slot is 0x200 wide, so the offset in the slot is the address modulo 0x200. -/
theorem bigSlotTarget_eq_none_iff {c : Config} {a : Nat} (ha : 0x4000 ≤ a) :
    bigSlotTarget c a = none ↔ (a < 0x5800 ∧ c.bigBits / 8 ≤ a % 0x200) ∨ 0x5800 ≤ a := by
  unfold bigSlotTarget
  split_ifs <;> simp only [bigTarget_eq_none_iff, true_iff] <;> omega

/-- The register map leaves out exactly the offsets that 10_state.md R21 lists as unmapped. -/
theorem targetAt_eq_none_iff {c : Config} {a : Nat} (ha : a % 4 = 0) : targetAt c a = none ↔ Unmapped c a := by
  unfold targetAt inBase outBase Unmapped
  split_ifs <;> simp (disch := omega) only [lowTarget_eq_none_iff, bigSlotTarget_eq_none_iff, true_iff, false_iff] <;> omega

theorem accessTarget_eq_none_iff {c : Config} {a : Addr} :
    accessTarget c a = none ↔ a.toNat % 4 ≠ 0 ∨ Unmapped c a.toNat := by
  by_cases ha : a.toNat % 4 = 0
  · simp [accessTarget, ha, targetAt_eq_none_iff ha]
  · simp [accessTarget, ha]

theorem exists_accessTarget {c : Config} {a : Addr} (ha : a.toNat % 4 = 0) (hm : ¬ Unmapped c a.toNat) :
    ∃ t, accessTarget c a = some t := by
  rw [← Option.ne_none_iff_exists', ne_eq, accessTarget_eq_none_iff]
  exact fun h => h.elim (· ha) hm

theorem targetAt_of_accessTarget {c : Config} {a : Addr} {t : Target} (h : accessTarget c a = some t) :
    targetAt c a.toNat = some t := by
  unfold accessTarget at h
  split at h
  · cases h
  · exact h

/-! ### Targets that a write leaves alone, and targets that it reaches in every phase -/

/-- Only CTRL and STATUS are writable while Busy. -/
theorem writableWhileBusy_iff (t : Target) : writableWhileBusy t = true ↔ t = .ctrl ∨ t = .status := by
  cases t <;> simp [writableWhileBusy]

theorem offset_of_scalarTarget_ctrl_or_status {a : Nat} {t : Target} (h : scalarTarget a = some t)
    (ht : t = .ctrl ∨ t = .status) : a = 0x0010 ∨ a = 0x0014 := by
  unfold scalarTarget at h
  rcases ht with rfl | rfl <;> split at h <;> simp at h ⊢

/-- CTRL and STATUS stand at their own offsets only. -/
theorem offset_of_writableWhileBusy {c : Config} {a : Addr} {t : Target} (h : accessTarget c a = some t)
    (ht : writableWhileBusy t = true) : a = 0x0010 ∨ a = 0x0014 := by
  rw [writableWhileBusy_iff] at ht
  have hs : scalarTarget a.toNat = some t := by
    rcases targetAt_cases (targetAt_of_accessTarget h) with ⟨-, hl⟩ | ⟨-, -, rfl⟩ | ⟨-, -, rfl⟩ | ⟨-, hb⟩
    · rcases lowTarget_cases hl with ⟨-, hs⟩ | ⟨-, -, rfl⟩ | ⟨-, -, rfl⟩ | ⟨-, -, rfl⟩ | ⟨-, -, rfl⟩
      · exact hs
      all_goals simp at ht
    · simp at ht
    · simp at ht
    · obtain ⟨r, o, rfl, -⟩ := bigSlotTarget_cases hb
      simp at ht
  have ha := offset_of_scalarTarget_ctrl_or_status hs ht
  bv_omega

theorem writeTarget_scalar_readOnly {a : Nat} {t : Target} (ha : a % 4 = 0) (h : scalarTarget a = some t)
    (hro : a < 0x0010 ∨ a = 0x0024 ∨ a = 0x0030) (v : Word) (s : State) : writeTarget v s t = s := by
  obtain rfl | rfl | rfl | rfl | rfl | rfl :
      a = 0x0000 ∨ a = 0x0004 ∨ a = 0x0008 ∨ a = 0x000C ∨ a = 0x0024 ∨ a = 0x0030 := by omega
  all_goals
    obtain rfl := Option.some.inj h
    rfl

/-- A write to a word of a read-only register or window stores nothing (20_memory.md R74). -/
theorem writeTarget_readOnly {c : Config} {a : Nat} {t : Target} (hc : c.Legal) (ha : a % 4 = 0)
    (h : targetAt c a = some t) (hro : ReadOnlyOffset c a) (v : Word) (s : State) : writeTarget v s t = s := by
  obtain ⟨⟨-, -, hbuf⟩, -⟩ := hc
  unfold ReadOnlyOffset at hro
  rcases targetAt_cases h with ⟨-, hl⟩ | ⟨h1, h2, rfl⟩ | ⟨-, -, rfl⟩ | ⟨h1, -⟩
  · rcases lowTarget_cases hl with ⟨hlt, hs⟩ | ⟨_, _, -⟩ | ⟨_, _, -⟩ | ⟨_, _, -⟩ | ⟨-, -, rfl⟩
    · exact writeTarget_scalar_readOnly ha hs (by omega) v s
    · omega
    · omega
    · omega
    · rfl
  · unfold inBase at h1 h2
    omega
  · rfl
  · omega

theorem not_unmapped_of_readOnlyOffset {c : Config} {a : Nat} (hc : c.Legal) (ha : a % 4 = 0) (h : ReadOnlyOffset c a) :
    ¬ Unmapped c a := by
  obtain ⟨⟨-, -, hbuf⟩, -⟩ := hc
  unfold ReadOnlyOffset at h
  unfold Unmapped
  omega

/-! ### What a read and a write do, outcome by outcome

With `read_mapped` and `write_mapped` these are all the outcomes of an access. -/

theorem read_in_reset {s : State} (a : Addr) (hr : s.rstn = false) :
    access (.read a) s = { s with resp := .noResponse } := by
  simp only [access, hostRead, hr, Bool.not_false, if_true]

theorem read_refused {s : State} {a : Addr} (hr : s.rstn = true) (ht : accessTarget s.cfg a = none) :
    access (.read a) s = { s with resp := .slverr } := by
  simp only [access, hostRead, hr, ht, Bool.not_true, Bool.false_eq_true, if_false]

/-- A read that the phase makes unspecified gives the next free value (20_memory.md R79). -/
theorem read_unspecified {s : State} {a : Addr} {t : Target} (hr : s.rstn = true) (ht : accessTarget s.cfg a = some t)
    (hb : ¬ (busy s = false ∨ readableWhileBusy t = true)) :
    access (.read a) s = { s with resp := .data (Config.freeRead s.fresh), fresh := s.fresh + 1 } := by
  have hb' : ¬ (!busy s || readableWhileBusy t) = true := by simpa using hb
  simp only [access, hostRead, hr, ht, if_neg hb', Bool.not_true, Bool.false_eq_true, if_false]

theorem write_partial {s : State} (a : Addr) (v : Word) {strb : Nibble} (hr : s.rstn = true) (hs : strb ≠ 0xF) :
    access (.write a v strb) s = { s with resp := .slverr } := by
  simp only [access, hostWrite, hr, if_pos hs, Bool.not_true, Bool.false_eq_true, if_false]

theorem write_refused {s : State} {a : Addr} (v : Word) (strb : Nibble) (hr : s.rstn = true)
    (ht : accessTarget s.cfg a = none) : access (.write a v strb) s = { s with resp := .slverr } := by
  by_cases hs : strb = 0xF
  · simp only [access, hostWrite, hr, ht, hs, ne_eq, not_true_eq_false, Bool.not_true, Bool.false_eq_true, if_false]
  · exact write_partial a v hr hs

/-- A full-strobe write of a target that the phase keeps from the host is dropped (20_memory.md R78). -/
theorem write_dropped {s : State} {a : Addr} {t : Target} (v : Word) (hr : s.rstn = true)
    (ht : accessTarget s.cfg a = some t) (hb : ¬ (busy s = false ∨ writableWhileBusy t = true)) :
    access (.write a v 0xF) s = { s with wbusy := true, resp := .okay } := by
  have hb' : ¬ (!busy s || writableWhileBusy t) = true := by simpa using hb
  simp only [access, hostWrite, hr, ht, if_neg hb', Bool.not_true, Bool.false_eq_true, ne_eq, not_true_eq_false, if_false]

theorem resp_read_mapped {s : State} {a : Addr} {t : Target} (hr : s.rstn = true) (ht : accessTarget s.cfg a = some t) :
    ∃ d, (access (.read a) s).resp = .data d := by
  by_cases hb : busy s = false ∨ readableWhileBusy t = true
  · exact ⟨_, by rw [read_mapped hr ht hb]⟩
  · exact ⟨_, by rw [read_unspecified hr ht hb]⟩

theorem resp_write_mapped {s : State} {a : Addr} {t : Target} (v : Word) (hr : s.rstn = true)
    (ht : accessTarget s.cfg a = some t) : (access (.write a v 0xF) s).resp = .okay := by
  by_cases hb : busy s = false ∨ writableWhileBusy t = true
  · rw [write_mapped v hr ht hb]
  · rw [write_dropped v hr ht hb]

/-- While Idle a read touches the response alone. -/
theorem read_idle {s : State} (a : Addr) (hi : s.seq = .idle) : ∃ r, access (.read a) s = { s with resp := r } := by
  rcases hostRead_cases a s with h | ⟨hb, -⟩
  · exact h
  · exact absurd hi ((busy_eq_true_iff s).mp hb)

/-- What the last access answered is not read back. -/
theorem readTarget_setResp (s : State) (r : BusResponse) (t : Target) : readTarget { s with resp := r } t = readTarget s t := rfl

theorem resp_read_setResp {s : State} (r : BusResponse) (a : Addr) (hi : s.seq = .idle) :
    (access (.read a) { s with resp := r }).resp = (access (.read a) s).resp := by
  by_cases hr : s.rstn = true
  · rcases ht : accessTarget s.cfg a with _ | t
    · rw [read_refused hr ht, read_refused (s := { s with resp := r }) hr ht]
    · have hb := (busy_eq_false_iff s).mpr hi
      rw [read_mapped hr ht (.inl hb), read_mapped (s := { s with resp := r }) hr ht (.inl hb), readTarget_setResp]
  · rw [Bool.not_eq_true] at hr
    rw [read_in_reset a hr, read_in_reset (s := { s with resp := r }) a hr]

/-! ### The obligations -/

/-- Settles O49: a mapped offset names a target, and only CTRL and STATUS name one that is writable in every phase. -/
theorem writesWhileBusyAreDropped : Obligations.WritesWhileBusyAreDropped := by
  unfold Obligations.WritesWhileBusyAreDropped
  intro s a v hr hi _ ha hm hctrl hstatus
  obtain ⟨t, ht⟩ := exists_accessTarget ha hm
  refine write_dropped v hr ht ?_
  rintro (hb | hw)
  · exact hi ((busy_eq_false_iff s).mp hb)
  · exact (offset_of_writableWhileBusy ht hw).elim hctrl hstatus

/-- Settles O48: a read-only offset is mapped, and its target stores nothing; while not Idle O49 says the rest. -/
theorem readOnlyWritesHaveNoEffect : Obligations.ReadOnlyWritesHaveNoEffect := by
  unfold Obligations.ReadOnlyWritesHaveNoEffect
  intro s a v hr hc ha hro
  have hm := not_unmapped_of_readOnlyOffset hc ha hro
  refine ⟨fun hi => ?_, fun hi => ?_⟩
  · obtain ⟨t, ht⟩ := exists_accessTarget ha hm
    rw [write_mapped v hr ht (.inl ((busy_eq_false_iff s).mpr hi)),
      writeTarget_readOnly hc ha (targetAt_of_accessTarget ht) hro]
  · unfold ReadOnlyOffset at hro
    exact writesWhileBusyAreDropped s a v hr hi hc ha hm (by rintro rfl; simp at hro) (by rintro rfl; simp at hro)

/-- Settles O42: the register map answers none exactly for the misaligned and the unmapped offsets. -/
theorem refusedAccessesHaveNoEffect : Obligations.RefusedAccessesHaveNoEffect := by
  unfold Obligations.RefusedAccessesHaveNoEffect
  intro s a v strb _ hr
  refine ⟨write_partial a v hr, fun h => ?_, fun ha hm => ?_⟩
  · have ht := accessTarget_eq_none_iff.mpr h
    exact ⟨read_refused hr ht, write_refused v strb hr ht⟩
  · obtain ⟨t, ht⟩ := exists_accessTarget ha hm
    exact ⟨resp_write_mapped v hr ht, resp_read_mapped hr ht⟩

/-- Settles O43: a read sets the response and at most counts a free value, and no answer depends on the last response. -/
theorem readsHaveNoSideEffects : Obligations.ReadsHaveNoSideEffects := by
  unfold Obligations.ReadsHaveNoSideEffects
  intro s a
  refine ⟨?_, fun hi => ⟨?_, fun b => ?_⟩⟩
  · change hostRead a s = { s with resp := (hostRead a s).resp, fresh := (hostRead a s).fresh }
    rcases hostRead_cases a s with ⟨r, h⟩ | ⟨-, h⟩ <;> rw [h]
  · obtain ⟨r, h⟩ := read_idle a hi
    rw [h]
  · obtain ⟨r, h⟩ := read_idle b hi
    rw [h, resp_read_setResp r a hi]

end Sys2Proof.Proofs

/-! Command words: the checks of the decoder field by field, the words it accepts, and the command it reads from each
(30_encoding.md R101 to R105, R108). -/

namespace Sys2Proof.Proofs

open Sys2Proof.Machine Sys2Proof.Laws

/-! ### The fields of a word -/

theorem fieldOP_eq_setWidth (w : Word) : fieldOP w = w.setWidth 8 := (BitVec.setWidth_eq_extractLsb' (by decide) : _).symm

theorem toNat_fieldOP (w : Word) : (fieldOP w).toNat = w.toNat % 256 := by simp [fieldOP]

theorem toNat_fieldFA (w : Word) : (fieldFA w).toNat = w.toNat / 2 ^ 8 % 16 := by
  simp [fieldFA, Nat.shiftRight_eq_div_pow]

theorem toNat_fieldFB (w : Word) : (fieldFB w).toNat = w.toNat / 2 ^ 12 % 16 := by
  simp [fieldFB, Nat.shiftRight_eq_div_pow]

theorem toNat_fieldFC (w : Word) : (fieldFC w).toNat = w.toNat / 2 ^ 16 % 16 := by
  simp [fieldFC, Nat.shiftRight_eq_div_pow]

theorem toNat_fieldFD (w : Word) : (fieldFD w).toNat = w.toNat / 2 ^ 20 % 16 := by
  simp [fieldFD, Nat.shiftRight_eq_div_pow]

theorem fieldRSV_eq_zero_iff (w : Word) : fieldRSV w = 0 ↔ w.toNat < 2 ^ 24 := by
  have hw := w.isLt
  rw [← BitVec.toNat_inj, fieldRSV, BitVec.extractLsb'_toNat, Nat.shiftRight_eq_div_pow,
    show (0 : Byte).toNat = 0 from rfl]
  omega

/-- A word whose RSV is 0 is its opcode and operand fields, packed. -/
theorem packWord_fields_of_fieldRSV {w : Word} (h : fieldRSV w = 0) :
    packWord (fieldOP w) (fieldFA w) (fieldFB w) (fieldFC w) (fieldFD w) = w := by
  apply BitVec.eq_of_toNat_eq
  have hlt := (fieldRSV_eq_zero_iff w).mp h
  simp only [packWord, toNat_append_eq_add, toNat_fieldOP, toNat_fieldFA, toNat_fieldFB, toNat_fieldFC, toNat_fieldFD,
    BitVec.toNat_ofNat]
  omega

/-! ### Checked operands read back as their fields -/

theorem xregField_xregOf {v : Nibble} (h : v.toNat ≤ 7) : xregField (xregOf v) = v := by
  revert v
  decide

theorem roundField_roundOf {v : Nibble} (h : v.toNat ≤ 10) : roundField (roundOf v) = v := by
  revert v
  decide

theorem maskField_maskOf {v : Nibble} (h : v.toNat ≤ 7) : maskField (maskOf v) = v := by
  revert v
  decide

theorem nonempty_maskOf {v : Nibble} (h : 1 ≤ v.toNat ∧ v.toNat ≤ 7) : (maskOf v).nonempty = true := by
  revert v
  decide

theorem ivSourceField_ivSourceOf {v : Nibble} (h : v.toNat ≤ 1) : ivSourceField (ivSourceOf v) = v := by
  revert v
  decide

theorem xregOf_inj {v u : Nibble} (hv : v.toNat ≤ 7) (hu : u.toNat ≤ 7) : xregOf v = xregOf u ↔ v = u :=
  ⟨fun h => by rw [← xregField_xregOf hv, h, xregField_xregOf hu], fun h => h ▸ rfl⟩

/-! ### The check of the fields -/

/-- The legal values of an operand kind (30_encoding.md R102). -/
def KindAllows : Kind → Nibble → Prop
  | .unused, v => v = 0
  | .xreg, v => v.toNat ≤ 7
  | .rnd, v => v.toNat ≤ 10
  | .mask, v => 1 ≤ v.toNat ∧ v.toNat ≤ 7
  | .ivs, v => v.toNat ≤ 1

theorem fieldError_eq_none_iff (k : Kind) (v : Nibble) : fieldError k v = none ↔ KindAllows k v := by
  cases k
  case mask => simp [fieldError, KindAllows, Nat.one_le_iff_ne_zero]
  all_goals simp [fieldError, KindAllows]

/-- The kinds of the row allow the four fields. -/
def RowAllows (r : OpRow) (fa fb fc fd : Nibble) : Prop :=
  KindAllows r.fa fa ∧ KindAllows r.fb fb ∧ KindAllows r.fc fc ∧ KindAllows r.fd fd

theorem operandError_eq_none_iff (r : OpRow) (w : Word) :
    operandError r w = none ↔ RowAllows r (fieldFA w) (fieldFB w) (fieldFC w) (fieldFD w) := by
  simp only [operandError, RowAllows, Option.or_eq_none_iff, fieldError_eq_none_iff]

/-! ### The rows of the opcode map -/

/-- Each row is the one that its opcode finds. -/
theorem find_row_op {r : OpRow} (hr : r ∈ opcodeMap) : opcodeMap.find? (fun r' => r'.op == r.op) = some r := by
  revert r
  decide

theorem find_row_iff (op : Byte) (r : OpRow) :
    opcodeMap.find? (fun r' => r'.op == op) = some r ↔ r ∈ opcodeMap ∧ r.op = op := by
  constructor
  · intro h
    exact ⟨List.mem_of_find?_eq_some h, by simpa using List.find?_some h⟩
  · rintro ⟨hr, rfl⟩
    exact find_row_op hr

/-- What a row of the map reads from fields its kinds allow: the command with the row's opcode and these fields. It is
well-formed except for RSAKEYGEN with one register as both destinations. -/
theorem instrOf_row {r : OpRow} {fa fb fc fd : Nibble} (hr : r ∈ opcodeMap) (h : RowAllows r fa fb fc fd) :
    ∃ i, instrOf r.op fa fb fc fd = some i ∧ encode i = packWord r.op fa fb fc fd ∧ opcodeOf i = r.op ∧
      (i.wellFormed = true ↔ (r.op = 0x60 → fa ≠ fb)) := by
  obtain ⟨ha, hb, hc, hd⟩ := h
  simp only [opcodeMap, opRowsBytes, opRowsCipher, opRowsBig, List.cons_append, List.nil_append, List.mem_cons,
    List.not_mem_nil, or_false] at hr
  rcases hr with rfl | rfl | rfl | rfl | rfl | rfl | rfl | rfl | rfl | rfl | rfl | rfl | rfl | rfl | rfl | rfl | rfl |
    rfl | rfl | rfl | rfl | rfl | rfl | rfl | rfl | rfl | rfl
  all_goals
    simp only [KindAllows] at ha hb hc hd
    refine ⟨_, rfl, ?_, rfl, ?_⟩
    · simp [encode, opcodeOf, xregField_xregOf, roundField_roundOf, maskField_maskOf, ivSourceField_ivSourceOf, *]
    · simp [Instr.wellFormed, nonempty_maskOf, xregOf_inj, *]

/-- The opcode map has a row for the word's opcode whose kinds allow its operand fields. -/
def HasRow (w : Word) : Prop :=
  ∃ r ∈ opcodeMap, r.op = fieldOP w ∧ RowAllows r (fieldFA w) (fieldFB w) (fieldFC w) (fieldFD w)

/-- R104 through the opcode map: each row lies in the form of R104 that has its operand kinds, and each opcode of a form has
its row. -/
theorem legalWord_iff (w : Word) : LegalWord w ↔
    fieldRSV w = 0 ∧ HasRow w ∧ (fieldOP w = 0x60 → fieldFA w ≠ fieldFB w) := by
  rw [fieldRSV_eq_zero_iff]
  simp only [LegalWord, ← toNat_fieldOP, ← toNat_fieldFA, ← toNat_fieldFB, ← toNat_fieldFC, ← toNat_fieldFD]
  refine and_congr_right fun _ => ?_
  simp only [HasRow, RowAllows, KindAllows, opcodeMap, opRowsBytes, opRowsCipher, opRowsBig, List.cons_append,
    List.nil_append, exists_eq_or_imp, exists_eq_left, List.mem_cons, List.not_mem_nil, or_false, ← BitVec.toNat_inj, ne_eq]
  generalize (fieldOP w).toNat = op, (fieldFA w).toNat = fa, (fieldFB w).toNat = fb, (fieldFC w).toNat = fc,
    (fieldFD w).toNat = fd
  constructor
  · rintro (⟨rfl | rfl | rfl | rfl | rfl | rfl | rfl | rfl | rfl | rfl | rfl | rfl | rfl | rfl | rfl | rfl | rfl, h⟩ |
      ⟨rfl, h⟩ | ⟨rfl | rfl, h⟩ | ⟨rfl, h⟩ | ⟨rfl | rfl, h⟩ | ⟨rfl, h⟩ | ⟨rfl, h⟩ | ⟨rfl, h⟩ | ⟨rfl, h⟩)
    all_goals simp [h]
  · rintro ⟨⟨rfl, h⟩ | ⟨rfl, h⟩ | ⟨rfl, h⟩ | ⟨rfl, h⟩ | ⟨rfl, h⟩ | ⟨rfl, h⟩ | ⟨rfl, h⟩ | ⟨rfl, h⟩ | ⟨rfl, h⟩ | ⟨rfl, h⟩ |
      ⟨rfl, h⟩ | ⟨rfl, h⟩ | ⟨rfl, h⟩ | ⟨rfl, h⟩ | ⟨rfl, h⟩ | ⟨rfl, h⟩ | ⟨rfl, h⟩ | ⟨rfl, h⟩ | ⟨rfl, h⟩ | ⟨rfl, h⟩ |
      ⟨rfl, h⟩ | ⟨rfl, h⟩ | ⟨rfl, h⟩ | ⟨rfl, h⟩ | ⟨rfl, h⟩ | ⟨rfl, h⟩ | ⟨rfl, h⟩, hne⟩
    all_goals simp [h, hne]

/-! ### The words the decoder accepts -/

theorem decode_eq_ok_iff (w : Word) (i : Instr) : decode w = .ok i ↔ fieldRSV w = 0 ∧ HasRow w ∧
    instrOf (fieldOP w) (fieldFA w) (fieldFB w) (fieldFC w) (fieldFD w) = some i ∧ i.wellFormed = true := by
  constructor
  · intro h
    unfold decode at h
    split at h
    · cases h
    · next hrsv =>
      split at h
      · cases h
      · next r hr =>
        split at h
        · cases h
        · next hop =>
          split at h
          · cases h
          · next j hj =>
            split at h
            · next hwf =>
              cases h
              obtain ⟨hmem, hrop⟩ := (find_row_iff _ _).mp hr
              exact ⟨not_not.mp hrsv, ⟨r, hmem, hrop, (operandError_eq_none_iff r w).mp hop⟩, hj, hwf⟩
            · cases h
  · rintro ⟨hrsv, ⟨r, hmem, hrop, hallows⟩, hi, hwf⟩
    have hrow := (find_row_iff _ _).mpr ⟨hmem, hrop⟩
    have hops := (operandError_eq_none_iff r w).mpr hallows
    simp only [decode, hrsv, ne_eq, not_true_eq_false, if_false, hrow, hops, hi, hwf, if_true]

/-- A word that decodes is the word of its command, which is well-formed and has its low byte as opcode. -/
theorem decode_ok_encode {w : Word} {i : Instr} (h : decode w = .ok i) :
    i.wellFormed = true ∧ encode i = w ∧ opcodeOf i = fieldOP w := by
  obtain ⟨hrsv, ⟨r, hmem, hrop, hallows⟩, hi, hwf⟩ := (decode_eq_ok_iff w i).mp h
  obtain ⟨j, hj, henc, hopc, -⟩ := instrOf_row hmem hallows
  rw [hrop] at hj henc hopc
  obtain rfl : j = i := Option.some.inj (hj.symm.trans hi)
  exact ⟨hwf, henc.trans (packWord_fields_of_fieldRSV hrsv), hopc⟩

/-- The decoder accepts exactly the words that 30_encoding.md R104 lets through. -/
theorem legalWord_iff_exists_decode (w : Word) : LegalWord w ↔ ∃ i, decode w = .ok i := by
  simp only [legalWord_iff, decode_eq_ok_iff]
  constructor
  · rintro ⟨hrsv, ⟨r, hmem, hrop, hallows⟩, hne⟩
    obtain ⟨i, hi, -, -, hwf⟩ := instrOf_row hmem hallows
    rw [hrop] at hi hwf
    exact ⟨i, hrsv, ⟨r, hmem, hrop, hallows⟩, hi, hwf.mpr hne⟩
  · rintro ⟨i, hrsv, ⟨r, hmem, hrop, hallows⟩, hi, hwf⟩
    obtain ⟨j, hj, -, -, hwf'⟩ := instrOf_row hmem hallows
    rw [hrop] at hj hwf'
    obtain rfl : j = i := Option.some.inj (hj.symm.trans hi)
    exact ⟨hrsv, ⟨r, hmem, hrop, hallows⟩, hwf'.mp hwf⟩

/-! ### The running command -/

/-- With no event listed, a running core runs its command. -/
theorem step_running {s : State} (hrun : Running s) (hin : s.inputs = []) : step s = runCommand s := by
  simp only [step, stepEvent, hin, runSequencer, hrun.1, hrun.2, Bool.not_true, Bool.false_eq_true, if_false]

theorem runCommand_of_decode_ok {s : State} {i : Instr} (h : decode s.cmd = .ok i) : runCommand s = exec i s := by
  simp only [runCommand, fetchCommand, h]

theorem runCommand_of_decode_error {s : State} {e : DecodeError} (h : decode s.cmd = .error e) :
    runCommand s = .next (ended .illegalCommand s) := by
  simp only [runCommand, fetchCommand, h]
  rfl

/-- Settles O5: the decoder accepts exactly the legal words, and reads from each the command that it is the word of. -/
theorem sequencerDecodesAsR104 : Obligations.SequencerDecodesAsR104 := by
  unfold Obligations.SequencerDecodesAsR104
  intro s hrun hin
  rw [step_running hrun hin, legalWord_iff_exists_decode]
  constructor
  · rintro ⟨i, hi⟩
    obtain ⟨hwf, henc, hop⟩ := decode_ok_encode hi
    exact ⟨i, hwf, henc, hop.trans (fieldOP_eq_setWidth s.cmd), runCommand_of_decode_ok hi⟩
  · intro hno
    cases hd : decode s.cmd with
    | ok i => exact absurd ⟨i, hd⟩ hno
    | error e => exact runCommand_of_decode_error hd

end Sys2Proof.Proofs

/-! The field GF(2⁸): the machine's shift-and-add loop leaves the remainder of the polynomial product modulo 0x11B
(40_gf256.md R130, R131), and the results of NOP, GFMUL and XTIME (R133 to R135). -/

namespace Sys2Proof.Proofs

open Sys2Proof.Machine Sys2Proof.Laws

/-! ### The remainder -/

/-- One step of the division by 0x11B: it clears bit 15 - k. -/
def divStep (r : BitVec 16) (k : Nat) : BitVec 16 := if r.getLsbD (15 - k) then r ^^^ (0x11B#16 <<< (7 - k)) else r

theorem polyMod_eq_divSteps (v : BitVec 16) : polyMod v = ((List.range 8).foldl divStep v).setWidth 8 := rfl

theorem divStep_of_clear {r : BitVec 16} {k : Nat} (h : r.getLsbD (15 - k) = false) : divStep r k = r := by
  simp [divStep, h]

theorem divStep_xor (r q : BitVec 16) (k : Nat) : divStep (r ^^^ q) k = divStep r k ^^^ divStep q k := by
  have hcancel (c : BitVec 16) : (r ^^^ c) ^^^ (q ^^^ c) = r ^^^ q := by
    rw [show (r ^^^ c) ^^^ (q ^^^ c) = r ^^^ q ^^^ (c ^^^ c) by ac_rfl]; simp
  simp only [divStep, BitVec.getLsbD_xor]
  cases r.getLsbD (15 - k) <;> cases q.getLsbD (15 - k) <;> simp [hcancel] <;> ac_rfl

/-- The division of the double goes one step behind the division itself. -/
theorem divStep_double (r : BitVec 16) {k : Nat} (hk : k < 7) : divStep (r <<< 1) k = divStep r (k + 1) <<< 1 := by
  have hbit : (r <<< 1).getLsbD (15 - k) = r.getLsbD (15 - (k + 1)) := by
    rw [BitVec.getLsbD_shiftLeft, show 15 - k - 1 = 15 - (k + 1) by omega]
    simp [show 15 - k < 16 by omega, show ¬ 15 - k < 1 by omega]
  have hpoly : 0x11B#16 <<< (7 - k) = (0x11B#16 <<< (7 - (k + 1))) <<< 1 := by
    rw [← BitVec.shiftLeft_add]
    congr 1
    omega
  unfold divStep
  rw [hbit, hpoly]
  split
  · rw [BitVec.shiftLeft_xor_distrib]
  · rfl

/-- The last step of the division of a double is the machine's doubling with feedback 0x1B. -/
theorem setWidth_divStep_double (r : BitVec 16) : (divStep (r <<< 1) 7).setWidth 8 = xtime (r.setWidth 8) := by
  have hbit : (r <<< 1).getLsbD (15 - 7) = (r.setWidth 8).getLsbD 7 := by simp
  have hlow : (r <<< 1).setWidth 8 = r.setWidth 8 <<< 1 := by
    ext i hi
    simp [BitVec.getElem_shiftLeft]
  unfold divStep xtime
  rw [hbit]
  split
  · rw [BitVec.setWidth_xor, hlow]
    rfl
  · rw [hlow]
    simp

/-- The remainder is additive. -/
theorem polyMod_xor (v w : BitVec 16) : polyMod (v ^^^ w) = polyMod v ^^^ polyMod w := by
  have hfold : ∀ (ks : List Nat) (r q : BitVec 16),
      ks.foldl divStep (r ^^^ q) = ks.foldl divStep r ^^^ ks.foldl divStep q := by
    intro ks
    induction ks with
    | nil => intro r q; rfl
    | cons k ks ih => intro r q; simp only [List.foldl_cons, divStep_xor, ih]
  rw [polyMod_eq_divSteps, hfold, BitVec.setWidth_xor]
  rfl

theorem getLsbD_setWidth_of_eight_le (a : Byte) {i : Nat} (hi : 8 ≤ i) : (a.setWidth 16).getLsbD i = false := by
  rw [BitVec.getLsbD_setWidth, BitVec.getLsbD_of_ge a i hi, Bool.and_false]

/-- A byte is its own remainder. -/
theorem polyMod_setWidth (a : Byte) : polyMod (a.setWidth 16) = a := by
  have hclear {k : Nat} (hk : k < 8) : divStep (a.setWidth 16) k = a.setWidth 16 :=
    divStep_of_clear (getLsbD_setWidth_of_eight_le a (by omega))
  have hfold : ∀ ks : List Nat, (∀ k ∈ ks, k < 8) → ks.foldl divStep (a.setWidth 16) = a.setWidth 16 := by
    intro ks hks
    induction ks with
    | nil => rfl
    | cons k ks ih =>
      rw [List.forall_mem_cons] at hks
      rw [List.foldl_cons, hclear hks.1, ih hks.2]
  rw [polyMod_eq_divSteps, hfold _ fun k => List.mem_range.mp]
  simp

/-- The remainder of a double is the machine's doubling of the remainder (40_gf256.md R130). -/
theorem polyMod_double {v : BitVec 16} (hv : v.getLsbD 15 = false) : polyMod (v <<< 1) = xtime (polyMod v) := by
  have hfirst : divStep v 0 = v := divStep_of_clear hv
  simp only [polyMod_eq_divSteps, List.range_succ, List.range_zero, List.nil_append, List.cons_append, List.foldl_cons,
    List.foldl_nil, hfirst]
  simp (disch := decide) only [divStep_double, setWidth_divStep_double]

/-! ### The product -/

/-- Adding the i-th partial product of `a` and `b`. -/
def addPartial (a b : Byte) (p : BitVec 16) (i : Nat) : BitVec 16 :=
  if b.getLsbD i then p ^^^ (a.setWidth 16 <<< i) else p

/-- From bit `i` on, the machine's loop follows the polynomial product modulo 0x11B: its multiplicand is the remainder of
`a * x^i` and its accumulator the remainder of the sum of the partial products. -/
theorem gmulLoop_polyMod (a b : Byte) : ∀ (n i : Nat) (p : BitVec 16), i + n ≤ 8 →
    gmulLoop n (polyMod (a.setWidth 16 <<< i)) (b >>> i) (polyMod p) =
      polyMod ((List.range' i n).foldl (addPartial a b) p) := by
  intro n
  induction n with
  | zero => intro i p _; rfl
  | succ n ih =>
    intro i p hi
    have hdouble : xtime (polyMod (a.setWidth 16 <<< i)) = polyMod (a.setWidth 16 <<< (i + 1)) := by
      rw [BitVec.shiftLeft_add, polyMod_double]
      rw [BitVec.getLsbD_shiftLeft, getLsbD_setWidth_of_eight_le a (by omega), Bool.and_false]
    have hacc : (if (b >>> i).getLsbD 0 then polyMod p ^^^ polyMod (a.setWidth 16 <<< i) else polyMod p) =
        polyMod (addPartial a b p i) := by
      rw [BitVec.getLsbD_ushiftRight, Nat.add_zero, ← polyMod_xor, ← apply_ite polyMod]
      rfl
    rw [gmulLoop, hdouble, hacc, ← BitVec.shiftRight_add, ih (i + 1) _ (by omega), List.range'_succ, List.foldl_cons]

/-- The machine's product is the polynomial product modulo 0x11B (40_gf256.md R131). -/
theorem gmul_eq_fieldProduct (a b : Byte) : gmul a b = fieldProduct a b := by
  have h := gmulLoop_polyMod a b 8 0 0 (by decide)
  rw [BitVec.shiftLeft_zero, polyMod_setWidth] at h
  exact h

/-- The machine's doubling is the product by 2 (40_gf256.md R130). -/
theorem xtime_eq_fieldProduct_two (a : Byte) : xtime a = fieldProduct a 0x02 := by
  have hmul : polyMul a 0x02 = a.setWidth 16 <<< 1 := by simp [polyMul, List.range_succ]
  rw [fieldProduct, hmul, polyMod_double (getLsbD_setWidth_of_eight_le a (by decide)), polyMod_setWidth]

/-! ### The commands -/

theorem exec_nop (s : State) : exec .nop s = .next (ended .ok s) := rfl

theorem exec_gfmul (s : State) :
    exec .gfmul s = .next (ended .ok { s with res := (gmul (byteA s) (byteB s)).setWidth 32 }) := rfl

theorem exec_xtime (s : State) : exec .xtime s = .next (ended .ok { s with res := (xtime (byteA s)).setWidth 32 }) := rfl

/-- Settles O9: the machine's loop and its doubling are the polynomial product modulo 0x11B. -/
theorem fieldCommandResults : Obligations.FieldCommandResults := by
  unfold Obligations.FieldCommandResults
  refine ⟨by decide, by decide, by decide, fun s => ⟨exec_nop s, ?_, ?_⟩⟩
  · rw [exec_gfmul, gmul_eq_fieldProduct]
    rfl
  · rw [exec_xtime, xtime_eq_fieldProduct_two]
    rfl

end Sys2Proof.Proofs

/-! The block transforms: the S-box table holds the affine transforms of the field inverses (41_block_transform.md R140 to R142),
the transforms of a block byte by byte (R143 to R148), and the results of their nine commands (R150 to R158). -/

namespace Sys2Proof.Proofs

open Sys2Proof.Machine Sys2Proof.Laws

/-! ### The S-box -/

/-- The byte whose affine transform is `r`: `r` with its bits rotated to the left by 1, 3 and 6, summed with 0x05. -/
def inverseAffine (r : Byte) : Byte := r.rotateLeft 1 ^^^ r.rotateLeft 3 ^^^ r.rotateLeft 6 ^^^ 0x05

theorem affineBit_inverseAffine : ∀ r : Byte, ∀ k < 8, affineBit (inverseAffine r) k = r.getLsbD k := by decide +kernel

/-- Each entry of the table is the affine transform of a field inverse (41_block_transform.md R142): with the affine transform
taken back, what is left of entry `a` is the inverse of `a`. The machine's product shows it entry by entry. -/
theorem isFieldInverse_inverseAffine_sboxAt (a : Byte) : IsFieldInverse a (inverseAffine (sboxAt a)) := by
  have hgmul : ∀ a : Byte, (a = 0 ∧ inverseAffine (sboxAt a) = 0) ∨ (a ≠ 0 ∧ gmul a (inverseAffine (sboxAt a)) = 1) := by
    decide +kernel
  simpa only [IsFieldInverse, gmul_eq_fieldProduct] using hgmul a

theorem exec_sbox (s : State) : exec .sbox s = .next (ended .ok { s with res := (sboxAt (byteA s)).setWidth 32 }) := rfl

theorem exec_invsbox (s : State) :
    exec .invsbox s = .next (ended .ok { s with res := (invSboxAt (byteA s)).setWidth 32 }) := rfl

/-- Settles O11: taking the affine transform back from the S-box's byte leaves the field inverse, and the inverse table undoes
the S-box. -/
theorem substitutionResults : Obligations.SubstitutionResults := by
  unfold Obligations.SubstitutionResults
  refine ⟨by decide, by decide, fun s => ⟨?_, ?_⟩⟩
  · exact ⟨inverseAffine (sboxAt (byteA s)), sboxAt (byteA s), isFieldInverse_inverseAffine_sboxAt (byteA s),
      fun k hk => (affineBit_inverseAffine _ k hk).symm, exec_sbox s⟩
  · exact ⟨invSboxAt (byteA s), sboxAt_invSboxAt (byteA s), exec_invsbox s⟩

/-! ### The transforms of a block, byte by byte -/

theorem getElem_subBytes (b : Block) (i : Fin 16) : (subBytes b)[i] = sboxAt b[i] := by simp [subBytes]

theorem getElem_invSubBytes (b : Block) (i : Fin 16) : (invSubBytes b)[i] = invSboxAt b[i] := by simp [invSubBytes]

/-- ShiftRows as the list of the bytes it takes (41_block_transform.md R144). -/
theorem shiftRows_eq_map (b : Block) :
    shiftRows b = Vector.map (fun k : Fin 16 => b[k]) #v[0, 5, 10, 15, 4, 9, 14, 3, 8, 13, 2, 7, 12, 1, 6, 11] := by
  apply Vector.ext
  intro i hi
  simp only [shiftRows, Vector.getElem_ofFn, Vector.getElem_map]
  interval_cases i <;> rfl

/-- InvShiftRows as the list of the bytes it takes (41_block_transform.md R145). -/
theorem invShiftRows_eq_map (b : Block) :
    invShiftRows b = Vector.map (fun k : Fin 16 => b[k]) #v[0, 13, 10, 7, 4, 1, 14, 11, 8, 5, 2, 15, 12, 9, 6, 3] := by
  apply Vector.ext
  intro i hi
  simp only [invShiftRows, Vector.getElem_ofFn, Vector.getElem_map]
  interval_cases i <;> rfl

/-- Byte k of column c of a column transform is its row k of that column. -/
theorem getElem_mapColumns (row : Nat → Byte → Byte → Byte → Byte → Byte) (b : Block) {c k : Nat} (hc : 4 * c + 3 < 16)
    (hk : k < 4) :
    (mapColumns row b)[4 * c + k] = row k b[4 * c] b[4 * c + 1] b[4 * c + 2] b[4 * c + 3] := by
  have hdiv : (4 * c + k) / 4 = c := by omega
  have hmod : (4 * c + k) % 4 = k := by omega
  simp only [mapColumns, Vector.getElem_ofFn, hdiv, hmod]

/-- The four bytes of column c after a column transform. -/
theorem mapColumns_column (row : Nat → Byte → Byte → Byte → Byte → Byte) (b : Block) {c : Nat} (hc : 4 * c + 3 < 16) :
    (mapColumns row b)[4 * c] = row 0 b[4 * c] b[4 * c + 1] b[4 * c + 2] b[4 * c + 3] ∧
    (mapColumns row b)[4 * c + 1] = row 1 b[4 * c] b[4 * c + 1] b[4 * c + 2] b[4 * c + 3] ∧
    (mapColumns row b)[4 * c + 2] = row 2 b[4 * c] b[4 * c + 1] b[4 * c + 2] b[4 * c + 3] ∧
    (mapColumns row b)[4 * c + 3] = row 3 b[4 * c] b[4 * c + 1] b[4 * c + 2] b[4 * c + 3] :=
  ⟨getElem_mapColumns row b hc (k := 0) (by decide), getElem_mapColumns row b hc (by decide),
    getElem_mapColumns row b hc (by decide), getElem_mapColumns row b hc (by decide)⟩

theorem getElem_addRoundKey (b rk : Block) (i : Fin 16) : (addRoundKey b rk)[i] = b[i] ^^^ rk[i] := by
  simp [addRoundKey, blockXor]

/-! ### The commands on STATE -/

theorem exec_subbytes (s : State) : exec .subbytes s = .next (ended .ok { s with state := subBytes s.state }) := rfl

theorem exec_invsubbytes (s : State) : exec .invsubbytes s = .next (ended .ok { s with state := invSubBytes s.state }) := rfl

theorem exec_shiftrows (s : State) : exec .shiftrows s = .next (ended .ok { s with state := shiftRows s.state }) := rfl

theorem exec_invshiftrows (s : State) : exec .invshiftrows s = .next (ended .ok { s with state := invShiftRows s.state }) := rfl

theorem exec_mixcolumns (s : State) : exec .mixcolumns s = .next (ended .ok { s with state := mixColumns s.state }) := rfl

theorem exec_invmixcolumns (s : State) :
    exec .invmixcolumns s = .next (ended .ok { s with state := invMixColumns s.state }) := rfl

theorem exec_addroundkey_of_keyValid {s : State} (h : s.keyValid = true) (j : RoundIdx) :
    exec (.addroundkey j) s = .next (ended .ok { s with state := addRoundKey s.state s.rk[j] }) :=
  if_neg (by simp [h])

theorem exec_addroundkey_of_not_keyValid {s : State} (h : s.keyValid = false) (j : RoundIdx) :
    exec (.addroundkey j) s = .next (ended .missingKey s) :=
  if_pos (by simp [h])

theorem toNat_encode_addroundkey :
    ∀ j : RoundIdx, (encode (.addroundkey j)).toNat = 0x00000018 + j.val * 2 ^ 8 := by decide

/-- Settles O12: each command writes its transform of STATE, which is read byte by byte; the products of a column are the
polynomial ones. -/
theorem stateTransformResults : Obligations.StateTransformResults := by
  unfold Obligations.StateTransformResults
  refine ⟨by decide, by decide, by decide, by decide, by decide, by decide, fun s => ⟨?_, ?_, ?_, ?_, ?_, ?_⟩⟩
  · exact ⟨subBytes s.state, getElem_subBytes s.state, exec_subbytes s⟩
  · refine ⟨invSubBytes s.state, fun i => ?_, exec_invsubbytes s⟩
    rw [getElem_invSubBytes, sboxAt_invSboxAt]
  · rw [← shiftRows_eq_map, exec_shiftrows]
  · rw [← invShiftRows_eq_map, exec_invshiftrows]
  · refine ⟨mixColumns s.state, exec_mixcolumns s, fun c hc => ?_⟩
    simp only [← gmul_eq_fieldProduct]
    exact mapColumns_column mixRow s.state hc
  · refine ⟨invMixColumns s.state, exec_invmixcolumns s, fun c hc => ?_⟩
    simp only [← gmul_eq_fieldProduct]
    exact mapColumns_column invMixRow s.state hc

/-- Settles O13: the command looks at KEY_VALID, and the round key is added byte by byte. -/
theorem addRoundKeyResult : Obligations.AddRoundKeyResult := by
  unfold Obligations.AddRoundKeyResult
  intro s j
  refine ⟨toNat_encode_addroundkey j, fun hvalid => ?_, fun hvalid => exec_addroundkey_of_not_keyValid hvalid j⟩
  exact ⟨addRoundKey s.state s.rk[j], getElem_addRoundKey s.state s.rk[j], exec_addroundkey_of_keyValid hvalid j⟩

end Sys2Proof.Proofs

/-! The key schedule: the words of the expansion (42_key_schedule.md R160 to R162), and the results of KEYBIND, KEYUNBIND and
SYMKEYGEN (R163 to R165). -/

namespace Sys2Proof.Proofs

open Sys2Proof.Machine Sys2Proof.Laws

/-! ### The words of the expansion -/

/-- Word i from the word four before it, the word before it and the round constant (42_key_schedule.md R160). -/
def nextWord (i : Nat) (rcon : Byte) (w4 w1 : KeyWord) : KeyWord :=
  keyWordXor w4 (if i % 4 = 0 then xorRcon (subWord (rotWord w1)) rcon else w1)

/-- The round constant that the loop holds at position i: 0x01, doubled at each multiple of four passed since position 4
(42_key_schedule.md R161). -/
def rconAt (i : Nat) : Byte := xtime^[(i - 1) / 4] 0x01

/-- After a position that is a multiple of four the round constant is doubled. -/
theorem rconAt_succ {i : Nat} (hi : 4 ≤ i) : rconAt (i + 1) = if i % 4 = 0 then xtime (rconAt i) else rconAt i := by
  unfold rconAt
  split
  · rw [← Function.iterate_succ_apply' xtime, show (i + 1 - 1) / 4 = (i - 1) / 4 + 1 by omega]
  · rw [show (i + 1 - 1) / 4 = (i - 1) / 4 by omega]

theorem expandLoop_succ {i : Nat} (hi : 4 ≤ i) (n : Nat) (w4 w3 w2 w1 : KeyWord) :
    expandLoop (n + 1) i w4 w3 w2 w1 (rconAt i) =
      nextWord i (rconAt i) w4 w1 :: expandLoop n (i + 1) w3 w2 w1 (nextWord i (rconAt i) w4 w1) (rconAt (i + 1)) := by
  rw [expandLoop, rconAt_succ hi]
  unfold nextWord
  split <;> rfl

/-- In the list of the four words before position i and the loop's words from there on, each word of the loop is the next word
of its predecessors. -/
theorem getD_expandLoop (d : KeyWord) : ∀ (n i k : Nat) (w4 w3 w2 w1 : KeyWord), 4 ≤ i → k < n →
    (w4 :: w3 :: w2 :: w1 :: expandLoop n i w4 w3 w2 w1 (rconAt i)).getD (k + 4) d =
      nextWord (i + k) (rconAt (i + k))
        ((w4 :: w3 :: w2 :: w1 :: expandLoop n i w4 w3 w2 w1 (rconAt i)).getD k d)
        ((w4 :: w3 :: w2 :: w1 :: expandLoop n i w4 w3 w2 w1 (rconAt i)).getD (k + 3) d) := by
  intro n
  induction n with
  | zero => intro i k _ _ _ _ _ hk; omega
  | succ n ih =>
    intro i k w4 w3 w2 w1 hi hk
    rw [expandLoop_succ hi]
    cases k with
    | zero => rfl
    | succ k =>
      have h := ih (i + 1) k w3 w2 w1 (nextWord i (rconAt i) w4 w1) (by omega) (by omega)
      rw [show i + 1 + k = i + (k + 1) by omega] at h
      exact h

/-- Word i of the key schedule (42_key_schedule.md R160). -/
def scheduleWord (key : Block) (i : Nat) : KeyWord := (expandWords key).getD i (Vector.replicate 4 0)

/-- The first four words of the schedule are those of the key. -/
theorem scheduleWord_of_lt_four (key : Block) (c : Fin 4) : scheduleWord key c.val = keyWordOf key c := by
  fin_cases c <;> rfl

/-- The recurrence of 42_key_schedule.md R160. -/
theorem scheduleWord_add_four (key : Block) {k : Nat} (hk : k < 40) :
    scheduleWord key (k + 4) =
      nextWord (4 + k) (rconAt (4 + k)) (scheduleWord key k) (scheduleWord key (k + 3)) :=
  getD_expandLoop _ 40 4 k _ _ _ _ (by decide) hk

/-- Byte r of word c of round key j is byte r of word 4j + c of the schedule. -/
theorem getElem_keyExpansion (key : Block) {j c r : Nat} (hj : j < 11) (hc : c < 4) (hr : r < 4) :
    (keyExpansion key)[j][4 * c + r] = (scheduleWord key (4 * j + c))[r] := by
  have hdiv : (4 * c + r) / 4 = c := by omega
  have hmod : (4 * c + r) % 4 = r := by omega
  simp only [keyExpansion, scheduleWord, Vector.getElem_ofFn, hdiv, hmod]

/-! ### The round keys, byte by byte -/

/-- The transformed word of a multiple of four: rotated by one byte, substituted, byte 0 xored with the round constant. -/
theorem getElem_xorRcon_subWord_rotWord (t : KeyWord) (rcon : Byte) {r : Nat} (hr : r < 4) :
    (xorRcon (subWord (rotWord t)) rcon)[r] = sboxAt t[(r + 1) % 4] ^^^ if r = 0 then rcon else 0 := by
  interval_cases r <;> simp [xorRcon, subWord, rotWord]

theorem getElem_keyWordXor (a b : KeyWord) {r : Nat} (hr : r < 4) : (keyWordXor a b)[r] = a[r] ^^^ b[r] := by
  simp [keyWordXor]

theorem getElem_nextWord_of_multiple {i : Nat} (hi : i % 4 = 0) (rcon : Byte) (w4 w1 : KeyWord) {r : Nat} (hr : r < 4) :
    (nextWord i rcon w4 w1)[r] = w4[r] ^^^ sboxAt w1[(r + 1) % 4] ^^^ if r = 0 then rcon else 0 := by
  simp only [nextWord, if_pos hi, getElem_keyWordXor _ _ hr, getElem_xorRcon_subWord_rotWord _ _ hr, BitVec.xor_assoc]

theorem getElem_nextWord_of_not_multiple {i : Nat} (hi : i % 4 ≠ 0) (rcon : Byte) (w4 w1 : KeyWord) {r : Nat} (hr : r < 4) :
    (nextWord i rcon w4 w1)[r] = w4[r] ^^^ w1[r] := by
  simp only [nextWord, if_neg hi, getElem_keyWordXor _ _ hr]

/-- The ten round constants that 42_key_schedule.md R161 lists. -/
theorem rconAt_round : ∀ j : Fin 10,
    rconAt (4 + 4 * j.val) = [0x01, 0x02, 0x04, 0x08, 0x10, 0x20, 0x40, 0x80, 0x1b, 0x36].getD j.val 0 := by decide

theorem keyExpansion_zero (key : Block) : (keyExpansion key)[0] = key := by
  apply Vector.ext
  intro i hi
  obtain ⟨c, r, hc, hr, rfl⟩ : ∃ c r, c < 4 ∧ r < 4 ∧ i = 4 * c + r := ⟨i / 4, i % 4, by omega, by omega, by omega⟩
  rw [getElem_keyExpansion key (by decide) hc hr, show 4 * 0 + c = c by omega, scheduleWord_of_lt_four key ⟨c, hc⟩]
  simp [keyWordOf]

/-- Byte r of the first word of a round key. -/
theorem getElem_keyExpansion_succ_first (key : Block) (j : Fin 10) {r : Nat} (hr : r < 4) :
    (keyExpansion key)[j.val + 1][r] =
      (keyExpansion key)[j.val][r] ^^^ sboxAt (keyExpansion key)[j.val][12 + (r + 1) % 4] ^^^
        if r = 0 then rconAt (4 + 4 * j.val) else 0 := by
  have hword (j : Nat) (hj : j < 11) : (keyExpansion key)[j][r] = (scheduleWord key (4 * j))[r] := by
    simpa using getElem_keyExpansion key (c := 0) hj (by decide) hr
  have hlast : (keyExpansion key)[j.val][12 + (r + 1) % 4] = (scheduleWord key (4 * j.val + 3))[(r + 1) % 4] :=
    getElem_keyExpansion key (c := 3) (by omega) (by decide) (by omega)
  rw [hword, hword, hlast, show 4 * (j.val + 1) = 4 * j.val + 4 by omega]
  simp only [scheduleWord_add_four key (show 4 * j.val < 40 by omega)]
  exact getElem_nextWord_of_multiple (by omega) _ _ _ hr

/-- Byte r of a later word of a round key. -/
theorem getElem_keyExpansion_succ_later (key : Block) (j : Fin 10) {c r : Nat} (hc : c + 1 < 4) (hr : r < 4) :
    (keyExpansion key)[j.val + 1][4 * (c + 1) + r] =
      (keyExpansion key)[j.val][4 * (c + 1) + r] ^^^ (keyExpansion key)[j.val + 1][4 * c + r] := by
  have hk : 4 * j.val + (c + 1) < 40 := by omega
  rw [getElem_keyExpansion key (by omega) hc hr, getElem_keyExpansion key (by omega) hc hr,
    getElem_keyExpansion key (by omega) (by omega) hr]
  rw [show 4 * (j.val + 1) + (c + 1) = 4 * j.val + (c + 1) + 4 by omega,
    show 4 * (j.val + 1) + c = 4 * j.val + (c + 1) + 3 by omega, scheduleWord_add_four key hk,
    getElem_nextWord_of_not_multiple (by omega) _ _ _ hr]

/-- Settles O14: the loop's recurrence on words, read at the bytes of a round key's first word and of its later words. -/
theorem keyExpansionRecurrence : Obligations.KeyExpansionRecurrence := by
  unfold Obligations.KeyExpansionRecurrence
  refine fun key => ⟨keyExpansion_zero key, fun j ⟨b, hb⟩ => ?_⟩
  simp only [Fin.getElem_fin]
  split
  case isTrue hfirst =>
    rw [← rconAt_round]
    exact getElem_keyExpansion_succ_first key j hfirst
  case isFalse hlater =>
    obtain ⟨c, r, hr, rfl⟩ : ∃ c r, r < 4 ∧ b = 4 * (c + 1) + r := ⟨b / 4 - 1, b % 4, by omega, by omega⟩
    simpa only [show 4 * (c + 1) + r - 4 = 4 * c + r by omega] using
      getElem_keyExpansion_succ_later key j (by omega) hr

/-! ### The commands -/

/-- The word of a command whose only operand is a key mask (30_encoding.md R108). -/
theorem toNat_packWord_maskField (op : Byte) (m : KeyMask) :
    (packWord op (maskField m) 0 0 0).toNat = op.toNat + (m.sym.toNat + 2 * m.pub.toNat + 4 * m.priv.toNat) * 2 ^ 8 := by
  obtain ⟨sym, pub, priv⟩ := m
  simp only [packWord, maskField, toNat_append_eq_add, BitVec.toNat_ofBool, BitVec.toNat_ofNat, BitVec.ofNat_eq_ofNat]
  omega

theorem exec_keybind_of_moduli {s : State} {m : KeyMask} (hpub : m.pub = true → 2 ≤ s.pubN)
    (hpriv : m.priv = true → 2 ≤ s.privN) :
    exec (.keybind m) s = .next (ended .ok { s with
      rk := if m.sym = true then keyExpansion s.key else s.rk
      keyValid := s.keyValid || m.sym
      pubValid := s.pubValid || m.pub
      privValid := s.privValid || m.priv }) := by
  have hpub' : ¬ (m.pub && s.pubN < 2) = true := by simpa [Nat.succ_le_iff] using hpub
  have hpriv' : ¬ (m.priv && s.privN < 2) = true := by simpa [Nat.succ_le_iff] using hpriv
  refine (if_neg hpub').trans ((if_neg hpriv').trans ?_)
  cases hsym : m.sym <;> simp [complete, finish, ended, bindSym]

theorem exec_keybind_of_small_modulus {s : State} {m : KeyMask}
    (h : (m.pub = true ∧ s.pubN < 2) ∨ (m.priv = true ∧ s.privN < 2)) :
    exec (.keybind m) s = .next (ended .badOperand s) := by
  show execKeybind m s = _
  unfold execKeybind
  split
  · rfl
  · next hpub =>
    rw [if_pos (by simpa using h.resolve_left (by simpa using hpub))]
    rfl

theorem exec_keyunbind (m : KeyMask) (s : State) :
    exec (.keyunbind m) s = .next (ended .ok { s with
      keyValid := s.keyValid && !m.sym
      pubValid := s.pubValid && !m.pub
      privValid := s.privValid && !m.priv }) := rfl

/-- Settles O15: KEYBIND checks the two moduli in turn, and binds all that the mask selects only after both. -/
theorem keyBindResult : Obligations.KeyBindResult := by
  unfold Obligations.KeyBindResult
  exact fun s m => ⟨toNat_packWord_maskField 0x20 m, exec_keybind_of_moduli, exec_keybind_of_small_modulus⟩

/-- Settles O16: each valid bit is kept under the negation of its mask bit. -/
theorem keyUnbindResult : Obligations.KeyUnbindResult := by
  unfold Obligations.KeyUnbindResult
  refine fun s m => ⟨toNat_packWord_maskField 0x21 m, _, exec_keyunbind m s, rfl, ?_⟩
  simp [ended]

section Draws

variable {α : Type} {p : Draw α} {onAbort : State → Host.Outcome State Fault Refusal}
  {k : α → State → Host.Outcome State Fault Refusal} {s : State}

/-- With no abort pending and words enough, the command goes on with its value and the words taken. -/
theorem withDraws_of_enough {v : α} {rest : List Word} (ha : s.abortReq = false) (hp : p (s.drawn ++ s.rng) = some (v, rest)) :
    withDraws p onAbort k s = k v (takeAllBut rest s) := by
  simp [withDraws, ha, hp]

/-- An abort pending before the last draw ends the command. -/
theorem withDraws_of_abort (ha : s.abortReq = true) (hp : p s.drawn = none) : withDraws p onAbort k s = onAbort s := by
  simp [withDraws, ha, hp]

end Draws

theorem argNat_eq_sixteen_iff (s : State) : argNat s = 16 ↔ s.arg = 16 := BitVec.toNat_inj (y := 16)

theorem exec_symkeygen_of_ne {s : State} (h : s.arg ≠ 16) : exec .symkeygen s = .next (ended .badKeyLength s) :=
  if_pos ((argNat_eq_sixteen_iff s).not.mpr h)

theorem exec_symkeygen_of_eq {s : State} (h : s.arg = 16) :
    exec .symkeygen s = withDraws (drawWords 4) (raiseErr .aborted)
      (fun ws t => complete (bindSym { t with key := blockOfWords ws })) s :=
  if_neg (not_not.mpr ((argNat_eq_sixteen_iff s).mpr h))

/-- Settles O17: ARG decides between BadKeyLength and the four draws, and the draws between the key and Aborted. -/
theorem symKeyGenResult : Obligations.SymKeyGenResult := by
  unfold Obligations.SymKeyGenResult
  refine ⟨by decide, fun s => ⟨?_, exec_symkeygen_of_ne, ?_⟩⟩
  · intro w0 w1 w2 w3 rest harg hdrawn habort hrng
    have htake : drawWords 4 (s.drawn ++ s.rng) = some ([w0, w1, w2, w3], rest) := by
      rw [hdrawn, hrng]
      exact drawWords_append (vs := [w0, w1, w2, w3]) rfl
    have hcount : s.rng.length - rest.length = 4 := by simp only [hrng, List.length_cons]; omega
    rw [exec_symkeygen_of_eq harg, withDraws_of_enough habort htake, blockOfWords_eq_drawnBlock, takeAllBut, hcount]
    rfl
  · intro harg habort hfew
    rw [exec_symkeygen_of_eq harg, withDraws_of_abort habort (drawWords_none.mpr hfew)]
    rfl

end Sys2Proof.Proofs

/-! AES-128 on one block: what a list of commands makes of STATE, and AESENC and AESDEC as the commands of their rounds
(43_block_cipher.md R180 to R183). -/

namespace Sys2Proof.Proofs

open Sys2Proof.Machine

/-! ### Commands one after another -/

/-- From every core with a bound symmetric key the commands `is`, one after another, finish with OK and replace STATE by the block
that `f` makes of it with the round keys; nothing else changes but the completion. -/
def AppliesToState (is : List Instr) (f : RoundKeys → Block → Block) : Prop :=
  ∀ s : State, s.keyValid = true → execAll is s = .next (ended .ok { s with state := f s.rk s.state })

theorem execAll_append {is : List Instr} {s t : State} (h : execAll is s = .next t) (js : List Instr) :
    execAll (is ++ js) s = execAll js t := by
  induction is generalizing s with
  | nil =>
    cases h
    rfl
  | cons i is ih =>
    rw [execAll] at h
    rw [List.cons_append, execAll]
    cases hi : exec i s with
    | next u => exact ih (by simpa only [hi] using h)
    | fault _ => simp [hi] at h
    | refused _ => simp [hi] at h

theorem appliesToState_singleton {i : Instr} {f : RoundKeys → Block → Block}
    (h : ∀ s : State, s.keyValid = true → exec i s = .next (ended .ok { s with state := f s.rk s.state })) :
    AppliesToState [i] f := by
  intro s hs
  simp only [execAll, h s hs]

/-- A command whose transform of STATE uses no round key. -/
theorem appliesToState_transform {i : Instr} {f : Block → Block}
    (h : ∀ s : State, exec i s = .next (ended .ok { s with state := f s.state })) : AppliesToState [i] (fun _ b => f b) :=
  appliesToState_singleton fun s _ => h s

section Composition

variable {is js : List Instr} {f g : RoundKeys → Block → Block}

/-- The second list starts from a core whose key and round keys are still those of the first. -/
theorem AppliesToState.append (hf : AppliesToState is f) (hg : AppliesToState js g) :
    AppliesToState (is ++ js) (fun rk b => g rk (f rk b)) :=
  fun s hs => (execAll_append (hf s hs) js).trans (hg _ hs)

/-- The commands of a loop over `rs`, after the commands before it: the loop's function folded over `rs`. -/
theorem AppliesToState.append_flatMap {c : RoundIdx → List Instr} {round : RoundKeys → Block → RoundIdx → Block}
    (hround : ∀ r, AppliesToState (c r) (fun rk b => round rk b r)) (rs : List RoundIdx) (hf : AppliesToState is f) :
    AppliesToState (is ++ rs.flatMap c) (fun rk b => rs.foldl (round rk) (f rk b)) := by
  induction rs generalizing is f with
  | nil => simpa using hf
  | cons r rs ih => simpa using ih (hf.append (hround r))

end Composition

/-! ### The transforms and the rounds -/

theorem appliesToState_addroundkey (j : RoundIdx) : AppliesToState [.addroundkey j] (fun rk b => addRoundKey b rk[j]) :=
  appliesToState_singleton fun _ hs => exec_addroundkey_of_keyValid hs j

theorem appliesToState_subbytes_shiftrows : AppliesToState [.subbytes, .shiftrows] (fun _ b => shiftRows (subBytes b)) :=
  (appliesToState_transform exec_subbytes).append (appliesToState_transform exec_shiftrows)

theorem appliesToState_invshiftrows_invsubbytes :
    AppliesToState [.invshiftrows, .invsubbytes] (fun _ b => invSubBytes (invShiftRows b)) :=
  (appliesToState_transform exec_invshiftrows).append (appliesToState_transform exec_invsubbytes)

theorem appliesToState_cipherRound (r : RoundIdx) :
    AppliesToState [.subbytes, .shiftrows, .mixcolumns, .addroundkey r] (fun rk b => cipherRound rk b r) :=
  ((appliesToState_subbytes_shiftrows.append (appliesToState_transform exec_mixcolumns)).append
    (appliesToState_addroundkey r) :)

theorem appliesToState_invCipherRound (r : RoundIdx) :
    AppliesToState [.addroundkey r, .invmixcolumns, .invshiftrows, .invsubbytes] (fun rk b => invCipherRound rk b r) :=
  (((appliesToState_addroundkey r).append (appliesToState_transform exec_invmixcolumns)).append
    appliesToState_invshiftrows_invsubbytes :)

/-- The commands of `Cipher`'s steps (43_block_cipher.md R180). -/
theorem appliesToState_cipher :
    AppliesToState
      ([.addroundkey 0] ++
        ([1, 2, 3, 4, 5, 6, 7, 8, 9] : List RoundIdx).flatMap (fun r => [.subbytes, .shiftrows, .mixcolumns, .addroundkey r]) ++
        [.subbytes, .shiftrows, .addroundkey 10])
      cipher :=
  ((appliesToState_addroundkey 0).append_flatMap appliesToState_cipherRound _).append
    (appliesToState_subbytes_shiftrows.append (appliesToState_addroundkey 10))

/-- The commands of `InvCipher`'s steps (43_block_cipher.md R181). -/
theorem appliesToState_invCipher :
    AppliesToState
      ([.addroundkey 10, .invshiftrows, .invsubbytes] ++
        ([9, 8, 7, 6, 5, 4, 3, 2, 1] : List RoundIdx).flatMap
          (fun r => [.addroundkey r, .invmixcolumns, .invshiftrows, .invsubbytes]) ++
        [.addroundkey 0])
      invCipher :=
  (((appliesToState_addroundkey 10).append appliesToState_invshiftrows_invsubbytes).append_flatMap
    appliesToState_invCipherRound _).append (appliesToState_addroundkey 0)

/-! ### The commands -/

theorem exec_aesenc_of_keyValid {s : State} (h : s.keyValid = true) :
    exec .aesenc s = .next (ended .ok { s with state := cipher s.rk s.state }) :=
  if_neg (by simp [h])

theorem exec_aesenc_of_not_keyValid {s : State} (h : s.keyValid = false) :
    exec .aesenc s = .next (ended .missingKey s) :=
  if_pos (by simp [h])

theorem exec_aesdec_of_keyValid {s : State} (h : s.keyValid = true) :
    exec .aesdec s = .next (ended .ok { s with state := invCipher s.rk s.state }) :=
  if_neg (by simp [h])

theorem exec_aesdec_of_not_keyValid {s : State} (h : s.keyValid = false) :
    exec .aesdec s = .next (ended .missingKey s) :=
  if_pos (by simp [h])

/-- Settles O18: a command and the list of its rounds' commands both write the cipher of STATE, under the key check. -/
theorem blockCipherIsItsRounds : Obligations.BlockCipherIsItsRounds := by
  unfold Obligations.BlockCipherIsItsRounds
  refine ⟨by decide, by decide, fun s => ⟨fun hvalid => ⟨?_, ?_, ?_⟩, fun hvalid => ⟨?_, ?_⟩⟩⟩
  · rw [exec_aesenc_of_keyValid hvalid, appliesToState_cipher s hvalid]
  · rw [exec_aesdec_of_keyValid hvalid, appliesToState_invCipher s hvalid]
  · exact ⟨_, _, exec_aesenc_of_keyValid hvalid, exec_aesdec_of_keyValid hvalid⟩
  · exact exec_aesenc_of_not_keyValid hvalid
  · exact exec_aesdec_of_not_keyValid hvalid

end Sys2Proof.Proofs

/-! The big-integer commands BMUL, BMODEXP and BMODINV: their command words, and their results with what they leave unchanged
(45_bigint.md R211 to R213). -/

namespace Sys2Proof.Proofs

open Sys2Proof.Machine Sys2Proof.Laws

/-- The word of a command on four big-integer registers; an absent operand packs as register 0 (30_encoding.md R108). -/
theorem toNat_packWord_xregField (op : Byte) (a b c d : XReg) :
    (packWord op (xregField a) (xregField b) (xregField c) (xregField d)).toNat =
      op.toNat + d.val * 2 ^ 20 + c.val * 2 ^ 16 + b.val * 2 ^ 12 + a.val * 2 ^ 8 := by
  simp only [packWord, xregField, toNat_append_eq_add, BitVec.toNat_ofNat]
  omega

/-! ### The commands -/

/-- The end of a command leaves the big-integer registers. -/
theorem xRead_ended (e : ErrCode) (s : State) (i : XReg) : xRead (ended e s) i = xRead s i := rfl

theorem exec_bmul (s : State) (a b c : XReg) :
    exec (.bmul a b c) s = .next (ended .ok { xWrite a (xRead s b * xRead s c % 2 ^ s.cfg.bigBits) s with
      ovf := productOverflows s.cfg (xRead s b * xRead s c) }) := rfl

section Exec

variable {s : State} {a b c d : XReg}

theorem exec_bmodexp_of_ne (h : xRead s d ≠ 0) :
    exec (.bmodexp a b c d) s = .next (ended .ok (xWrite a (xRead s b ^ xRead s c % xRead s d) s)) := by
  rw [← powMod_eq (Nat.pos_of_ne_zero h)]
  exact if_neg h

theorem exec_bmodexp_of_eq (h : xRead s d = 0) : exec (.bmodexp a b c d) s = .next (ended .badOperand s) := if_pos h

theorem exec_bmodinv_of_coprime (hm : xRead s c ≠ 0) (h : Nat.Coprime (xRead s b) (xRead s c)) :
    exec (.bmodinv a b c) s = .next (ended .ok (xWrite a (invMod (xRead s b) (xRead s c)) s)) :=
  (if_neg hm).trans (if_neg (not_not.mpr h))

theorem exec_bmodinv_of_eq (h : xRead s c = 0) : exec (.bmodinv a b c) s = .next (ended .badOperand s) := if_pos h

theorem exec_bmodinv_of_not_coprime (hm : xRead s c ≠ 0) (h : ¬ Nat.Coprime (xRead s b) (xRead s c)) :
    exec (.bmodinv a b c) s = .next (ended .notInvertible s) :=
  (if_neg hm).trans (if_pos h)

end Exec

/-! ### The obligations -/

/-- Settles O25: the loop of squarings leaves the power modulo X[d], and the modulus is checked before it. -/
theorem modularExponentResult : Obligations.ModularExponentResult := by
  unfold Obligations.ModularExponentResult
  refine fun s a b c d => ⟨toNat_packWord_xregField 0x51 a b c d,
    fun hm => ⟨_, exec_bmodexp_of_ne hm, rfl, fun i => ?_⟩, exec_bmodexp_of_eq⟩
  rw [xRead_ended, xRead_xWrite]

/-- Settles O26: the extended Euclidean algorithm leaves the one inverse below X[c], after the checks of the modulus and of the
greatest common divisor. -/
theorem modularInverseResult : Obligations.ModularInverseResult := by
  unfold Obligations.ModularInverseResult
  refine fun s a b c => ⟨toNat_packWord_xregField 0x52 a b c 0, fun hm hcop => ?_, exec_bmodinv_of_eq,
    exec_bmodinv_of_not_coprime⟩
  have hpos : 0 < xRead s c := Nat.pos_of_ne_zero hm
  refine ⟨_, exec_bmodinv_of_coprime hm hcop, rfl, fun i hi => ?_, ?_⟩
  · rw [xRead_ended, xRead_xWrite, if_neg hi]
  · rw [xRead_ended, xRead_xWrite, if_pos rfl]
    exact ⟨invMod_lt hpos, invMod_mul hpos hcop, fun y => eq_invMod hpos hcop⟩

/-- Settles O24: the product is reduced to the register's size, and the flag compares it with that size. -/
theorem bigMultiplyResult : Obligations.BigMultiplyResult := by
  unfold Obligations.BigMultiplyResult
  refine fun s a b c => ⟨toNat_packWord_xregField 0x50 a b c 0, _, exec_bmul s a b c, rfl, fun i => ?_, ?_⟩
  · exact xRead_xWrite a i _ s
  · exact decide_eq_true_iff

end Sys2Proof.Proofs

/-! The RSA codec: the bytes that RSAENC and RSADEC leave in OUT, and their errors in check order (46_rsa.md R242 to R244). -/

namespace Sys2Proof.Proofs

open Sys2Proof.Machine Sys2Proof.Laws

/-! ### The ends of a buffer command -/

section Ends

variable {o : Host.Outcome State Fault Refusal} {s : State}

theorem exists_bufferErrorFrom {c : ErrCode} (h : o = raiseBufErr c s) : ∃ t, o = .next t ∧ BufferErrorFrom c s t :=
  ⟨_, h, bufferErrorFrom_loseOut c s⟩

/-- A command that completes with `bs` written to OUT leaves these bytes, and changes nothing else. A legal OUT holds at most
4096 bytes (00_scope.md R7), so that OUT_LEN holds their number. -/
theorem exists_outWritten {bs : List Byte} {n : Nat} {f : Nat → Byte} (h : o = complete (writeOut bs s))
    (hlegal : s.cfg.Legal) (hwf : Memory.wf s.outBuf = true) (hlen : bs.length = n) (hn : n ≤ s.cfg.bufBytes)
    (hf : ∀ j, j < n → bs.getD j 0 = f j) :
    ∃ t, o = .next t ∧ t = ended .ok { s with outBuf := t.outBuf, outLen := t.outLen } ∧ OutWritten s t n f := by
  have hfits : n < 2 ^ 32 := by omega
  exact ⟨_, h, rfl, outWritten_memWriteBytes _ _ bs n f hwf hlen hfits hf rfl rfl⟩

end Ends

/-! ### The enciphered and the deciphered bytes -/

theorem pos_of_blen_pos {n : Nat} (h : 0 < blen n) : 0 < n :=
  lt_of_lt_of_le (Nat.pow_pos (by decide)) (pow_blen_le h)

/-- The bytes of a modular power, as claims say it. With the modulus 0, where the machine's loop is no power, there are none. -/
theorem beBytes_powMod (b e n : Nat) : beBytes (blen n) (powMod b e n) = beBytes (blen n) (b ^ e % n) := by
  rcases Nat.eq_zero_or_pos (blen n) with h | h
  · rw [h]; rfl
  · rw [powMod_eq (pos_of_blen_pos h)]

theorem rsaEncrypt_eq_beBytes (c : Config) (e n : Nat) (m : List Byte) :
    rsaEncrypt c.digest e n m = beBytes (blen n) (bigEndian (paddedMessage c (blen n) m) ^ e % n) := by
  rw [rsaEncrypt, beBytes_powMod, bigEndian_eq_beNat, paddedMessage_eq_rsaPadded]

theorem rsaDecryptBuf_eq_beBytes (d n : Nat) (c : List Byte) :
    rsaDecryptBuf d n c = beBytes (blen n) (bigEndian c ^ d % n) := by
  rw [rsaDecryptBuf, beBytes_powMod, bigEndian_eq_beNat]

theorem getD_drop_beBytes {k m j : Nat} (v : Nat) (h : m + j < k) :
    ((beBytes k v).drop m).getD j 0 = bigEndianByte k v (m + j) := by
  rw [← getD_beBytes k v _ h]
  simp [List.getD_eq_getElem?_getD]

/-! ### RSAENC, check by check -/

section Rsaenc

variable {s : State}

theorem exec_rsaenc_of_not_pubValid (hvalid : s.pubValid = false) : exec .rsaenc s = raiseBufErr .publicKeyMissing s :=
  if_pos (by simp [hvalid])

variable (hvalid : s.pubValid = true)
include hvalid

theorem exec_rsaenc_of_input_too_long (hin : s.cfg.bufBytes < s.inLen.toNat) :
    exec .rsaenc s = raiseBufErr .bufferOverflow s :=
  (if_neg (by simp [hvalid])).trans (if_pos hin)

variable (hin : s.inLen.toNat ≤ s.cfg.bufBytes)
include hin

theorem exec_rsaenc_of_message_too_long (hfit : blen s.pubN < s.inLen.toNat + s.cfg.digest.length + 2) :
    exec .rsaenc s = raiseBufErr .messageTooLong s :=
  (if_neg (by simp [hvalid])).trans ((if_neg (not_lt.mpr hin)).trans (if_pos hfit))

variable (hfit : s.inLen.toNat + s.cfg.digest.length + 2 ≤ blen s.pubN)
include hfit

theorem exec_rsaenc_of_output_too_long (hout : s.cfg.bufBytes < blen s.pubN) :
    exec .rsaenc s = raiseBufErr .bufferOverflow s :=
  (if_neg (by simp [hvalid])).trans ((if_neg (not_lt.mpr hin)).trans ((if_neg (not_lt.mpr hfit)).trans (if_pos hout)))

theorem exec_rsaenc_of_fits (hout : blen s.pubN ≤ s.cfg.bufBytes) :
    exec .rsaenc s = complete (writeOut (rsaEncrypt s.cfg.digest s.pubE s.pubN (message s s.inLen.toNat)) s) :=
  (if_neg (by simp [hvalid])).trans
    ((if_neg (not_lt.mpr hin)).trans ((if_neg (not_lt.mpr hfit)).trans (if_neg (not_lt.mpr hout))))

end Rsaenc

/-! ### RSADEC, check by check -/

section Rsadec

variable {s : State}

theorem exec_rsadec_of_not_privValid (hvalid : s.privValid = false) : exec .rsadec s = raiseBufErr .privateKeyMissing s :=
  if_pos (by simp [hvalid])

variable (hvalid : s.privValid = true)
include hvalid

theorem exec_rsadec_of_input_too_long (hin : s.cfg.bufBytes < s.inLen.toNat) :
    exec .rsadec s = raiseBufErr .bufferOverflow s :=
  (if_neg (by simp [hvalid])).trans (if_pos hin)

variable (hin : s.inLen.toNat ≤ s.cfg.bufBytes)
include hin

theorem exec_rsadec_of_length_ne (hlen : s.inLen.toNat ≠ blen s.privN) :
    exec .rsadec s = raiseBufErr .invalidCiphertextLength s :=
  (if_neg (by simp [hvalid])).trans ((if_neg (not_lt.mpr hin)).trans (if_pos hlen))

/-- After the checks the outcome is that of the unpadding. -/
theorem exec_rsadec_of_length_eq (hlen : s.inLen.toNat = blen s.privN) {r : Option (List Byte)}
    (hr : rsaUnpad s.cfg.digest.length
      (beBytes (blen s.privN) (bigEndian (message s s.inLen.toNat) ^ s.privD % s.privN)) = r) :
    exec .rsadec s = r.elim (raiseBufErr .padError s) (fun bs => complete (writeOut bs s)) := by
  have hunpad : rsaUnpad s.cfg.digestSize (rsaDecryptBuf s.privD s.privN (inBytes s (inLenNat s))) = r := by
    rw [rsaDecryptBuf_eq_beBytes]
    exact hr
  refine (if_neg (by simp [hvalid])).trans ((if_neg (not_lt.mpr hin)).trans ((if_neg (not_not.mpr hlen)).trans ?_))
  rw [hunpad]
  cases r <;> rfl

end Rsadec

/-! ### The obligations -/

/-- Settles O33: the checks stand in the claim's order, and after them the power's bytes are written to OUT. -/
theorem rsaEncryptResult : Obligations.RsaEncryptResult := by
  unfold Obligations.RsaEncryptResult
  simp only [byteLength_eq_blen]
  refine ⟨by decide, fun s hlegal hwf => ⟨fun hvalid hin hfit hout => ?_,
    fun hvalid => exists_bufferErrorFrom (exec_rsaenc_of_not_pubValid hvalid),
    fun hvalid hin => exists_bufferErrorFrom (exec_rsaenc_of_input_too_long hvalid hin),
    fun hvalid hin hfit => exists_bufferErrorFrom (exec_rsaenc_of_message_too_long hvalid hin hfit),
    fun hvalid hin hfit hout => exists_bufferErrorFrom (exec_rsaenc_of_output_too_long hvalid hin hfit hout)⟩⟩
  have hexec := exec_rsaenc_of_fits hvalid hin hfit hout
  rw [rsaEncrypt_eq_beBytes] at hexec
  exact exists_outWritten hexec hlegal hwf (length_beBytes _ _) hout fun j hj => getD_beBytes _ _ j hj

/-- Settles O34: after the checks the unpadding looks for the first 0x01 of the power's bytes, and what stands behind it and the
digest is written to OUT. -/
theorem rsaDecryptResult : Obligations.RsaDecryptResult := by
  unfold Obligations.RsaDecryptResult
  simp only [byteLength_eq_blen]
  refine ⟨by decide, fun s hlegal hwf => ⟨fun hvalid hin hlen => ⟨fun i hi hone hfirst => ?_, fun hnone => ?_⟩,
    fun hvalid => exists_bufferErrorFrom (exec_rsadec_of_not_privValid hvalid),
    fun hvalid hin => exists_bufferErrorFrom (exec_rsadec_of_input_too_long hvalid hin),
    fun hvalid hin hlen => exists_bufferErrorFrom (exec_rsadec_of_length_ne hvalid hin hlen)⟩⟩
  · have hexec := exec_rsadec_of_length_eq hvalid hin hlen (rsaUnpad_first s.cfg.digest.length _ _ i hi hone hfirst)
    refine ⟨fun hroom => ?_, fun hshort => ?_⟩
    · rw [if_neg (not_lt.mpr hroom)] at hexec
      exact exists_outWritten hexec hlegal hwf (by simp) (by omega) fun j hj => getD_drop_beBytes _ (by omega)
    · rw [if_pos hshort] at hexec
      exact exists_bufferErrorFrom hexec
  · exact exists_bufferErrorFrom (exec_rsadec_of_length_eq hvalid hin hlen (rsaUnpad_none _ _ _ hnone))

end Sys2Proof.Proofs

/-! The interrupt output: what a finish and the host's writes leave of its two factors, IE and DONE
(60_exceptions.md R264, R268, R269). -/

namespace Sys2Proof.Proofs

open Sys2Proof.Machine Sys2Proof.Laws

variable {s t : State} {i : Instr}

theorem irq_eq_true_iff (s : State) : irq s = true ↔ s.ie = true ∧ s.done = true := Bool.and_eq_true_iff

theorem irq_of_done (h : s.done = true) : irq s = s.ie := by rw [irq, h, Bool.and_true]

theorem irq_of_not_done (h : s.done = false) : irq s = false := by rw [irq, h, Bool.and_false]

/-! ### What a finish leaves of IE and DONE -/

/-- A command keeps IE: setting IE to its own value before the command sets it to that value after it. -/
theorem ie_of_exec (h : exec i s = .next t) : t.ie = s.ie := by
  have hkeep := exec_withHost i s s.ie s.resp s.inputs
  rw [show withHost s s.ie s.resp s.inputs = s from rfl, h] at hkeep
  rw [next_iff.mp hkeep.symm]

theorem done_of_error {c : ErrCode} {b : Bool} (h : (if b then raiseBufErr c else raiseErr c) s = .next t) :
    t.done = true := by
  cases b
  · rw [raiseErr_next.mp h, finish_done]
  · rw [raiseBufErr_next.mp h, finish_done]

/-- A running command that leaves the core Idle sets DONE: only a command that draws goes on, and it goes on being Busy. -/
theorem done_of_exec_idle (hb : s.seq = .busy) (h : exec i s = .next t) (hi : t.seq = .idle) : t.done = true := by
  cases hd : draws i with
  | false =>
    obtain ⟨-, hdone, -⟩ := finishes_of_not_draws hd h
    exact hdone
  | true =>
    rcases drawing_shape i hd s with ⟨c, -, herr⟩ | ⟨α, p, k, -, hend, -, -, hdraw⟩
    · refine done_of_error (s := s) (b := isBufferCommand i) (c := c) ?_
      rw [ite_apply]
      exact (herr s.abortReq s.drawn s.rng s.rngPos).symm.trans h
    · have hk : ∀ {v u}, Host.Outcome.next t = k v u → t.done = true := by
        intro v u hv
        obtain ⟨t', ht', -, hdone, -⟩ := hend v u
        rwa [← next_iff.mp (hv.trans ht')]
      rcases withDraws_cases ((hdraw s.abortReq s.drawn s.rng s.rngPos).symm.trans h) with
        ⟨-, -, he⟩ | ⟨_, _, -, -, he⟩ | ⟨-, -, he⟩ | ⟨_, _, -, -, he⟩
      · exact done_of_error he.symm
      · exact hk he
      · rw [next_iff.mp he.symm, waitForWord_seq, hb] at hi
        cases hi
      · exact hk he

theorem irq_of_exec_idle (hb : s.seq = .busy) (h : exec i s = .next t) (hi : t.seq = .idle) : irq t = s.ie := by
  rw [irq_of_done (done_of_exec_idle hb h hi), ie_of_exec h]

/-! ### What the host's writes leave of IE and DONE -/

theorem done_write_ctrl (v : Word) (hr : s.rstn = true) : (access (.write 0x0010 v 0xF) s).done = s.done := by
  rw [write_ctrl v hr, writeCtrl_done]

theorem done_write_status_of_bit {v : Word} (hr : s.rstn = true) (hv : v.getLsbD 1 = true) :
    (access (.write 0x0014 v 0xF) s).done = false := by
  rw [write_status v hr, writeStatus_done, hv, Bool.not_true, Bool.and_false]

theorem write_cmd_idle (v : Word) (hr : s.rstn = true) (hi : s.seq = .idle) :
    access (.write 0x0018 v 0xF) s = { startCommand v s with resp := .okay } :=
  write_mapped v hr (accessTarget_of_scalarTarget (t := .cmd) rfl) (.inl ((busy_eq_false_iff s).mpr hi))

theorem done_write_cmd_idle (v : Word) (hr : s.rstn = true) (hi : s.seq = .idle) :
    (access (.write 0x0018 v 0xF) s).done = false := by
  rw [write_cmd_idle v hr hi, startCommand_done]

theorem irq_write_ctrl (v : Word) (hr : s.rstn = true) :
    irq (access (.write 0x0010 v 0xF) s) = (v.getLsbD 0 && s.done) := by
  rw [irq, done_write_ctrl v hr, write_ctrl v hr, writeCtrl_ie]

/-- Settles O51: every finish sets DONE and keeps IE, and of the host's writes CTRL sets IE, STATUS and CMD clear DONE. -/
theorem interruptLevel : Obligations.InterruptLevel := by
  unfold Obligations.InterruptLevel
  refine fun s => ⟨irq_eq_true_iff s, fun i t hb h hi => irq_of_exec_idle hb h hi, fun hr v =>
    ⟨irq_write_ctrl v hr, done_write_ctrl v hr, fun hv => ?_, fun hi => ?_⟩⟩
  · have hdone := done_write_status_of_bit hr hv
    exact ⟨hdone, irq_of_not_done hdone⟩
  · have hdone := done_write_cmd_idle v hr hi
    exact ⟨hdone, irq_of_not_done hdone⟩

end Sys2Proof.Proofs

/-! Command words there and back: what the decoder makes of a packed word, that encoding a command and decoding its word gives the
command again, and the words of the operand forms as numbers (30_encoding.md R101 to R108). -/

namespace Sys2Proof.Proofs

open Sys2Proof.Machine Sys2Proof.Laws

/-! ### The fields of a packed word -/

theorem toNat_packWord (op : Byte) (fa fb fc fd : Nibble) :
    (packWord op fa fb fc fd).toNat =
      op.toNat + fa.toNat * 2 ^ 8 + fb.toNat * 2 ^ 12 + fc.toNat * 2 ^ 16 + fd.toNat * 2 ^ 20 := by
  simp only [packWord, toNat_append_eq_add, BitVec.toNat_ofNat]
  omega

/-- The operand fields of a packed word are those packed. -/
theorem packWord_operands (op : Byte) (fa fb fc fd : Nibble) :
    fieldFA (packWord op fa fb fc fd) = fa ∧ fieldFB (packWord op fa fb fc fd) = fb ∧
    fieldFC (packWord op fa fb fc fd) = fc ∧ fieldFD (packWord op fa fb fc fd) = fd := by
  simp only [← BitVec.toNat_inj, toNat_fieldFA, toNat_fieldFB, toNat_fieldFC, toNat_fieldFD, toNat_packWord]
  omega

/-- The decoder on a packed word whose opcode has a row that allows its fields. -/
theorem decode_packWord {r : OpRow} {fa fb fc fd : Nibble} {i : Instr} (hr : r ∈ opcodeMap) (h : RowAllows r fa fb fc fd)
    (hi : instrOf r.op fa fb fc fd = some i) (hwf : i.wellFormed = true) : decode (packWord r.op fa fb fc fd) = .ok i := by
  obtain ⟨hop, hrsv⟩ := OpcodeField.packWord_fields r.op fa fb fc fd
  obtain ⟨ha, hb, hc, hd⟩ := packWord_operands r.op fa fb fc fd
  rw [decode_eq_ok_iff, HasRow, hop, ha, hb, hc, hd]
  exact ⟨hrsv, ⟨r, hr, rfl, h⟩, hi, hwf⟩

/-! ### Operands as fields read back -/

theorem xregOf_xregField : ∀ r : XReg, xregOf (xregField r) = r := by decide

theorem kindAllows_xregField (r : XReg) : KindAllows .xreg (xregField r) := by
  have h : ∀ r : XReg, (xregField r).toNat ≤ 7 := by decide
  exact h r

theorem roundOf_roundField : ∀ j : RoundIdx, roundOf (roundField j) = j := by decide

theorem kindAllows_roundField (j : RoundIdx) : KindAllows .rnd (roundField j) := by
  have h : ∀ j : RoundIdx, (roundField j).toNat ≤ 10 := by decide
  exact h j

theorem maskOf_maskField (m : KeyMask) : maskOf (maskField m) = m := by
  obtain ⟨sym, pub, priv⟩ := m
  revert sym pub priv
  decide

theorem kindAllows_maskField {m : KeyMask} (h : m.nonempty = true) : KindAllows .mask (maskField m) := by
  obtain ⟨sym, pub, priv⟩ := m
  have hall : ∀ sym pub priv, KeyMask.nonempty ⟨sym, pub, priv⟩ = true →
      1 ≤ (maskField ⟨sym, pub, priv⟩).toNat ∧ (maskField ⟨sym, pub, priv⟩).toNat ≤ 7 := by decide
  exact hall sym pub priv h

/-! ### The obligations -/

/-- Settles O1: a command without operands is one word; the word of a command with operands is packed from fields that its row
allows and that read back as the operands. -/
theorem encodedCommandsDecode : Obligations.EncodedCommandsDecode := by
  unfold Obligations.EncodedCommandsDecode
  intro i hwf
  cases i with
  | addroundkey j =>
    exact decode_packWord (r := ⟨0x18, "ADDROUNDKEY", .rnd, .unused, .unused, .unused⟩) (by decide)
      ⟨kindAllows_roundField j, rfl, rfl, rfl⟩ (by simp [instrOf, roundOf_roundField]) hwf
  | keybind m =>
    exact decode_packWord (r := ⟨0x20, "KEYBIND", .mask, .unused, .unused, .unused⟩) (by decide)
      ⟨kindAllows_maskField hwf, rfl, rfl, rfl⟩ (by simp [instrOf, maskOf_maskField]) hwf
  | keyunbind m =>
    exact decode_packWord (r := ⟨0x21, "KEYUNBIND", .mask, .unused, .unused, .unused⟩) (by decide)
      ⟨kindAllows_maskField hwf, rfl, rfl, rfl⟩ (by simp [instrOf, maskOf_maskField]) hwf
  | cbcenc src => cases src <;> rfl
  | bmul a b c =>
    exact decode_packWord (r := ⟨0x50, "BMUL", .xreg, .xreg, .xreg, .unused⟩) (by decide)
      ⟨kindAllows_xregField a, kindAllows_xregField b, kindAllows_xregField c, rfl⟩
      (by simp [instrOf, xregOf_xregField]) hwf
  | bmodexp a b c d =>
    exact decode_packWord (r := ⟨0x51, "BMODEXP", .xreg, .xreg, .xreg, .xreg⟩) (by decide)
      ⟨kindAllows_xregField a, kindAllows_xregField b, kindAllows_xregField c, kindAllows_xregField d⟩
      (by simp [instrOf, xregOf_xregField]) hwf
  | bmodinv a b c =>
    exact decode_packWord (r := ⟨0x52, "BMODINV", .xreg, .xreg, .xreg, .unused⟩) (by decide)
      ⟨kindAllows_xregField a, kindAllows_xregField b, kindAllows_xregField c, rfl⟩
      (by simp [instrOf, xregOf_xregField]) hwf
  | bprime b =>
    exact decode_packWord (r := ⟨0x53, "BPRIME", .unused, .xreg, .unused, .unused⟩) (by decide)
      ⟨rfl, kindAllows_xregField b, rfl, rfl⟩ (by simp [instrOf, xregOf_xregField]) hwf
  | brandprime a =>
    exact decode_packWord (r := ⟨0x54, "BRANDPRIME", .xreg, .unused, .unused, .unused⟩) (by decide)
      ⟨kindAllows_xregField a, rfl, rfl, rfl⟩ (by simp [instrOf, xregOf_xregField]) hwf
  | rsakeygen a b c =>
    exact decode_packWord (r := ⟨0x60, "RSAKEYGEN", .xreg, .xreg, .xreg, .unused⟩) (by decide)
      ⟨kindAllows_xregField a, kindAllows_xregField b, kindAllows_xregField c, rfl⟩
      (by simp [instrOf, xregOf_xregField]) hwf
  | _ => rfl

/-- Settles O2: the fields of a word that the decoder lets through, packed again, are the word. -/
theorem decodedWordsEncode : Obligations.DecodedWordsEncode := by
  unfold Obligations.DecodedWordsEncode
  intro w i h
  obtain ⟨hwf, henc, -⟩ := decode_ok_encode h
  exact ⟨hwf, henc⟩

/-- Settles O3: each word is the sum of its opcode and its operand fields; a field without an operand counts as register 0. -/
theorem commandWordFormulas : Obligations.CommandWordFormulas := by
  unfold Obligations.CommandWordFormulas
  refine ⟨toNat_encode_addroundkey,
    fun m => ⟨toNat_packWord_maskField 0x20 m, toNat_packWord_maskField 0x21 m⟩, by decide, by decide, fun a b c d => ?_⟩
  have hform := toNat_packWord_xregField
  refine ⟨(hform 0x50#8 a b c 0).trans ?_, (hform 0x51#8 a b c d).trans ?_, (hform 0x52#8 a b c 0).trans ?_,
    (hform 0x53#8 0 b 0 0).trans ?_, (hform 0x54#8 a 0 0 0).trans ?_, (hform 0x60#8 a b c 0).trans ?_⟩
  all_goals simp only [BitVec.toNat_ofNat, Fin.val_zero]; omega

/-- Settles O4: the decoder, run on each of the listed words. -/
theorem wordsOfTheSpecDecode : Obligations.WordsOfTheSpecDecode := by
  unfold Obligations.WordsOfTheSpecDecode
  decide +kernel

end Sys2Proof.Proofs

/-! Everything a command can do: it waits, it fails, or it completes with its destinations written. What no command writes and what
only some write (10_state.md R29 to R48) is read off the list of the writes. -/

namespace Sys2Proof.Proofs

open Sys2Proof.Machine Sys2Proof.Laws

/-! ### The writes of a command -/

/-- `u` is `s` with no word taken, or with words taken from the port by a command that draws (20_memory.md R82). -/
def TakesWords (i : Instr) (s u : State) : Prop := u = s ∨ (draws i = true ∧ ∃ rest, u = takeAllBut rest s)

/-- `w` is `u` with destinations of a completing command `i` written, and what holds of the values written (the result rules of
40_gf256.md to 46_rsa.md). Which commands write STATE and X is left open. -/
inductive Writes : Instr → State → State → Prop where
  | nothing {i : Instr} (u : State) : Writes i u u
  | res {i : Instr} (u : State) (b : Byte) (hi : i = .gfmul ∨ i = .xtime ∨ i = .sbox ∨ i = .invsbox) :
      Writes i u (writeRes b u)
  | state {i : Instr} (u : State) (b : Block) : Writes i u (writeState b u)
  | bind (u : State) (m : KeyMask) (hpub : m.pub = true → 2 ≤ u.pubN) (hpriv : m.priv = true → 2 ≤ u.privN) :
      Writes (.keybind m) u { u with
        rk := if m.sym = true then keyExpansion u.key else u.rk
        keyValid := u.keyValid || m.sym
        pubValid := u.pubValid || m.pub
        privValid := u.privValid || m.priv }
  | unbind (u : State) (m : KeyMask) :
      Writes (.keyunbind m) u { u with
        keyValid := u.keyValid && !m.sym, pubValid := u.pubValid && !m.pub, privValid := u.privValid && !m.priv }
  | newKey (u : State) (key : Block) : Writes .symkeygen u (bindSym { u with key := key })
  | out {i : Instr} (u : State) (bs : List Byte) (hi : isBufferCommand i = true) (hlen : bs.length ≤ u.cfg.bufBytes) :
      Writes i u (writeOut bs u)
  | outIv (u : State) (src : IvSource) (bs : List Byte) (iv : Block) (hlen : bs.length ≤ u.cfg.bufBytes) :
      Writes (.cbcenc src) u { writeOut bs u with iv := iv }
  | reduced {i : Instr} (u : State) (a m : XReg) (v : Nat) (hv : v < xRead u m) : Writes i u (xWrite a v u)
  | candidate {i : Instr} (u : State) (a : XReg) (v : Nat) (hv : v < 2 ^ u.cfg.bigBits) : Writes i u (xWrite a v u)
  | product (u : State) (a b c : XReg) (v : Nat) (o : Bool) (hv : v < 2 ^ u.cfg.bigBits) :
      Writes (.bmul a b c) u { xWrite a v u with ovf := o }
  | prime (u : State) (b : XReg) (r : Bool) : Writes (.bprime b) u { u with prime := r }
  | keyPair (u : State) (a b c : XReg) (p q d : Nat) (hp : 2 ≤ p) (hq : 2 ≤ q) (hn : p * q < 2 ^ u.cfg.bigBits)
      (hd : d < p * q) :
      Writes (.rsakeygen a b c) u (xWrite b q (xWrite a p (writeKeyPair (xRead u c) (p * q) d u)))

/-- How a move of command `i` from `s` can end: it waits for a word; it fails, and a buffer command loses OUT (60_exceptions.md
R266, R267); it completes with its writes. -/
inductive MoveEnds (i : Instr) (s : State) : State → Prop where
  | waits (hd : draws i = true) (ha : s.abortReq = false) : MoveEnds i s (waitForWord s)
  | fails {c : ErrCode} {u : State} (hc : c ≠ .ok) (hu : TakesWords i s u) :
      MoveEnds i s (finish c (if isBufferCommand i then loseOut u else u))
  | completes {u w : State} (hu : TakesWords i s u) (hw : Writes i u w) : MoveEnds i s (finish .ok w)

/-! ### Bounds of the values written -/

theorem length_cbcEncrypt_pad (rk : RoundKeys) (m : List Byte) (iv : Block) :
    (cbcEncrypt rk (pad m) iv).length = cbcOutLen m.length := by
  rw [length_cbcEncrypt rk _ iv (length_pad_mod m), length_pad, cbcOutLen, Nat.add_assoc]

theorem length_inBytes (s : State) (n : Nat) : (inBytes s n).length = n := length_memReadBytes _ _ _

theorem two_le_primeCandidate {bits : Nat} (hb : 2 ≤ bits) (v : Nat) : 2 ≤ primeCandidate bits v :=
  calc 2 = 2 ^ 1 := rfl
    _ ≤ 2 ^ (bits - 1) := Nat.pow_le_pow_right (by decide) (by omega)
    _ ≤ primeCandidate bits v := le_primeCandidate bits v

/-- The product of two candidates fits a register of twice their size. -/
theorem primeCandidate_mul_lt {bits n : Nat} (hb : 1 ≤ bits) (hn : 2 * bits ≤ n) (v w : Nat) :
    primeCandidate bits v * primeCandidate bits w < 2 ^ n :=
  calc primeCandidate bits v * primeCandidate bits w
      < 2 ^ bits * 2 ^ bits := Nat.mul_lt_mul'' (primeCandidate_lt hb v) (primeCandidate_lt hb w)
    _ = 2 ^ (2 * bits) := by rw [← pow_add, two_mul]
    _ ≤ 2 ^ n := Nat.pow_le_pow_right (by decide) hn

/-- φ of two numbers of at least 2 is positive, and below their product. -/
theorem phiOf_pos_lt {p q : Nat} (hp : 2 ≤ p) (hq : 2 ≤ q) : 0 < phiOf p q ∧ phiOf p q < p * q :=
  ⟨Nat.mul_pos (by omega) (by omega), Nat.mul_lt_mul'' (by omega) (by omega)⟩

/-! ### The drawing commands, check by check -/

section Checks

variable {s : State}

theorem exec_cbcenc_of_not_keyValid (src : IvSource) (hvalid : s.keyValid = false) :
    exec (.cbcenc src) s = raiseBufErr .missingKey s :=
  if_pos (by simp [hvalid])

/-- Both length checks of CBCENC fail alike: an output longer than OUT is BufferOverflow (44_cbc.md R193). -/
theorem exec_cbcenc_of_output_too_long (src : IvSource) (hvalid : s.keyValid = true)
    (hout : s.cfg.bufBytes < cbcOutLen (inLenNat s)) : exec (.cbcenc src) s = raiseBufErr .bufferOverflow s := by
  by_cases hin : s.cfg.bufBytes < inLenNat s
  · exact (if_neg (by simp [hvalid])).trans (if_pos hin)
  · exact (if_neg (by simp [hvalid])).trans ((if_neg hin).trans (if_pos hout))

section Fits

variable (hvalid : s.keyValid = true) (hout : cbcOutLen (inLenNat s) ≤ s.cfg.bufBytes)
include hvalid hout

theorem exec_cbcenc_ivreg_of_fits : exec (.cbcenc .ivreg) s = cbcencCommit s.iv s := by
  have hin : inLenNat s ≤ s.cfg.bufBytes := by unfold cbcOutLen at hout; omega
  exact (if_neg (by simp [hvalid])).trans ((if_neg (not_lt.mpr hin)).trans (if_neg (not_lt.mpr hout)))

theorem exec_cbcenc_rng_of_fits :
    exec (.cbcenc .rng) s =
      withDraws (drawWords 4) (raiseBufErr .aborted) (fun ws t => cbcencCommit (blockOfWords ws) t) s := by
  have hin : inLenNat s ≤ s.cfg.bufBytes := by unfold cbcOutLen at hout; omega
  exact (if_neg (by simp [hvalid])).trans ((if_neg (not_lt.mpr hin)).trans (if_neg (not_lt.mpr hout)))

end Fits

theorem exec_bprime (b : XReg) (s : State) :
    exec (.bprime b) s =
      withDraws (millerRabin s.cfg.mrRounds (xRead s b)) (raiseErr .aborted) (fun r t => complete { t with prime := r }) s := rfl

theorem exec_brandprime_of_bad_size (a : XReg) (h : argNat s < 2 ∨ s.cfg.bigBits < argNat s) :
    exec (.brandprime a) s = raiseErr .badOperand s := if_pos h

theorem exec_brandprime_of_size (a : XReg) (h2 : 2 ≤ argNat s) (hbits : argNat s ≤ s.cfg.bigBits) :
    exec (.brandprime a) s =
      withDraws (randPrime s.cfg.mrRounds (argNat s)) (raiseErr .aborted) (fun p t => complete (xWrite a p t)) s :=
  if_neg (by omega)

theorem exec_rsakeygen_of_bad_size (a b c : XReg) (h : argNat s < 2 ∨ s.cfg.bigBits < 2 * argNat s) :
    exec (.rsakeygen a b c) s = raiseErr .badOperand s := if_pos h

theorem exec_rsakeygen_of_size (a b c : XReg) (h2 : 2 ≤ argNat s) (hbits : 2 * argNat s ≤ s.cfg.bigBits) :
    exec (.rsakeygen a b c) s =
      withDraws (drawPrimePair s.cfg.mrRounds (argNat s)) (raiseErr .aborted) (rsakeygenCommit a b c) s :=
  if_neg (by omega)

end Checks

/-! ### The ends of each command's move -/

section Ends

variable {s t : State}

/-- A failure before any word is taken. -/
theorem MoveEnds.failsAtOnce {i : Instr} {c : ErrCode} (hc : c ≠ .ok) :
    MoveEnds i s (finish c (if isBufferCommand i then loseOut s else s)) := .fails hc (.inl rfl)

/-- A completion without a word taken. -/
theorem MoveEnds.completesAtOnce {i : Instr} {w : State} (hw : Writes i s w) : MoveEnds i s (finish .ok w) :=
  .completes (.inl rfl) hw

theorem cfg_of_takesWords {i : Instr} {u : State} (h : TakesWords i s u) : u.cfg = s.cfg := by
  rcases h with rfl | ⟨-, rest, rfl⟩ <;> rfl

/-- A command that draws: it fails by its abort, waits, or goes on with the words taken. -/
theorem moveEnds_withDraws {α : Type} {i : Instr} {p : Draw α} {onAbort : State → Host.Outcome State Fault Refusal}
    {k : α → State → Host.Outcome State Fault Refusal} (hd : draws i = true)
    (habort : onAbort s = .next (finish .aborted (if isBufferCommand i then loseOut s else s)))
    (hk : ∀ v ws rest u, p ws = some (v, rest) → TakesWords i s u → k v u = .next t → MoveEnds i s t)
    (h : withDraws p onAbort k s = .next t) : MoveEnds i s t := by
  rcases withDraws_cases h with ⟨-, -, he⟩ | ⟨v, rest, -, hp, he⟩ | ⟨ha, -, he⟩ | ⟨v, rest, -, hp, he⟩
  · rw [next_iff.mp (habort.symm.trans he.symm)]
    exact .failsAtOnce (by decide)
  · exact hk v _ rest s hp (.inl rfl) he.symm
  · rw [next_iff.mp he.symm]
    exact .waits hd ha
  · exact hk v _ rest _ hp (.inr ⟨hd, rest, rfl⟩) he.symm

theorem moveEnds_symkeygen (h : exec .symkeygen s = .next t) : MoveEnds .symkeygen s t := by
  by_cases harg : s.arg = 16
  · rw [exec_symkeygen_of_eq harg] at h
    refine moveEnds_withDraws rfl rfl (fun ws _ _ u _ hu hk => ?_) h
    rw [complete_next.mp hk]
    exact .completes hu (.newKey u _)
  · rw [next_iff.mp ((exec_symkeygen_of_ne harg).symm.trans h)]
    exact .failsAtOnce (c := .badKeyLength) (by decide)

theorem moveEnds_cbcencCommit {src : IvSource} {u : State} {iv : Block} (hu : TakesWords (.cbcenc src) s u)
    (hout : cbcOutLen (inLenNat u) ≤ u.cfg.bufBytes) (h : cbcencCommit iv u = .next t) : MoveEnds (.cbcenc src) s t := by
  rw [cbcencCommit_next.mp h]
  refine .completes hu (.outIv u src _ iv ?_)
  rwa [length_cbcEncrypt_pad, length_inBytes]

theorem moveEnds_cbcenc {src : IvSource} (h : exec (.cbcenc src) s = .next t) : MoveEnds (.cbcenc src) s t := by
  cases hvalid : s.keyValid with
  | false =>
    rw [raiseBufErr_next.mp ((exec_cbcenc_of_not_keyValid src hvalid).symm.trans h)]
    exact .failsAtOnce (by decide)
  | true =>
    rcases lt_or_ge s.cfg.bufBytes (cbcOutLen (inLenNat s)) with hout | hout
    · rw [raiseBufErr_next.mp ((exec_cbcenc_of_output_too_long src hvalid hout).symm.trans h)]
      exact .failsAtOnce (by decide)
    · cases src with
      | ivreg => exact moveEnds_cbcencCommit (.inl rfl) hout ((exec_cbcenc_ivreg_of_fits hvalid hout).symm.trans h)
      | rng =>
        rw [exec_cbcenc_rng_of_fits hvalid hout] at h
        refine moveEnds_withDraws rfl rfl (fun ws _ _ u _ hu hk => moveEnds_cbcencCommit hu ?_ hk) h
        rcases hu with rfl | ⟨-, rest, rfl⟩ <;> exact hout

theorem moveEnds_cbcdec (h : exec .cbcdec s = .next t) : MoveEnds .cbcdec s t := by
  rcases execCbcdec_cases h with ⟨c, hc, rfl⟩ | ⟨-, hin, -, hmod, p, -, -, -, rfl⟩
  · exact .failsAtOnce hc
  · refine .completesAtOnce (.out s _ rfl ?_)
    rw [List.length_take]
    omega

theorem moveEnds_brandprime {a : XReg} (h : exec (.brandprime a) s = .next t) : MoveEnds (.brandprime a) s t := by
  by_cases hbad : argNat s < 2 ∨ s.cfg.bigBits < argNat s
  · rw [raiseErr_next.mp ((exec_brandprime_of_bad_size a hbad).symm.trans h)]
    exact .failsAtOnce (by decide)
  · rw [exec_brandprime_of_size a (by omega) (by omega)] at h
    refine moveEnds_withDraws rfl rfl (fun p _ _ u hp hu hk => ?_) h
    obtain ⟨v, rfl⟩ := randPrime_candidate hp
    rw [complete_next.mp hk]
    refine .completes hu (.candidate u a _ ((primeCandidate_lt (by omega) v).trans_le ?_))
    rw [cfg_of_takesWords hu]
    exact Nat.pow_le_pow_right (by decide) (by omega)

theorem moveEnds_rsakeygen {a b c : XReg} (h : exec (.rsakeygen a b c) s = .next t) : MoveEnds (.rsakeygen a b c) s t := by
  by_cases hbad : argNat s < 2 ∨ s.cfg.bigBits < 2 * argNat s
  · rw [raiseErr_next.mp ((exec_rsakeygen_of_bad_size a b c hbad).symm.trans h)]
    exact .failsAtOnce (by decide)
  · rw [exec_rsakeygen_of_size a b c (by omega) (by omega)] at h
    refine moveEnds_withDraws rfl rfl (fun pq _ _ u hpq hu hk => ?_) h
    obtain ⟨⟨v, hv⟩, w, hw⟩ := drawPrimePair_candidates hpq
    rcases rsakeygenCommit_cases hk with ⟨-, rfl⟩ | ⟨-, rfl⟩
    · exact .fails (by decide) hu
    · have hp : 2 ≤ pq.1 := hv ▸ two_le_primeCandidate (by omega) v
      have hq : 2 ≤ pq.2 := hw ▸ two_le_primeCandidate (by omega) w
      obtain ⟨hpos, hlt⟩ := phiOf_pos_lt hp hq
      refine .completes hu (.keyPair u a b c _ _ _ hp hq ?_ ((invMod_lt hpos).trans hlt))
      rw [cfg_of_takesWords hu, hv, hw]
      exact primeCandidate_mul_lt (by omega) (by omega) v w

theorem moveEnds_rsaenc (h : exec .rsaenc s = .next t) : MoveEnds .rsaenc s t := by
  rcases execRsaenc_cases h with ⟨c, hc, rfl⟩ | ⟨-, -, -, hout, rfl⟩
  · exact .failsAtOnce hc
  · exact .completesAtOnce (.out s _ rfl (by rwa [rsaEncrypt, length_beBytes]))

theorem moveEnds_rsadec (h : exec .rsadec s = .next t) : MoveEnds .rsadec s t := by
  rcases execRsadec_cases h with ⟨c, hc, rfl⟩ | ⟨-, hin, hlen, r, hr, rfl⟩
  · exact .failsAtOnce hc
  · refine .completesAtOnce (.out s r rfl ((length_rsaUnpad hr).trans ?_))
    rw [rsaDecryptBuf, length_beBytes, ← hlen]
    exact hin

/-- Every move of every command ends in one of the three ways. -/
theorem moveEnds_of_exec {i : Instr} (h : exec i s = .next t) : MoveEnds i s t := by
  cases i with
  | nop => rw [complete_next.mp h]; exact .completesAtOnce (.nothing s)
  | gfmul | xtime | sbox | invsbox => rw [complete_next.mp h]; exact .completesAtOnce (.res s _ (by simp))
  | subbytes | invsubbytes | shiftrows | invshiftrows | mixcolumns | invmixcolumns =>
    rw [complete_next.mp h]; exact .completesAtOnce (.state s _)
  | addroundkey j =>
    rcases execAddroundkey_cases h with ⟨-, rfl⟩ | ⟨-, rfl⟩
    · exact .failsAtOnce (by decide)
    · exact .completesAtOnce (.state s _)
  | keybind m =>
    rcases execKeybind_cases h with ⟨-, rfl⟩ | ⟨hpub, hpriv, -⟩
    · exact .failsAtOnce (by decide)
    · rw [next_iff.mp ((exec_keybind_of_moduli hpub hpriv).symm.trans h)]
      exact .completesAtOnce (.bind s m hpub hpriv)
  | keyunbind m => rw [complete_next.mp h]; exact .completesAtOnce (.unbind s m)
  | symkeygen => exact moveEnds_symkeygen h
  | aesenc =>
    rcases execAesenc_cases h with ⟨-, rfl⟩ | ⟨-, rfl⟩
    · exact .failsAtOnce (by decide)
    · exact .completesAtOnce (.state s _)
  | aesdec =>
    rcases execAesdec_cases h with ⟨-, rfl⟩ | ⟨-, rfl⟩
    · exact .failsAtOnce (by decide)
    · exact .completesAtOnce (.state s _)
  | cbcenc src => exact moveEnds_cbcenc h
  | cbcdec => exact moveEnds_cbcdec h
  | bmul a b c =>
    rw [complete_next.mp h]
    exact .completesAtOnce (.product s a b c _ _ (Nat.mod_lt _ (Nat.two_pow_pos _)))
  | bmodexp a b c d =>
    rcases execBmodexp_cases h with ⟨-, rfl⟩ | ⟨hm, rfl⟩
    · exact .failsAtOnce (by decide)
    · exact .completesAtOnce (.reduced s a d _ (powMod_lt (Nat.pos_of_ne_zero hm)))
  | bmodinv a b c =>
    rcases execBmodinv_cases h with ⟨-, rfl⟩ | ⟨-, -, rfl⟩ | ⟨hm, -, rfl⟩
    · exact .failsAtOnce (by decide)
    · exact .failsAtOnce (by decide)
    · exact .completesAtOnce (.reduced s a c _ (invMod_lt (Nat.pos_of_ne_zero hm)))
  | bprime b =>
    refine moveEnds_withDraws rfl rfl (fun r _ _ u _ hu hk => ?_) ((exec_bprime b s).symm.trans h)
    rw [complete_next.mp hk]
    exact .completes hu (.prime u b r)
  | brandprime a => exact moveEnds_brandprime h
  | rsakeygen a b c => exact moveEnds_rsakeygen h
  | rsaenc => exact moveEnds_rsaenc h
  | rsadec => exact moveEnds_rsadec h

end Ends

end Sys2Proof.Proofs

/-! What no command writes and what only some commands write (10_state.md R29 to R36, R40, R41, R48): the frame of a command
(60_exceptions.md R266). -/

namespace Sys2Proof.Proofs

open Sys2Proof.Machine Sys2Proof.Laws

section Frames

variable {i : Instr} {s t u w : State}

/-- Taking words changes the port and the RNG position alone. -/
theorem eq_of_takesWords (h : TakesWords i s u) : ∃ g n, u = { s with rng := g, rngPos := n } := by
  rcases h with rfl | ⟨-, rest, rfl⟩
  · exact ⟨_, _, rfl⟩
  · exact ⟨_, _, rfl⟩

/-- The frame of a command, from `s` to `t`: the registers no command writes, and each register that only some commands write. -/
structure KeepsOthers (i : Instr) (s t : State) : Prop where
  unwritten : t.cmd = s.cmd ∧ t.arg = s.arg ∧ t.inLen = s.inLen ∧ t.opa = s.opa ∧ t.opb = s.opb ∧ t.inBuf = s.inBuf ∧
    t.ie = s.ie ∧ t.wbusy = s.wbusy ∧ t.cfg = s.cfg
  prime : (∀ b, i ≠ .bprime b) → t.prime = s.prime
  ovf : (∀ a b c, i ≠ .bmul a b c) → t.ovf = s.ovf
  out : isBufferCommand i = false → t.outBuf = s.outBuf ∧ t.outLen = s.outLen
  res : i ≠ .gfmul → i ≠ .xtime → i ≠ .sbox → i ≠ .invsbox → t.res = s.res
  iv : (∀ src, i ≠ .cbcenc src) → t.iv = s.iv

/-- The writes of a completing command keep its frame: each is to a destination of its own. -/
theorem keepsOthers_of_writes (h : Writes i u w) : KeepsOthers i u w := by
  cases h with
  | res u b hi =>
    refine ⟨by simp, fun _ => rfl, fun _ => rfl, fun _ => ⟨rfl, rfl⟩, fun h1 h2 h3 h4 => ?_, fun _ => rfl⟩
    simp [h1, h2, h3, h4] at hi
  | out u bs hi => constructor <;> simp [hi]
  | outIv u src => constructor <;> simp [isBufferCommand]
  | _ => constructor <;> simp

theorem keepsOthers_of_exec (h : exec i s = .next t) : KeepsOthers i s t := by
  rcases moveEnds_of_exec h with ⟨-, -⟩ | ⟨-, hu⟩ | ⟨hu, hw⟩
  · constructor <;> simp
  · obtain ⟨g, n, rfl⟩ := eq_of_takesWords hu
    cases hb : isBufferCommand i <;> constructor <;> simp [hb]
  · obtain ⟨g, n, rfl⟩ := eq_of_takesWords hu
    obtain ⟨hun, hprime, hovf, hout, hres, hiv⟩ := keepsOthers_of_writes hw
    exact ⟨hun, hprime, hovf, hout, hres, hiv⟩

end Frames

/-- Settles O58: the frame of each write of a command is its frame, for a failing and a waiting command write no other register. -/
theorem commandsWriteOnlyTheirDestinations : Obligations.CommandsWriteOnlyTheirDestinations := by
  unfold Obligations.CommandsWriteOnlyTheirDestinations
  intro s t i h
  obtain ⟨⟨hcmd, harg, hinLen, hopa, hopb, hinBuf, hie, hwbusy, hcfg⟩, hprime, hovf, hout, hres, hiv⟩ := keepsOthers_of_exec h
  exact ⟨hcmd, harg, hinLen, hopa, hopb, hinBuf, hie, hwbusy, hcfg, hprime, hovf, hout, hres, hiv⟩

end Sys2Proof.Proofs

/-! Everything a step can do, and what no step does: change the parameters (00_scope.md R7), or bind a key but by the finish of a
command that binds it (10_state.md R45); and that no access while Busy reaches the running command (20_memory.md R78, R80). -/

namespace Sys2Proof.Proofs

open Sys2Proof.Machine Sys2Proof.Laws

/-! ### The ends of a step -/

/-- How the handling of the oldest event can end, from the state `s` without that event: in a move of the sequencer, in an access,
in both at once (60_exceptions.md R270), in a change at the port, in an edge of `rst_n`, in nothing. -/
inductive EventEnds (s : State) : State → Prop where
  | moves {t : State} (h : runSequencer s = .next t) : EventEnds s t
  | accesses (acc : Access) : EventEnds s (access acc s)
  | accessesAndMoves {acc : Access} {t : State} (a : Bool) (hs : s.seq ≠ .idle)
      (h : runSequencer { access acc s with abortReq := s.abortReq } = .next t)
      (ha : t.seq = .idle ∧ a = t.abortReq ∨ t.seq ≠ .idle ∧ a = (access acc s).abortReq) :
      EventEnds s { t with abortReq := a }
  | offers (w : Word) : EventEnds s (offerWord w s)
  | takes {w : Word} {ws : List Word} (hs : s.seq = .busy) : EventEnds s (takeWord w ws s)
  | asserts : EventEnds s (assertReset s)
  | releases : EventEnds s (releaseReset s)
  | keeps : EventEnds s s

section Ends

variable {s t : State}

theorem eventEnds_of_handleEvent {e : Event} (h : handleEvent e s = .next t) : EventEnds s t := by
  cases e with
  | bus acc => rw [next_iff.mp h]; exact .accesses acc
  | busAtFinish acc =>
    rcases accessAtFinish_cases h with ⟨-, rfl⟩ | ⟨hb, u, hu, ⟨hbu, rfl⟩ | ⟨hbu, rfl⟩⟩
    · exact .accesses acc
    · exact .accessesAndMoves _ ((busy_eq_true_iff s).mp hb) hu (.inr ⟨(busy_eq_true_iff u).mp hbu, rfl⟩)
    · exact .accessesAndMoves t.abortReq ((busy_eq_true_iff s).mp hb) hu (.inl ⟨(busy_eq_false_iff t).mp hbu, rfl⟩)
  | offer w => rw [next_iff.mp h]; exact .offers w
  | draw =>
    rw [next_iff.mp h]
    rcases drawOne_cases s with ⟨hd, -⟩ | ⟨w, ws, -, ha, hd⟩
    · rw [hd]; exact .keeps
    · obtain ⟨-, hs, -⟩ := awaitsWord_iff.mp ha
      rw [hd]; exact .takes hs
  | sequencer => exact .moves h
  | resetAssert => rw [next_iff.mp h]; exact .asserts
  | resetRelease => rw [next_iff.mp h]; exact .releases

/-- A step handles an event of the state without that event; with none listed it is the sequencer's move. -/
theorem eventEnds_of_step (h : step s = .next t) : ∃ es, EventEnds { s with inputs := es } t := by
  rcases step_cases h with ⟨-, hm⟩ | ⟨e, es, -, he⟩
  · exact ⟨s.inputs, .moves hm⟩
  · exact ⟨es, eventEnds_of_handleEvent he⟩

/-! ### Accesses -/

/-- An accepted write that the phase lets through while not Idle is one of CTRL or STATUS. -/
theorem access_of_not_idle {acc : Access} (hs : s.seq ≠ .idle) :
    access acc s = { s with
      ie := (access acc s).ie, abortReq := (access acc s).abortReq, done := (access acc s).done
      wbusy := (access acc s).wbusy, resp := (access acc s).resp, fresh := (access acc s).fresh } := by
  cases acc with
  | read a =>
    have hread : access (.read a) s = hostRead a s := rfl
    rcases hostRead_cases a s with ⟨r, h⟩ | ⟨-, h⟩ <;> rw [hread, h]
  | write a v strb =>
    have hwrite : access (.write a v strb) s = hostWrite a v strb s := rfl
    rcases hostWrite_cases a v strb s with ⟨r, h⟩ | ⟨-, h⟩ | ⟨t, -, -, -, hb, h⟩
    · rw [hwrite, h]
    · rw [hwrite, h]
    · rcases (writableWhileBusy_iff t).mp (hb.resolve_left (mt (busy_eq_false_iff s).mp hs)) with rfl | rfl
      · rw [hwrite, h]; rfl
      · rw [hwrite, h]; rfl

theorem cfg_bigHostWrite (r : BigReg) (v : Nat) (s : State) : (bigHostWrite r v s).cfg = s.cfg := by cases r <;> rfl

/-- A write can clear a valid bit, and sets none. -/
theorem valid_bigHostWrite (r : BigReg) (v : Nat) (s : State) :
    ((bigHostWrite r v s).keyValid = true → s.keyValid = true) ∧
    ((bigHostWrite r v s).pubValid = true → s.pubValid = true) ∧
    ((bigHostWrite r v s).privValid = true → s.privValid = true) := by
  cases r <;> simp [bigHostWrite]

theorem valid_writeTarget (v : Word) (s : State) (t : Target) :
    ((writeTarget v s t).keyValid = true → s.keyValid = true) ∧
    ((writeTarget v s t).pubValid = true → s.pubValid = true) ∧
    ((writeTarget v s t).privValid = true → s.privValid = true) := by
  cases t with
  | big r j => exact valid_bigHostWrite r _ s
  | _ => simp [writeTarget]

theorem cfg_access (acc : Access) (s : State) : (access acc s).cfg = s.cfg := by
  cases acc with
  | read a =>
    rcases hostRead_cases a s with ⟨r, h⟩ | ⟨-, h⟩ <;> rw [access, h]
  | write a v strb =>
    rcases hostWrite_cases a v strb s with ⟨r, h⟩ | ⟨-, h⟩ | ⟨t, -, -, -, -, h⟩
    · rw [access, h]
    · rw [access, h]
    · rw [access, h]
      cases t with
      | big r j => exact cfg_bigHostWrite r _ s
      | _ => rfl

theorem valid_access (acc : Access) (s : State) :
    ((access acc s).keyValid = true → s.keyValid = true) ∧
    ((access acc s).pubValid = true → s.pubValid = true) ∧
    ((access acc s).privValid = true → s.privValid = true) := by
  cases acc with
  | read a =>
    rcases hostRead_cases a s with ⟨r, h⟩ | ⟨-, h⟩ <;> rw [access, h] <;> exact ⟨id, id, id⟩
  | write a v strb =>
    rcases hostWrite_cases a v strb s with ⟨r, h⟩ | ⟨-, h⟩ | ⟨t, -, -, -, -, h⟩
    · rw [access, h]; exact ⟨id, id, id⟩
    · rw [access, h]; exact ⟨id, id, id⟩
    · rw [access, h]; exact valid_writeTarget v s t

/-! ### The parameters -/

theorem cfg_of_exec {i : Instr} (h : exec i s = .next t) : t.cfg = s.cfg := by
  obtain ⟨⟨-, -, -, -, -, -, -, -, hcfg⟩, -⟩ := keepsOthers_of_exec h
  exact hcfg

theorem cfg_of_runSequencer (h : runSequencer s = .next t) : t.cfg = s.cfg := by
  rcases runSequencer_cases h with ⟨-, rfl⟩ | ⟨-, -, rfl⟩ | ⟨-, -, e, -, rfl⟩ | ⟨-, -, i, -, hx⟩
  · rfl
  · rfl
  · rfl
  · exact cfg_of_exec hx

theorem cfg_of_eventEnds (h : EventEnds s t) : t.cfg = s.cfg := by
  cases h with
  | moves h => exact cfg_of_runSequencer h
  | accesses acc => exact cfg_access acc s
  | @accessesAndMoves acc u a _ h _ =>
    have hcfg : u.cfg = s.cfg := by rw [cfg_of_runSequencer h, cfg_access]
    exact hcfg
  | _ => rfl

/-! ### The valid bits -/

/-- The valid bits that are on in `t` and off in `s` are those that command `i` binds (10_state.md R45). -/
structure BindsOnly (i : Instr) (s t : State) : Prop where
  sym : s.keyValid = false → t.keyValid = true → (∃ m, i = .keybind m ∧ m.sym = true) ∨ i = .symkeygen
  pub : s.pubValid = false → t.pubValid = true → (∃ m, i = .keybind m ∧ m.pub = true) ∨ ∃ a b c, i = .rsakeygen a b c
  priv : s.privValid = false → t.privValid = true → (∃ m, i = .keybind m ∧ m.priv = true) ∨ ∃ a b c, i = .rsakeygen a b c

/-- No valid bit is on in `t` and off in `s`. -/
def BindsNothing (s t : State) : Prop :=
  (t.keyValid = true → s.keyValid = true) ∧ (t.pubValid = true → s.pubValid = true) ∧ (t.privValid = true → s.privValid = true)

theorem bindsOnly_of_writes {i : Instr} {u w : State} (h : Writes i u w) : BindsOnly i u w := by
  cases h with
  | bind m hpub hpriv => constructor <;> simp_all
  | _ => constructor <;> simp_all

theorem bindsOnly_or_bindsNothing {i : Instr} (h : exec i s = .next t) :
    (t.seq = .idle ∧ t.errcode = .ok ∧ BindsOnly i s t) ∨ BindsNothing s t := by
  rcases moveEnds_of_exec h with ⟨-, -⟩ | ⟨-, hu⟩ | ⟨hu, hw⟩
  · exact .inr ⟨id, id, id⟩
  · obtain ⟨g, n, rfl⟩ := eq_of_takesWords hu
    refine .inr ?_
    split <;> exact ⟨id, id, id⟩
  · obtain ⟨g, n, rfl⟩ := eq_of_takesWords hu
    obtain ⟨hsym, hpub, hpriv⟩ := bindsOnly_of_writes hw
    exact .inl ⟨rfl, rfl, hsym, hpub, hpriv⟩

/-- A move of the sequencer from `s` to `t` binds nothing, or is the finish with OK of a command that binds what it binds. -/
theorem binds_of_runSequencer (h : runSequencer s = .next t) :
    (s.seq = .busy ∧ t.seq = .idle ∧ t.errcode = .ok ∧ ∃ i, decode s.cmd = .ok i ∧ BindsOnly i s t) ∨ BindsNothing s t := by
  rcases runSequencer_cases h with ⟨-, rfl⟩ | ⟨-, -, rfl⟩ | ⟨-, -, e, -, rfl⟩ | ⟨-, hs, i, hi, hx⟩
  · exact .inr ⟨id, id, id⟩
  · exact .inr ⟨id, id, id⟩
  · exact .inr ⟨id, id, id⟩
  · exact (bindsOnly_or_bindsNothing hx).imp_left fun ⟨ht, he, hb⟩ => ⟨hs, ht, he, i, hi, hb⟩

theorem binds_of_eventEnds (h : EventEnds s t) :
    (s.seq = .busy ∧ t.seq = .idle ∧ t.errcode = .ok ∧ ∃ i, decode s.cmd = .ok i ∧ BindsOnly i s t) ∨ BindsNothing s t := by
  cases h with
  | moves h => exact binds_of_runSequencer h
  | accesses acc => exact .inr (valid_access acc s)
  | @accessesAndMoves acc u a hs h _ =>
    have hb := binds_of_runSequencer h
    rw [access_of_not_idle hs] at hb
    exact hb.imp (fun ⟨hs, ht, he, i, hi, hsym, hpub, hpriv⟩ => ⟨hs, ht, he, i, hi, hsym, hpub, hpriv⟩) id
  | asserts => exact .inr ⟨fun h => (Bool.false_ne_true h).elim, fun h => (Bool.false_ne_true h).elim,
      fun h => (Bool.false_ne_true h).elim⟩
  | _ => exact .inr ⟨id, id, id⟩

end Ends

/-! ### The obligations -/

/-- Settles O52: while not Idle an access reaches CTRL and STATUS at most. -/
theorem hostAccessWhileBusyKeepsTheCommand : Obligations.HostAccessWhileBusyKeepsTheCommand := by
  unfold Obligations.HostAccessWhileBusyKeepsTheCommand
  exact fun s acc hs => access_of_not_idle hs

/-- Settles O59: neither a move, an access nor an edge of reset changes the parameters. -/
theorem configurationIsFixed : Obligations.ConfigurationIsFixed := by
  unfold Obligations.ConfigurationIsFixed
  intro s t h
  obtain ⟨es, he⟩ := eventEnds_of_step h
  exact cfg_of_eventEnds (s := { s with inputs := es }) he

/-- Settles O57: no event but a finish with OK sets a valid bit, and of the writes of a command only those of KEYBIND, SYMKEYGEN
and RSAKEYGEN do. -/
theorem onlyBindingCommandsBindKeys : Obligations.OnlyBindingCommandsBindKeys := by
  unfold Obligations.OnlyBindingCommandsBindKeys
  intro s t h
  obtain ⟨es, he⟩ := eventEnds_of_step h
  rcases binds_of_eventEnds he with ⟨hs, ht, hok, i, hi, hsym, hpub, hpriv⟩ | ⟨hsym, hpub, hpriv⟩
  · exact ⟨fun h0 h1 => ⟨hs, ht, hok, i, hi, hsym h0 h1⟩, fun h0 h1 => ⟨hs, ht, hok, i, hi, hpub h0 h1⟩,
      fun h0 h1 => ⟨hs, ht, hok, i, hi, hpriv h0 h1⟩⟩
  · refine ⟨fun h0 h1 => ?_, fun h0 h1 => ?_, fun h0 h1 => ?_⟩
    · exact absurd (hsym h1) (ne_true_of_eq_false h0)
    · exact absurd (hpub h1) (ne_true_of_eq_false h0)
    · exact absurd (hpriv h1) (ne_true_of_eq_false h0)

end Sys2Proof.Proofs

/-! The invariant: its part on the data and its part on the sequencer, each kept by the writes of a command, by an access and by the
sequencer's move, and so by every step (10_state.md §3, §6, §7; 60_exceptions.md §3; 70_reset_and_hazards.md §1). -/

namespace Sys2Proof.Proofs

open Sys2Proof.Machine Sys2Proof.Laws

/-- The part of the invariant that speaks of parameters, registers, buffers and bound keys. -/
structure DataOk (s : State) : Prop where
  legal : s.cfg.Legal
  x : ∀ i : XReg, xRead s i < 2 ^ s.cfg.bigBits
  pubE : s.pubE < 2 ^ s.cfg.bigBits
  pubN : s.pubN < 2 ^ s.cfg.bigBits
  privD : s.privD < 2 ^ s.cfg.bigBits
  privN : s.privN < 2 ^ s.cfg.bigBits
  inWf : Memory.wf s.inBuf = true
  outWf : Memory.wf s.outBuf = true
  inWithin : Memory.within inBase (inBase + s.cfg.bufBytes) s.inBuf = true
  outWithin : Memory.within outBase (outBase + s.cfg.bufBytes) s.outBuf = true
  resByte : s.res.toNat < 256
  outLen : s.outLen.toNat ≤ s.cfg.bufBytes
  boundKey : s.keyValid = true → s.rk = keyExpansion s.key
  boundPub : s.pubValid = true → 2 ≤ s.pubN
  boundPriv : s.privValid = true → 2 ≤ s.privN

/-- The part of the invariant that speaks of the sequencer. -/
structure ControlOk (s : State) : Prop where
  abortOnlyBusy : s.abortReq = true → s.seq = .busy
  drawnOnlyBusy : s.drawn ≠ [] → s.seq = .busy
  busyClear : s.seq = .busy → s.done = false ∧ s.errcode = .ok
  initClear : s.seq = .init →
    s.keyValid = false ∧ s.pubValid = false ∧ s.privValid = false ∧ s.done = false ∧ s.errcode = .ok
  resetInit : s.rstn = false → s.seq = .init

theorem inv_iff (s : State) : Inv s ↔ DataOk s ∧ ControlOk s := by
  constructor
  · rintro ⟨hlegal, ⟨hx, hpubE, hpubN, hprivD, hprivN⟩, ⟨hinWf, houtWf, hin, hout⟩, hres, hlen, hkey, hpub, hpriv, ha, hd, hb, hi,
      hr⟩
    exact ⟨⟨hlegal, hx, hpubE, hpubN, hprivD, hprivN, hinWf, houtWf, hin, hout, hres, hlen, hkey, hpub, hpriv⟩,
      ⟨ha, hd, hb, hi, hr⟩⟩
  · rintro ⟨⟨hlegal, hx, hpubE, hpubN, hprivD, hprivN, hinWf, houtWf, hin, hout, hres, hlen, hkey, hpub, hpriv⟩,
      ⟨ha, hd, hb, hi, hr⟩⟩
    exact ⟨hlegal, ⟨hx, hpubE, hpubN, hprivD, hprivN⟩, ⟨hinWf, houtWf, hin, hout⟩, hres, hlen, hkey, hpub, hpriv, ha, hd, hb, hi,
      hr⟩

/-! ### The data -/

section Data

variable {s u w : State}

theorem dataOk_xWrite (h : DataOk s) {v : Nat} (hv : v < 2 ^ s.cfg.bigBits) (a : XReg) : DataOk (xWrite a v s) := by
  refine { h with x := fun i => ?_ }
  rw [xRead_xWrite]
  split
  · exact hv
  · exact h.x i

theorem dataOk_writeOut (h : DataOk s) {bs : List Byte} (hlen : bs.length ≤ s.cfg.bufBytes) : DataOk (writeOut bs s) :=
  { h with
    outWf := wf_memWriteBytes bs h.outWf outBase
    outWithin := within_memWriteBytes bs h.outWithin outBase le_rfl (by simpa using hlen)
    outLen := (Nat.mod_le _ _).trans hlen }

theorem dataOk_loseOut (h : DataOk s) : DataOk (loseOut s) :=
  { h with outWf := wf_freeOut _ _, outWithin := within_freeOut _ _, outLen := Nat.zero_le _ }

theorem dataOk_writeKeyPair (h : DataOk s) {e n d : Nat} (he : e < 2 ^ s.cfg.bigBits) (hn : n < 2 ^ s.cfg.bigBits)
    (hd : d < n) (h2 : 2 ≤ n) : DataOk (writeKeyPair e n d s) :=
  { h with
    pubE := he, pubN := hn, privD := hd.trans hn, privN := hn, boundPub := fun _ => h2, boundPriv := fun _ => h2 }

/-- The writes of a completing command keep the data part. -/
theorem dataOk_of_writes {i : Instr} (h : Writes i u w) (hu : DataOk u) : DataOk w := by
  cases h with
  | nothing => exact hu
  | res _ b =>
    refine { hu with resByte := ?_ }
    rw [writeRes_res, BitVec.toNat_setWidth]
    omega
  | state => exact { hu with }
  | bind _ m hpub hpriv =>
    refine { hu with boundKey := fun hk => ?_, boundPub := fun hp => ?_, boundPriv := fun hp => ?_ }
    · cases hsym : m.sym with
      | false => simpa [hsym] using hu.boundKey (by simpa [hsym] using hk)
      | true => simp
    · exact (Bool.or_eq_true_iff.mp hp).elim hu.boundPub hpub
    · exact (Bool.or_eq_true_iff.mp hp).elim hu.boundPriv hpriv
  | unbind _ m =>
    exact { hu with
      boundKey := fun hk => hu.boundKey (Bool.and_eq_true_iff.mp hk).1
      boundPub := fun hp => hu.boundPub (Bool.and_eq_true_iff.mp hp).1
      boundPriv := fun hp => hu.boundPriv (Bool.and_eq_true_iff.mp hp).1 }
  | newKey => exact { hu with boundKey := fun _ => rfl }
  | out _ bs _ hlen => exact dataOk_writeOut hu hlen
  | outIv _ _ bs _ hlen => exact { dataOk_writeOut hu hlen with }
  | reduced _ a m v hv => exact dataOk_xWrite hu (hv.trans (hu.x m)) a
  | candidate _ a v hv => exact dataOk_xWrite hu hv a
  | product _ a _ _ v _ hv => exact { dataOk_xWrite hu hv a with }
  | prime => exact { hu with }
  | keyPair _ a b c p q d hp hq hn hd =>
    have hpq : 2 * 2 ≤ p * q := Nat.mul_le_mul hp hq
    have hpn : p ≤ p * q := Nat.le_mul_of_pos_right p (by omega)
    have hqn : q ≤ p * q := Nat.le_mul_of_pos_left q (by omega)
    exact dataOk_xWrite (dataOk_xWrite (dataOk_writeKeyPair hu (hu.x c) hn hd (by omega)) (hpn.trans_lt hn) a)
      (hqn.trans_lt hn) b

theorem dataOk_of_takesWords {i : Instr} (h : TakesWords i s u) (hs : DataOk s) : DataOk u := by
  obtain ⟨g, n, rfl⟩ := eq_of_takesWords h
  exact { hs with }

/-- A word replaced in a register leaves the register in range: the slot's words lie below BIG_BITS. -/
theorem setBigWord_lt_of_inRange {c : Config} (hc : c.Legal) {v j : Nat} (hv : v < 2 ^ c.bigBits) (hj : 4 * j < c.bigBits / 8)
    (d : Word) : setBigWord v j d < 2 ^ c.bigBits := by
  obtain ⟨-, ⟨hmod, -, -⟩, -⟩ := hc
  exact setBigWord_lt hv (by omega) d

theorem bigRead_lt (h : DataOk s) (r : BigReg) : bigRead s r < 2 ^ s.cfg.bigBits := by
  cases r with
  | x i => exact h.x i
  | pubE => exact h.pubE
  | pubN => exact h.pubN
  | privD => exact h.privD
  | privN => exact h.privN

theorem dataOk_bigHostWrite (h : DataOk s) {v : Nat} (hv : v < 2 ^ s.cfg.bigBits) (r : BigReg) :
    DataOk (bigHostWrite r v s) := by
  cases r with
  | x i => exact dataOk_xWrite h hv i
  | pubE => exact { h with pubE := hv, boundPub := fun hp => (Bool.false_ne_true hp).elim }
  | pubN => exact { h with pubN := hv, boundPub := fun hp => (Bool.false_ne_true hp).elim }
  | privD => exact { h with privD := hv, boundPriv := fun hp => (Bool.false_ne_true hp).elim }
  | privN => exact { h with privN := hv, boundPriv := fun hp => (Bool.false_ne_true hp).elim }

/-- A host write of an aligned word keeps the data part. -/
theorem dataOk_writeTarget (h : DataOk s) {a : Nat} {t : Target} (ht : targetAt s.cfg a = some t) (ha : a % 4 = 0) (v : Word) :
    DataOk (writeTarget v s t) := by
  have hrange := targetAt_inRange ht
  cases t with
  | key j => exact { h with boundKey := fun hk => (Bool.false_ne_true hk).elim }
  | inBuf b =>
    obtain rfl := targetAt_inBuf ht
    obtain ⟨⟨hmod, -, -⟩, -⟩ := h.legal
    obtain ⟨hlo, hhi⟩ := hrange
    have hfits : b + 4 ≤ inBase + s.cfg.bufBytes := by unfold inBase at *; omega
    exact { h with inWf := wf_memWriteWord h.inWf b v, inWithin := within_memWriteWord h.inWithin hlo hfits v }
  | big r j => exact dataOk_bigHostWrite h (setBigWord_lt_of_inRange h.legal (bigRead_lt h r) hrange v) r
  | _ => simp only [writeTarget]; exact { h with }

end Data

/-! ### The sequencer -/

section Control

variable {s t u : State}

theorem controlOk_finish (c : ErrCode) (hr : u.rstn = true) : ControlOk (finish c u) where
  abortOnlyBusy := by simp
  drawnOnlyBusy := by simp
  busyClear := by simp
  initClear := by simp
  resetInit := by simp [hr]

theorem inv_finish (c : ErrCode) (hu : DataOk u) (hr : u.rstn = true) : Inv (finish c u) :=
  (inv_iff _).mpr ⟨{ hu with }, controlOk_finish c hr⟩

/-- What a command changes while it stays Busy keeps the sequencer's part. -/
theorem inv_draws {d g : List Word} {n : Nat} (hs : Inv s) (hb : s.seq = .busy) :
    Inv { s with drawn := d, rng := g, rngPos := n } := by
  obtain ⟨hdata, hcontrol⟩ := (inv_iff s).mp hs
  exact (inv_iff _).mpr ⟨{ hdata with }, { hcontrol with drawnOnlyBusy := fun _ => hb }⟩

theorem rstn_of_writes {i : Instr} {w : State} (h : Writes i u w) : w.rstn = u.rstn := by cases h <;> rfl

theorem rstn_of_takesWords {i : Instr} (h : TakesWords i s u) : u.rstn = s.rstn := by
  obtain ⟨g, n, rfl⟩ := eq_of_takesWords h
  rfl

/-- A move of a running command keeps the invariant. -/
theorem inv_of_exec {i : Instr} (hs : Inv s) (hr : s.rstn = true) (hb : s.seq = .busy) (h : exec i s = .next t) : Inv t := by
  obtain ⟨hdata, -⟩ := (inv_iff s).mp hs
  rcases moveEnds_of_exec h with ⟨-, -⟩ | ⟨-, hu⟩ | ⟨hu, hw⟩
  · exact inv_draws hs hb
  · have hu' := dataOk_of_takesWords hu hdata
    have hr' := (rstn_of_takesWords hu).trans hr
    split
    · exact inv_finish _ (dataOk_loseOut hu') hr'
    · exact inv_finish _ hu' hr'
  · exact inv_finish _ (dataOk_of_writes hw (dataOk_of_takesWords hu hdata))
      ((rstn_of_writes hw).trans ((rstn_of_takesWords hu).trans hr))

/-- Cleared windows with nothing bound: what Init leaves (70_reset_and_hazards.md R301). -/
theorem inv_endInit (hs : Inv s) (hi : s.seq = .init) (hr : s.rstn = true) : Inv (endInit s) := by
  obtain ⟨hdata, hcontrol⟩ := (inv_iff s).mp hs
  obtain ⟨hkey, hpub, hpriv, -, -⟩ := hcontrol.initClear hi
  have hpos : 0 < 2 ^ s.cfg.bigBits := Nat.two_pow_pos _
  have ha : s.abortReq = false := by
    by_contra ha
    exact absurd (hcontrol.abortOnlyBusy (by simpa using ha)) (by simp [hi])
  have hd : s.drawn = [] := by
    by_contra hd
    exact absurd (hcontrol.drawnOnlyBusy hd) (by simp [hi])
  refine (inv_iff _).mpr ⟨{ hdata with
      x := fun i => by simp [xRead], pubE := hpos, pubN := hpos, privD := hpos, privN := hpos, inWf := rfl, outWf := rfl
      inWithin := rfl, outWithin := rfl, boundKey := by simp [hkey], boundPub := by simp [hpub]
      boundPriv := by simp [hpriv] }, ?_⟩
  constructor <;> simp [ha, hd, hr]

theorem inv_of_runSequencer (hs : Inv s) (h : runSequencer s = .next t) : Inv t := by
  rcases runSequencer_cases h with ⟨-, rfl⟩ | ⟨hr, hi, rfl⟩ | ⟨hr, -, e, -, rfl⟩ | ⟨hr, hb, i, -, hx⟩
  · exact hs
  · exact inv_endInit hs hi hr
  · exact inv_finish _ ((inv_iff s).mp hs).1 hr
  · exact inv_of_exec hs hr hb hx

/-- A host write that the phase accepts keeps the sequencer's part: only a CMD write starts a command, and only while Idle. -/
theorem controlOk_writeTarget (h : ControlOk s) (hr : s.rstn = true) {t : Target}
    (hb : s.seq = .idle ∨ writableWhileBusy t = true) (v : Word) : ControlOk (writeTarget v s t) := by
  cases t with
  | ctrl =>
    refine { h with abortOnlyBusy := fun ha => ?_ }
    rcases Bool.or_eq_true_iff.mp ha with ha | ha
    · exact h.abortOnlyBusy ha
    · exact beq_iff_eq.mp (Bool.and_eq_true_iff.mp ha).2
  | status =>
    refine { h with busyClear := fun hs => ?_, initClear := fun hs => ?_ }
    · obtain ⟨hd, he⟩ := h.busyClear hs
      exact ⟨by simp [writeTarget, hd], he⟩
    · obtain ⟨hk, hp, hq, hd, he⟩ := h.initClear hs
      exact ⟨hk, hp, hq, by simp [writeTarget, hd], he⟩
  | cmd => constructor <;> simp [writeTarget, hr]
  | key j =>
    refine { h with initClear := fun hs => ?_ }
    obtain ⟨-, hp, hq, hd, he⟩ := h.initClear hs
    exact ⟨rfl, hp, hq, hd, he⟩
  | big r j =>
    have hs : s.seq = .idle := hb.resolve_right (by simp [writableWhileBusy])
    cases r <;> exact { h with initClear := fun hi => by simp [writeTarget, bigHostWrite, hs] at hi }
  | _ => simp only [writeTarget]; exact { h with }

/-- The response and the counter of free values are in no part of the invariant. -/
theorem inv_setResp (hs : Inv s) (r : BusResponse) (n : Nat) : Inv { s with resp := r, fresh := n } := by
  obtain ⟨hdata, hcontrol⟩ := (inv_iff s).mp hs
  exact (inv_iff _).mpr ⟨{ hdata with }, { hcontrol with }⟩

theorem inv_access (hs : Inv s) (acc : Access) : Inv (access acc s) := by
  obtain ⟨hdata, hcontrol⟩ := (inv_iff s).mp hs
  cases acc with
  | read a =>
    rcases hostRead_cases a s with ⟨r, h⟩ | ⟨-, h⟩ <;> rw [access, h] <;> exact inv_setResp hs _ _
  | write a v strb =>
    rcases hostWrite_cases a v strb s with ⟨r, h⟩ | ⟨-, h⟩ | ⟨t, ht, ha, hr, hb, h⟩
    · rw [access, h]
      exact inv_setResp hs _ _
    · rw [access, h]
      exact (inv_iff _).mpr ⟨{ hdata with }, { hcontrol with }⟩
    · rw [access, h]
      rw [busy_eq_false_iff] at hb
      exact inv_setResp ((inv_iff _).mpr ⟨dataOk_writeTarget hdata ht ha v, controlOk_writeTarget hcontrol hr hb v⟩) _ _

/-- Reset registers, with nothing bound. -/
theorem dataOk_resetWith {c : Config} (hc : c.Legal) : DataOk (State.resetWith c) where
  legal := hc
  x := fun i => by simp [xRead, State.resetWith]
  pubE := Nat.two_pow_pos _
  pubN := Nat.two_pow_pos _
  privD := Nat.two_pow_pos _
  privN := Nat.two_pow_pos _
  inWf := rfl
  outWf := rfl
  inWithin := rfl
  outWithin := rfl
  resByte := by simp [State.resetWith]
  outLen := Nat.zero_le _
  boundKey := by simp [State.resetWith]
  boundPub := by simp [State.resetWith]
  boundPriv := by simp [State.resetWith]

theorem inv_assertReset (hs : Inv s) : Inv (assertReset s) :=
  (inv_iff _).mpr ⟨{ dataOk_resetWith hs.legal with }, by constructor <;> simp [assertReset, State.resetWith]⟩

theorem inv_releaseReset (hs : Inv s) : Inv (releaseReset s) := by
  obtain ⟨hdata, hcontrol⟩ := (inv_iff s).mp hs
  exact (inv_iff _).mpr ⟨{ hdata with }, { hcontrol with resetInit := by simp }⟩

/-- The abort request may be set, or put back, while the core is Busy; elsewhere it is clear before and after. -/
theorem inv_setAbort (hs : Inv s) {a : Bool} (ha : a = true → s.seq = .busy) : Inv { s with abortReq := a } := by
  obtain ⟨hdata, hcontrol⟩ := (inv_iff s).mp hs
  exact (inv_iff _).mpr ⟨{ hdata with }, { hcontrol with abortOnlyBusy := ha }⟩

theorem inv_setInputs (hs : Inv s) (es : List Event) : Inv { s with inputs := es } := by
  obtain ⟨hdata, hcontrol⟩ := (inv_iff s).mp hs
  exact (inv_iff _).mpr ⟨{ hdata with }, { hcontrol with }⟩

theorem seq_access_of_not_idle {acc : Access} (hs : s.seq ≠ .idle) : (access acc s).seq = s.seq := by
  rw [access_of_not_idle hs]

/-- A running command stays Busy or leaves the core Idle. -/
theorem seq_of_exec {i : Instr} (hb : s.seq = .busy) (h : exec i s = .next t) : t.seq = .busy ∨ t.seq = .idle := by
  rcases moveEnds_of_exec h with ⟨-, -⟩ | ⟨-, -⟩ | ⟨-, -⟩
  · exact .inl hb
  · exact .inr rfl
  · exact .inr rfl

theorem seq_of_runSequencer (hb : s.seq = .busy) (h : runSequencer s = .next t) : t.seq = .busy ∨ t.seq = .idle := by
  rcases runSequencer_cases h with ⟨-, rfl⟩ | ⟨-, hi, rfl⟩ | ⟨-, -, e, -, rfl⟩ | ⟨-, -, i, -, hx⟩
  · exact .inl hb
  · exact .inr rfl
  · exact .inr rfl
  · exact seq_of_exec hb hx

theorem inv_of_eventEnds (hs : Inv s) (h : EventEnds s t) : Inv t := by
  cases h with
  | moves h => exact inv_of_runSequencer hs h
  | accesses acc => exact inv_access hs acc
  | @accessesAndMoves acc u a hne h ha =>
    have hacc : Inv (access acc s) := inv_access hs acc
    have hstart : Inv { access acc s with abortReq := s.abortReq } :=
      inv_setAbort hacc fun hreq => (seq_access_of_not_idle hne).trans (hs.abortOnlyBusy hreq)
    have hu : Inv u := inv_of_runSequencer hstart h
    refine inv_setAbort hu fun hreq => ?_
    rcases ha with ⟨-, rfl⟩ | ⟨hbusy, rfl⟩
    · exact hu.abortOnlyBusy hreq
    · exact (seq_of_runSequencer (s := { access acc s with abortReq := s.abortReq }) (hacc.abortOnlyBusy hreq) h).resolve_right
        hbusy
  | offers w =>
    obtain ⟨hdata, hcontrol⟩ := (inv_iff s).mp hs
    exact (inv_iff _).mpr ⟨{ hdata with }, { hcontrol with }⟩
  | takes hb => exact inv_draws hs hb
  | asserts => exact inv_assertReset hs
  | releases => exact inv_releaseReset hs
  | keeps => exact hs

end Control

/-! ### The obligations -/

/-- Settles O56: each way a step can end keeps both parts of the invariant. -/
theorem stepKeepsTheInvariant : Obligations.StepKeepsTheInvariant := by
  unfold Obligations.StepKeepsTheInvariant
  intro s t hs h
  obtain ⟨es, he⟩ := eventEnds_of_step h
  exact inv_of_eventEnds (inv_setInputs hs es) he

/-- The default parameters are legal, whatever the digest: its length is a byte (00_scope.md R7, R8). -/
theorem legal_default : Config.default.Legal := by
  have hdigest : Config.default.digest.length ≤ 255 := by
    have hbyte := Config.openDigestSize.isLt
    simp only [Config.default, List.length_map, List.length_range]
    omega
  exact ⟨by decide, by decide, by decide, hdigest⟩

/-- Settles O55: the reset registers hold nothing, and the core is in Init. -/
theorem resetHasTheInvariant : Obligations.ResetHasTheInvariant := by
  unfold Obligations.ResetHasTheInvariant
  exact (inv_iff _).mpr ⟨dataOk_resetWith legal_default, by constructor <;> simp [State.reset, State.resetWith]⟩

end Sys2Proof.Proofs

/-! The laws of the field product (40_gf256.md R132). The product is additive in both factors, so that a law holds of all bytes when
it holds of the bytes of one bit. -/

namespace Sys2Proof.Proofs

open Sys2Proof.Machine Sys2Proof.Laws

/-! ### Additivity -/

theorem gmul_zero_right (a : Byte) : gmul a 0 = 0 := by simpa using gmul_xor a 0 0

theorem xtime_xor (x y : Byte) : xtime (x ^^^ y) = xtime x ^^^ xtime y := by
  have hshift : (x ^^^ y) <<< 1 = x <<< 1 ^^^ y <<< 1 := BitVec.shiftLeft_xor_distrib x y 1
  have hfeedback : ∀ b c : Bool, (if (b ^^ c) = true then (0x1B : Byte) else 0x00) =
      (if b = true then 0x1B else 0x00) ^^^ (if c = true then 0x1B else 0x00) := by decide
  unfold xtime
  rw [hshift, BitVec.getLsbD_xor, hfeedback]
  ac_rfl

theorem gmulLoop_xor_left (n : Nat) : ∀ x y b p q : Byte,
    gmulLoop n (x ^^^ y) b (p ^^^ q) = gmulLoop n x b p ^^^ gmulLoop n y b q := by
  induction n with
  | zero => intro x y b p q; rfl
  | succ n ih =>
    intro x y b p q
    have hacc : (if b.getLsbD 0 then p ^^^ q ^^^ (x ^^^ y) else p ^^^ q) =
        (if b.getLsbD 0 then p ^^^ x else p) ^^^ (if b.getLsbD 0 then q ^^^ y else q) := by
      split
      · ac_rfl
      · rfl
    simp only [gmulLoop]
    rw [hacc, xtime_xor, ih]

theorem xor_gmul (x y b : Byte) : gmul (x ^^^ y) b = gmul x b ^^^ gmul y b := gmulLoop_xor_left 8 x y b 0 0

theorem gmul_zero_left (b : Byte) : gmul 0 b = 0 := by simpa using xor_gmul 0 0 b

/-! ### Bytes as sums of bits -/

/-- A byte is the sum of its bits. -/
theorem byte_eq_sum_bits : ∀ a : Byte,
    a = (List.finRange 8).foldl (fun p i => if a.getLsbD i.val then p ^^^ (1#8 <<< i.val) else p) 0 := by decide +kernel

/-- What holds of 0 and of the bytes of one bit, and of sums, holds of every byte. -/
theorem byte_induction {P : Byte → Prop} (zero : P 0) (bit : ∀ i : Fin 8, P (1#8 <<< i.val))
    (xor : ∀ x y, P x → P y → P (x ^^^ y)) (a : Byte) : P a := by
  have hfold : ∀ (is : List (Fin 8)) (p : Byte), P p →
      P (is.foldl (fun p i => if a.getLsbD i.val then p ^^^ (1#8 <<< i.val) else p) p) := by
    intro is
    induction is with
    | nil => exact fun p hp => hp
    | cons i is ih =>
      intro p hp
      rw [List.foldl_cons]
      refine ih _ ?_
      split
      · exact xor _ _ hp (bit i)
      · exact hp
  rw [byte_eq_sum_bits a]
  exact hfold _ _ zero

/-! ### The laws -/

theorem gmul_comm (a b : Byte) : gmul a b = gmul b a := by
  induction a using byte_induction with
  | zero => rw [gmul_zero_left, gmul_zero_right]
  | xor x y hx hy => rw [xor_gmul, gmul_xor, hx, hy]
  | bit i =>
    induction b using byte_induction with
    | zero => rw [gmul_zero_left, gmul_zero_right]
    | xor x y hx hy => rw [xor_gmul, gmul_xor, hx, hy]
    | bit j => revert i j; decide +kernel

theorem gmul_assoc (a b c : Byte) : gmul a (gmul b c) = gmul (gmul a b) c := by
  induction a using byte_induction with
  | zero => simp only [gmul_zero_left]
  | xor x y hx hy => simp only [xor_gmul, hx, hy]
  | bit i =>
    induction b using byte_induction with
    | zero => simp only [gmul_zero_left, gmul_zero_right]
    | xor x y hx hy => simp only [xor_gmul, gmul_xor, hx, hy]
    | bit j =>
      induction c using byte_induction with
      | zero => simp only [gmul_zero_right]
      | xor x y hx hy => simp only [gmul_xor, hx, hy]
      | bit k => revert i j k; decide +kernel

/-- The products by the constants 0 to 3 (40_gf256.md R132). -/
theorem gmul_constants : ∀ a : Byte, gmul 0 a = 0 ∧ gmul 1 a = a ∧ gmul 2 a = xtime a ∧ gmul 3 a = xtime a ^^^ a := by
  decide +kernel

/-- Every byte but 0 has an inverse: the one that its S-box entry is made of (41_block_transform.md R142). -/
theorem exists_gmul_eq_one {a : Byte} (ha : a ≠ 0) : ∃ b, gmul a b = 1 := by
  rcases isFieldInverse_inverseAffine_sboxAt a with ⟨h0, -⟩ | ⟨-, h1⟩
  · exact absurd h0 ha
  · exact ⟨_, (gmul_eq_fieldProduct _ _).trans h1⟩

/-- Two inverses of one byte are equal. -/
theorem inverse_unique {a b c : Byte} (hb : gmul a b = 1) (hc : gmul a c = 1) : c = b :=
  have one_mul (x : Byte) : gmul 1 x = x := (gmul_constants x).2.1
  calc c = gmul (gmul a b) c := by rw [hb, one_mul]
    _ = gmul b (gmul a c) := by rw [gmul_comm a b, gmul_assoc]
    _ = b := by rw [hc, gmul_comm, one_mul]

/-- Settles O10: commutativity and associativity hold by additivity, and the inverse is that of the S-box. -/
theorem fieldLaws : Obligations.FieldLaws := by
  unfold Obligations.FieldLaws
  refine ⟨gmul_comm, gmul_assoc, gmul_xor, gmul_constants, fun a ha => ?_⟩
  obtain ⟨b, hb⟩ := exists_gmul_eq_one ha
  exact ⟨b, hb, fun c hc => inverse_unique hb hc⟩

end Sys2Proof.Proofs

/-! The block cipher and its inverse undo each other (43_block_cipher.md R184), and CBC with PKCS#7 padding: the results of CBCENC and
CBCDEC, their errors in check order, and the round trip (44_cbc.md R190 to R197). -/

namespace Sys2Proof.Proofs

open Sys2Proof.Machine Sys2Proof.Laws

/-! ### The cipher and its inverse -/

/-- Steps undone one by one in the mirrored order leave nothing done. -/
theorem foldl_reverse_foldl {α β : Type} {f g : β → α → β} (h : ∀ b a, g (f b a) a = b) (as : List α) :
    ∀ b, as.reverse.foldl g (as.foldl f b) = b := by
  induction as with
  | nil => intro b; rfl
  | cons a as ih =>
    intro b
    simp only [List.reverse_cons, List.foldl_append, List.foldl_cons, List.foldl_nil, ih, h]

/-- The middle rounds in the mirrored order. -/
theorem middle_rounds_reverse :
    ([9, 8, 7, 6, 5, 4, 3, 2, 1] : List RoundIdx) = ([1, 2, 3, 4, 5, 6, 7, 8, 9] : List RoundIdx).reverse := rfl

theorem invCipher_cipher (rk : RoundKeys) (b : Block) : invCipher rk (cipher rk b) = b := by
  simp only [invCipher, cipher, addRoundKey_addRoundKey, invShiftRows_shiftRows, invSubBytes_subBytes]
  rw [middle_rounds_reverse, foldl_reverse_foldl (invCipherRound_cipherRound rk), addRoundKey_addRoundKey]

theorem cipher_invCipher (rk : RoundKeys) (b : Block) : cipher rk (invCipher rk b) = b := by
  have hrounds := foldl_reverse_foldl (cipherRound_invCipherRound rk) ([9, 8, 7, 6, 5, 4, 3, 2, 1] : List RoundIdx)
  simp only [middle_rounds_reverse, List.reverse_reverse] at hrounds
  simp only [invCipher, cipher, addRoundKey_addRoundKey, middle_rounds_reverse, hrounds, shiftRows_invShiftRows,
    subBytes_invSubBytes]

theorem appliesToState_aesenc : AppliesToState [.aesenc] cipher := appliesToState_singleton fun _ => exec_aesenc_of_keyValid

theorem appliesToState_aesdec : AppliesToState [.aesdec] invCipher := appliesToState_singleton fun _ => exec_aesdec_of_keyValid

/-- Settles O19: each of the two commands undoes the other's rounds in the mirrored order. -/
theorem blockCipherInverseLaw : Obligations.BlockCipherInverseLaw := by
  unfold Obligations.BlockCipherInverseLaw
  refine fun s hs => ⟨?_, ?_⟩
  · have h := appliesToState_aesenc.append appliesToState_aesdec s hs
    simp only [invCipher_cipher] at h
    exact h
  · have h := appliesToState_aesdec.append appliesToState_aesenc s hs
    simp only [cipher_invCipher] at h
    exact h

/-! ### CBCDEC, check by check -/

section Cbcdec

variable {s : State}

theorem exec_cbcdec_of_not_keyValid (hvalid : s.keyValid = false) : exec .cbcdec s = raiseBufErr .missingKey s :=
  if_pos (by simp [hvalid])

variable (hvalid : s.keyValid = true)
include hvalid

theorem exec_cbcdec_of_input_too_long (hin : s.cfg.bufBytes < s.inLen.toNat) : exec .cbcdec s = raiseBufErr .bufferOverflow s :=
  (if_neg (by simp [hvalid])).trans (if_pos hin)

variable (hin : s.inLen.toNat ≤ s.cfg.bufBytes)
include hin

theorem exec_cbcdec_of_bad_length (hlen : s.inLen.toNat < 32 ∨ s.inLen.toNat % 16 ≠ 0) :
    exec .cbcdec s = raiseBufErr .invalidCiphertextLength s :=
  (if_neg (by simp [hvalid])).trans ((if_neg (not_lt.mpr hin)).trans (if_pos hlen))

/-- After the checks the last recovered byte decides (44_cbc.md R194). -/
theorem exec_cbcdec_of_length (h32 : 32 ≤ s.inLen.toNat) (hmod : s.inLen.toNat % 16 = 0) {pt : List Byte} {p : Nat}
    (hpt : cbcDecrypt s.rk (inBytes s s.inLen.toNat) = pt) (hp : (pt.getD (s.inLen.toNat - 17) 0).toNat = p) :
    exec .cbcdec s = if p = 0 ∨ 16 < p then raiseBufErr .invalidPadding s
      else complete (writeOut (pt.take (s.inLen.toNat - 16 - p)) s) := by
  subst hp hpt
  exact (if_neg (by simp [hvalid])).trans ((if_neg (not_lt.mpr hin)).trans (if_neg (not_or.mpr ⟨not_lt.mpr h32, not_not.mpr hmod⟩)))

end Cbcdec

/-! ### The bytes of OUT -/

/-- CBCENC's commit as claims say it, `bs` being the bytes it writes. -/
theorem cbcencCommit_eq {s : State} {iv : Block} {bs : List Byte}
    (hbs : cbcEncrypt s.rk (pad (inBytes s (inLenNat s))) iv = bs) :
    cbcencCommit iv s = .next (ended .ok { s with
      outBuf := memWriteBytes s.outBuf outBase bs, outLen := BitVec.ofNat 32 bs.length, iv := iv }) := by
  subst hbs
  rfl

/-- Block k of the padded message. -/
theorem getElem_blocksOf_pad {s : State} {k : Nat} (hk : k < (s.inLen.toNat + (16 - s.inLen.toNat % 16)) / 16) (n : Nat)
    (h : k < (blocksOf (pad (inBytes s (inLenNat s))) n).length) :
    (blocksOf (pad (inBytes s (inLenNat s))) n)[k] = Vector.ofFn fun i : Fin 16 => cbcPaddedByte s (16 * k + i.val) := by
  apply Vector.ext
  intro i hi
  simp only [blocksOf, List.getElem_map, List.getElem_range]
  rw [getElem_blockAt _ _ _ hi, Vector.getElem_ofFn]
  exact getD_pad_inBytes s _ (by omega)

theorem length_cbcEncrypt_inBytes (s : State) (iv : Block) :
    (cbcEncrypt s.rk (pad (inBytes s (inLenNat s))) iv).length = 16 + (s.inLen.toNat + (16 - s.inLen.toNat % 16)) := by
  rw [length_cbcEncrypt_pad, length_inBytes, cbcOutLen, padLen, inLenNat, Nat.add_assoc]

/-- The output of CBC encryption written to OUT is what the claim says: the IV, the chained blocks, their length, and the other
bytes as before. -/
theorem cbcEncrypted_of_written {s t : State} {iv : Block} {bs : List Byte} (hlegal : s.cfg.Legal)
    (hwf : Memory.wf s.outBuf = true) (hout : 16 + s.inLen.toNat + (16 - s.inLen.toNat % 16) ≤ s.cfg.bufBytes)
    (hbs : cbcEncrypt s.rk (pad (inBytes s (inLenNat s))) iv = bs) (hbuf : t.outBuf = memWriteBytes s.outBuf outBase bs)
    (hlen : t.outLen = BitVec.ofNat 32 bs.length) : CbcEncrypted s t iv := by
  subst hbs
  obtain ⟨⟨-, -, hmax⟩, -⟩ := hlegal
  have hpad : (pad (inBytes s (inLenNat s))).length = s.inLen.toNat + (16 - s.inLen.toNat % 16) := by
    rw [length_pad, length_inBytes, padLen, inLenNat]
  have hblock := outBlock_bytesOfBlocks hwf _ t hbuf
  refine ⟨?_, fun a ha => ?_, hblock 0 (Nat.succ_pos _), fun k hk => ?_⟩
  · rw [hlen, length_cbcEncrypt_inBytes, BitVec.toNat_ofNat, Nat.mod_eq_of_lt (by omega)]
  · rw [hbuf, memRead_memWriteBytes _ hwf, length_cbcEncrypt_inBytes, if_neg (by unfold outBase; omega)]
  · have hk' : k < (blocksOf (pad (inBytes s (inLenNat s))) ((pad (inBytes s (inLenNat s))).length / 16)).length := by
      rwa [length_blocksOf, hpad]
    rw [hblock (k + 1) (by simpa using hk'), cbcEncryptBlocks_getElem _ _ _ _ hk', ← hblock k (by simp at hk' ⊢; omega),
      getElem_blocksOf_pad hk]
    congr 1
    apply Vector.ext
    intro i hi
    simp [blockXor]

/-! ### The obligations -/

/-- Four words at the head of the port are what four draws take. -/
theorem withDraws_four_words {onAbort : State → Host.Outcome State Fault Refusal}
    {k : List Word → State → Host.Outcome State Fault Refusal} {s : State} {w0 w1 w2 w3 : Word} {rest : List Word}
    (hdrawn : s.drawn = []) (habort : s.abortReq = false) (hrng : s.rng = w0 :: w1 :: w2 :: w3 :: rest) :
    withDraws (drawWords 4) onAbort k s = k [w0, w1, w2, w3] { s with rng := rest, rngPos := s.rngPos + 4 } := by
  have htake : drawWords 4 (s.drawn ++ s.rng) = some ([w0, w1, w2, w3], rest) := by
    rw [hdrawn, hrng]
    exact drawWords_append (vs := [w0, w1, w2, w3]) rfl
  have hcount : s.rng.length - rest.length = 4 := by simp only [hrng, List.length_cons]; omega
  rw [withDraws_of_enough habort htake, takeAllBut, hcount]

/-- Settles O20: both IV sources end in the same commit, from the IV register or from the block of the four words taken. -/
theorem cbcEncryptResult : Obligations.CbcEncryptResult := by
  unfold Obligations.CbcEncryptResult
  refine fun s hlegal hwf hvalid hout => ⟨?_, ?_⟩
  · obtain ⟨bs, hbs⟩ : ∃ bs, cbcEncrypt s.rk (pad (inBytes s (inLenNat s))) s.iv = bs := ⟨_, rfl⟩
    exact ⟨_, (exec_cbcenc_ivreg_of_fits hvalid hout).trans (cbcencCommit_eq hbs), rfl,
      cbcEncrypted_of_written hlegal hwf hout hbs rfl rfl⟩
  · intro w0 w1 w2 w3 rest hdrawn habort hrng
    obtain ⟨bs, hbs⟩ : ∃ bs, cbcEncrypt s.rk (pad (inBytes s (inLenNat s))) (drawnBlock w0 w1 w2 w3) = bs := ⟨_, rfl⟩
    have hexec := exec_cbcenc_rng_of_fits hvalid hout
    rw [withDraws_four_words hdrawn habort hrng, blockOfWords_eq_drawnBlock] at hexec
    exact ⟨_, hexec.trans (cbcencCommit_eq (s := { s with rng := rest, rngPos := s.rngPos + 4 }) hbs), rfl, cbcEncrypted_of_written hlegal hwf hout hbs rfl rfl⟩

/-- Settles O21: the recovered bytes are CBC decryption's, and the last of them says how many go to OUT. -/
theorem cbcDecryptResult : Obligations.CbcDecryptResult := by
  unfold Obligations.CbcDecryptResult
  intro s hlegal hwf hvalid hin h32 hmod
  have hbyte : ∀ i, i + 16 < s.inLen.toNat →
      (cbcDecrypt s.rk (inBytes s s.inLen.toNat)).getD i 0 = cbcPlainByte s i := fun i hi => getD_cbcDecrypt s _ i hmod hi
  have hlen : (cbcDecrypt s.rk (inBytes s s.inLen.toNat)).length = s.inLen.toNat - 16 := by
    rw [length_cbcDecrypt _ _ (by rwa [length_inBytes]), length_inBytes]
  have hexec := exec_cbcdec_of_length hvalid hin h32 hmod rfl rfl
  rw [hbyte _ (by omega)] at hexec
  refine ⟨fun hgood => ?_, fun hbad => ?_⟩
  · rw [if_neg (by omega)] at hexec
    refine exists_outWritten hexec hlegal hwf (by rw [List.length_take, hlen]; omega) (by omega) fun j hj => ?_
    rw [← hbyte j (by omega), List.getD_eq_getElem?_getD, List.getElem?_take_of_lt hj, ← List.getD_eq_getElem?_getD]
  · rw [if_pos hbad] at hexec
    exact exists_bufferErrorFrom hexec

/-- Settles O22: the checks of the two commands, in their order. -/
theorem cbcErrors : Obligations.CbcErrors := by
  unfold Obligations.CbcErrors
  refine fun s => ⟨fun hvalid => ⟨fun src => exists_bufferErrorFrom (exec_cbcenc_of_not_keyValid src hvalid),
      exists_bufferErrorFrom (exec_cbcdec_of_not_keyValid hvalid)⟩,
    fun hvalid hout src => exists_bufferErrorFrom (exec_cbcenc_of_output_too_long src hvalid hout),
    fun hvalid hin => exists_bufferErrorFrom (exec_cbcdec_of_input_too_long hvalid hin),
    fun hvalid hin hlen => exists_bufferErrorFrom (exec_cbcdec_of_bad_length hvalid hin hlen)⟩

/-! ### The round trip -/

/-- CBC decryption undoes CBC encryption (44_cbc.md R191, R192). -/
theorem cbcDecrypt_cbcEncrypt (rk : RoundKeys) (iv : Block) {m : List Byte} (hm : m.length % 16 = 0) :
    cbcDecrypt rk (cbcEncrypt rk m iv) = m := by
  have hlen : (cbcEncrypt rk m iv).length / 16 = (iv :: cbcEncryptBlocks rk iv (blocksOf m (m.length / 16))).length := by
    rw [length_cbcEncrypt rk m iv hm, List.length_cons, length_cbcEncryptBlocks, length_blocksOf]
    omega
  have hblocks : blocksOf (cbcEncrypt rk m iv) ((cbcEncrypt rk m iv).length / 16) =
      iv :: cbcEncryptBlocks rk iv (blocksOf m (m.length / 16)) := by
    rw [hlen]
    exact blocksOf_bytesOfBlocks _
  rw [cbcDecrypt, hblocks]
  show bytesOfBlocks (cbcDecryptBlocks rk iv _) = m
  rw [cbcDecryptBlocks_cbcEncryptBlocks (invCipher_cipher rk), bytesOfBlocks_blocksOf (by omega)]

/-- The last byte of a padded message is the length of its padding. -/
theorem getD_pad_last (m : List Byte) : ((pad m).getD (m.length + padLen m.length - 1) 0).toNat = padLen m.length := by
  obtain ⟨hpos, hle⟩ := padLen_pos m.length
  rw [pad, List.getD_append_right _ _ _ _ (by omega), rep, List.getD_eq_getElem _ _ (by rw [List.length_replicate]; omega), List.getElem_replicate, BitVec.toNat_ofNat]
  omega

theorem take_pad (m : List Byte) : (pad m).take m.length = m := List.take_left

/-- A byte string that the host has copied from OUT to IN. -/
theorem inBytes_of_copied {t u : State} {bs : List Byte} {m : Memory} (hm : Memory.wf m = true)
    (hout : t.outBuf = memWriteBytes m outBase bs) (hcopy : ∀ i, i < bs.length → inByte u i = outByte t i) :
    inBytes u bs.length = bs := by
  apply List.ext_getElem
  · exact length_inBytes u _
  · intro i _ hi
    have hbyte := hcopy i hi
    rw [outByte, hout, memRead_memWriteBytes_out hm, if_pos hi, List.getD_eq_getElem _ _ hi] at hbyte
    rw [← hbyte]
    exact getElem_memReadBytes _ _ _ _ _

/-- The message of `s`, written to OUT by a command that finishes with OK. -/
theorem out_of_writeOut_message (s : State) {u : State} (hwf : Memory.wf u.outBuf = true) :
    (finish .ok (writeOut (inBytes s s.inLen.toNat) u)).outLen = s.inLen ∧
    ∀ i, i < s.inLen.toNat → outByte (finish .ok (writeOut (inBytes s s.inLen.toNat) u)) i = inByte s i := by
  have hmessage : (inBytes s s.inLen.toNat).length = s.inLen.toNat := length_inBytes s _
  refine ⟨?_, fun i hi => ?_⟩
  · rw [finish_outLen, writeOut_outLen, hmessage, BitVec.ofNat_toNat, BitVec.setWidth_eq]
  · rw [outByte, finish_outBuf, writeOut_outBuf, memRead_memWriteBytes_out hwf, hmessage, if_pos hi,
      List.getD_eq_getElem _ _ (by rwa [hmessage])]
    exact getElem_memReadBytes _ _ _ _ _

/-- CBCDEC of a padded message's ciphertext leaves the message (44_cbc.md R197). -/
theorem exec_cbcdec_of_cbcEncrypt {u : State} {m : List Byte} {iv : Block} (hvalid : u.keyValid = true)
    (hin : u.inLen.toNat ≤ u.cfg.bufBytes) (hlen : u.inLen.toNat = cbcOutLen m.length)
    (hbytes : inBytes u u.inLen.toNat = cbcEncrypt u.rk (pad m) iv) : exec .cbcdec u = complete (writeOut m u) := by
  obtain ⟨hpos, hle⟩ := padLen_pos m.length
  have hmod := length_pad_mod m
  rw [length_pad] at hmod
  rw [cbcOutLen] at hlen
  have hlast : u.inLen.toNat - 17 = m.length + padLen m.length - 1 := by omega
  have hkept : u.inLen.toNat - 16 - padLen m.length = m.length := by omega
  rw [exec_cbcdec_of_length hvalid hin (by omega) (by omega) (pt := pad m)
    (by rw [hbytes, cbcDecrypt_cbcEncrypt _ _ (length_pad_mod m)]) (hlast ▸ getD_pad_last m), if_neg (by omega), hkept, take_pad]

/-- What CBCENC leaves when it finishes with OK: the ciphertext of the message in OUT, and the round keys. -/
theorem out_of_exec_cbcenc {s t : State} {src : IvSource} (hbusy : s.seq = .busy) (hexec : exec (.cbcenc src) s = .next t)
    (hidle : t.seq = .idle) (hok : t.errcode = .ok) : t.rk = s.rk ∧ ∃ iv bs,
      cbcEncrypt s.rk (pad (inBytes s s.inLen.toNat)) iv = bs ∧ t.outBuf = memWriteBytes s.outBuf outBase bs ∧
      t.outLen = BitVec.ofNat 32 bs.length ∧ bs.length ≤ s.cfg.bufBytes := by
  rcases execCbcenc_cases hexec with ⟨c, hc, rfl⟩ | ⟨-, -, hout, rfl | ⟨iv, u, hu, rfl⟩⟩
  · exact absurd hok hc
  · rw [waitForWord_seq, hbusy] at hidle
    cases hidle
  · have hlen : (cbcEncrypt s.rk (pad (inBytes s s.inLen.toNat)) iv).length ≤ s.cfg.bufBytes := by
      rwa [length_cbcEncrypt_pad, length_inBytes]
    rcases hu with rfl | ⟨rest, rfl⟩ <;> exact ⟨rfl, iv, _, rfl, rfl, rfl, hlen⟩

/-- Settles O23: what CBCENC left in OUT is the ciphertext of the padded message, and CBCDEC, given it in IN, recovers the
message. -/
theorem cbcRoundTrip : Obligations.CbcRoundTrip := by
  unfold Obligations.CbcRoundTrip
  intro s t u src hs hbusy hexec hidle hok hu hcfg hvalid hrk hlen hcopy
  obtain ⟨htrk, iv, bs, hbs, hbuf, houtLen, hfits⟩ := out_of_exec_cbcenc hbusy hexec hidle hok
  obtain ⟨⟨-, -, hmax⟩, -⟩ := hs.legal
  have htLen : t.outLen.toNat = bs.length := by rw [houtLen, BitVec.toNat_ofNat, Nat.mod_eq_of_lt (by omega)]
  have hbytes : inBytes u bs.length = bs :=
    inBytes_of_copied hs.buffers.outWf hbuf fun i hi => hcopy i (by rwa [htLen])
  have hdec : exec .cbcdec u = complete (writeOut (inBytes s s.inLen.toNat) u) := by
    refine exec_cbcdec_of_cbcEncrypt (iv := iv) hvalid ?_ ?_ ?_
    · rw [hlen, htLen, hcfg]; exact hfits
    · rw [hlen, htLen, ← hbs, length_cbcEncrypt_pad]
    · rw [hlen, htLen, hbytes, hrk, htrk, hbs]
  obtain ⟨hvLen, hvBytes⟩ := out_of_writeOut_message s hu.buffers.outWf
  exact ⟨_, hdec, rfl, hvLen, hvBytes⟩

end Sys2Proof.Proofs

/-! The RSA padding and the round trip: the padded message byte by byte and below the modulus (46_rsa.md R242), and RSADEC of
RSAENC's output (R245). -/

namespace Sys2Proof.Proofs

open Sys2Proof.Machine Sys2Proof.Laws

/-! ### The padded message -/

section Padded

variable {d m : List Byte} {k : Nat}

theorem length_rsaPadded (h : m.length + d.length + 2 ≤ k) : (rsaPadded d k m).length = k := by
  simp only [rsaPadded, rep, List.length_append, List.length_replicate, List.length_singleton]
  omega

/-- The bytes of the padded message: zeros, 0x01, the digest and the message (46_rsa.md R242). -/
theorem getElem?_rsaPadded (h : m.length + d.length + 2 ≤ k) {i : Nat} (hi : i < k) :
    (rsaPadded d k m)[i]? = some
      (if i < k - d.length - 1 - m.length then 0x00
       else if i = k - d.length - 1 - m.length then 0x01
       else (d ++ m).getD (i - (k - d.length - m.length)) 0) := by
  rw [rsaPadded, rep, List.append_assoc, List.append_assoc]
  split_ifs with hzero hone
  · rw [List.getElem?_append_left (by simpa using hzero), List.getElem?_replicate_of_lt hzero]
  · rw [List.getElem?_append_right (by simp [hone]), List.length_replicate, hone, Nat.sub_self]
    rfl
  · have hpos : i - (k - d.length - 1 - m.length) = i - (k - d.length - m.length) + 1 := by omega
    have hin : i - (k - d.length - m.length) < (d ++ m).length := by rw [List.length_append]; omega
    rw [List.getElem?_append_right (by simp; omega), List.length_replicate, hpos, List.singleton_append,
      List.getElem?_cons_succ, List.getElem?_eq_getElem hin, List.getD_eq_getElem _ _ hin]

/-- The zeros in front do not count, and what is behind them is shorter than the modulus. -/
theorem beNat_rsaPadded_lt {n : Nat} (h : m.length + d.length + 2 ≤ blen n) : beNat (rsaPadded d (blen n) m) < n := by
  have hrest : beNat (rsaPadded d (blen n) m) = beNat ([0x01] ++ d ++ m) := by
    rw [rsaPadded, List.append_assoc, List.append_assoc, beNat_replicate_zero_append, List.append_assoc]
  have hlen : ([0x01] ++ d ++ m : List Byte).length ≤ blen n - 1 := by
    simp only [List.length_append, List.length_singleton]
    omega
  calc beNat (rsaPadded d (blen n) m) = beNat ([0x01] ++ d ++ m) := hrest
    _ < 256 ^ ([0x01] ++ d ++ m : List Byte).length := beNat_lt _
    _ ≤ 256 ^ (blen n - 1) := Nat.pow_le_pow_right (by decide) hlen
    _ ≤ n := pow_blen_le (by omega)

/-- Unpadding the padded message leaves the message: its first 0x01 is the mark behind the zeros. -/
theorem rsaUnpad_rsaPadded (h : m.length + d.length + 2 ≤ k) : rsaUnpad d.length (rsaPadded d k m) = some m := by
  have hlen := length_rsaPadded h
  have hget : ∀ i, i < k → bigEndianByte k (beNat (rsaPadded d k m)) i = ((rsaPadded d k m)[i]?).getD 0 := by
    intro i hi
    have hbytes := beBytes_beNat (rsaPadded d k m)
    rw [hlen] at hbytes
    rw [← getD_beBytes _ _ _ hi, hbytes, List.getD_eq_getElem?_getD]
  have hfirst := rsaUnpad_first d.length k (beNat (rsaPadded d k m)) (k - d.length - 1 - m.length) (by omega)
    (by rw [hget _ (by omega), getElem?_rsaPadded h (by omega), if_neg (lt_irrefl _), if_pos rfl]; rfl)
    (fun j hj => by rw [hget _ (by omega), getElem?_rsaPadded h (by omega), if_pos hj]; decide)
  have hbytes := beBytes_beNat (rsaPadded d k m)
  rw [hlen] at hbytes
  rw [hbytes, if_neg (by omega)] at hfirst
  rw [hfirst, rsaPadded, List.drop_left' (by simp [rep]; omega)]

end Padded

/-- Settles O32: the layout gives the bytes, and the byte 0x00 in front keeps the integer below the modulus. -/
theorem paddedMessageIsBelowTheModulus : Obligations.PaddedMessageIsBelowTheModulus := by
  unfold Obligations.PaddedMessageIsBelowTheModulus
  intro c n m h
  refine ⟨length_rsaPadded h, fun i hi => getElem?_rsaPadded h hi, ?_, beNat_rsaPadded_lt h, pow_blen_le (by omega),
    lt_pow_blen n⟩
  rw [getElem?_rsaPadded h (by omega), if_pos (by omega)]

/-! ### The round trip of the powers -/

/-- In the integers modulo a prime p, a power with an exponent that is 1 modulo p − 1 is the base. -/
theorem pow_eq_self_of_prime {p x j : Nat} (hp : p.Prime) : x ^ ((p - 1) * j + 1) ≡ x [MOD p] := by
  have hfact : Fact p.Prime := ⟨hp⟩
  rw [← ZMod.natCast_eq_natCast_iff, Nat.cast_pow, pow_succ, pow_mul]
  by_cases hx : (x : ZMod p) = 0
  · rw [hx, mul_zero]
  · rw [ZMod.pow_card_sub_one_eq_one hx, one_pow, one_mul]

/-- Deciphering undoes enciphering: the exponents are inverse modulo (p − 1)(q − 1) (46_rsa.md R245). -/
theorem pow_pow_mod_eq_self {p q e d x : Nat} (hp : p.Prime) (hq : q.Prime) (hne : p ≠ q)
    (hed : e * d % ((p - 1) * (q - 1)) = 1) (hx : x < p * q) : (x ^ e % (p * q)) ^ d % (p * q) = x := by
  obtain ⟨j, hj⟩ : ∃ j, e * d = (p - 1) * (q - 1) * j + 1 :=
    ⟨e * d / ((p - 1) * (q - 1)), by conv_lhs => rw [← Nat.div_add_mod (e * d) ((p - 1) * (q - 1)), hed]⟩
  have hmodp : x ^ (e * d) ≡ x [MOD p] := by rw [hj, mul_assoc]; exact pow_eq_self_of_prime hp
  have hmodq : x ^ (e * d) ≡ x [MOD q] := by
    rw [hj, mul_comm (p - 1), mul_assoc]
    exact pow_eq_self_of_prime hq
  have hmod : x ^ (e * d) ≡ x [MOD p * q] :=
    (Nat.modEq_and_modEq_iff_modEq_mul ((Nat.coprime_primes hp hq).mpr hne)).mp ⟨hmodp, hmodq⟩
  rw [← Nat.pow_mod, ← pow_mul, hmod, Nat.mod_eq_of_lt hx]

/-! ### The round trip of the commands -/

/-- What RSAENC leaves when it finishes with OK. -/
theorem out_of_exec_rsaenc {s t : State} (hexec : exec .rsaenc s = .next t) (hok : t.errcode = .ok) :
    s.inLen.toNat + s.cfg.digest.length + 2 ≤ blen s.pubN ∧ blen s.pubN ≤ s.cfg.bufBytes ∧
    t.outBuf = memWriteBytes s.outBuf outBase (rsaEncrypt s.cfg.digest s.pubE s.pubN (inBytes s s.inLen.toNat)) ∧
    t.outLen = BitVec.ofNat 32 (blen s.pubN) := by
  rcases execRsaenc_cases hexec with ⟨c, hc, rfl⟩ | ⟨-, -, hfit, hout, rfl⟩
  · exact absurd hok hc
  · refine ⟨hfit, hout, rfl, ?_⟩
    rw [finish_outLen, writeOut_outLen, rsaEncrypt, length_beBytes]

/-- The deciphered ciphertext of a message is the padded message. -/
theorem rsaDecryptBuf_rsaEncrypt {p q e d : Nat} {c m : List Byte} (hp : p.Prime) (hq : q.Prime) (hne : p ≠ q)
    (hed : e * d % ((p - 1) * (q - 1)) = 1) (h : m.length + c.length + 2 ≤ blen (p * q)) :
    rsaDecryptBuf d (p * q) (rsaEncrypt c e (p * q) m) = rsaPadded c (blen (p * q)) m := by
  have hn : 0 < p * q := Nat.mul_pos hp.pos hq.pos
  have hbytes := beBytes_beNat (rsaPadded c (blen (p * q)) m)
  rw [length_rsaPadded h] at hbytes
  rw [rsaDecryptBuf, rsaEncrypt, beNat_beBytes ((powMod_lt hn).trans (lt_pow_blen _)), powMod_eq hn, powMod_eq hn,
    pow_pow_mod_eq_self hp hq hne hed (beNat_rsaPadded_lt h), hbytes]

/-- Settles O35: the copied bytes are the ciphertext, its power is the padded message's integer again, and unpadding leaves the
message. -/
theorem rsaRoundTrip : Obligations.RsaRoundTrip := by
  unfold Obligations.RsaRoundTrip
  intro s t u p q hp hq hne hs hn hexec hok hu hcfg hvalid hun hed hlen hcopy
  obtain ⟨hfit, hout, hbuf, houtLen⟩ := out_of_exec_rsaenc hexec hok
  obtain ⟨⟨-, -, hmax⟩, -⟩ := hs.legal
  rw [hn] at hfit hout hbuf houtLen
  have hmessage : (inBytes s s.inLen.toNat).length = s.inLen.toNat := length_inBytes s _
  have hcipher : (rsaEncrypt s.cfg.digest s.pubE (p * q) (inBytes s s.inLen.toNat)).length = blen (p * q) := length_beBytes _ _
  have htLen : t.outLen.toNat = blen (p * q) := by rw [houtLen, BitVec.toNat_ofNat, Nat.mod_eq_of_lt (by omega)]
  have hbytes := inBytes_of_copied (u := u) hs.buffers.outWf hbuf fun i hi => hcopy i (by rwa [htLen, ← hcipher])
  have hin : inBytes u u.inLen.toNat = rsaEncrypt s.cfg.digest s.pubE (p * q) (inBytes s s.inLen.toNat) := by
    rw [hlen, htLen, ← hcipher, hbytes]
  have hbuf' : rsaDecryptBuf u.privD u.privN (inBytes u u.inLen.toNat) =
      rsaPadded s.cfg.digest (blen (p * q)) (inBytes s s.inLen.toNat) := by
    rw [hun, hin]
    exact rsaDecryptBuf_rsaEncrypt (c := s.cfg.digest) hp hq hne hed (hmessage.symm ▸ hfit)
  have hunpad : rsaUnpad u.cfg.digest.length
      (beBytes (blen u.privN) (bigEndian (message u u.inLen.toNat) ^ u.privD % u.privN)) = some (inBytes s s.inLen.toNat) := by
    rw [← rsaDecryptBuf_eq_beBytes, message_eq_inBytes, hbuf', hcfg]
    exact rsaUnpad_rsaPadded (by rw [hmessage]; exact hfit)
  have hfits : u.inLen.toNat ≤ u.cfg.bufBytes := by rw [hlen, htLen, hcfg]; exact hout
  have hdec := exec_rsadec_of_length_eq hvalid hfits (by rw [hlen, htLen, hun]) hunpad
  obtain ⟨hvLen, hvBytes⟩ := out_of_writeOut_message s hu.buffers.outWf
  exact ⟨_, hdec, rfl, hvLen, hvBytes⟩

end Sys2Proof.Proofs

/-! Miller–Rabin and BPRIME: the candidates that need no draw, the rounds of the others, and that a prime is never reported
composite (45_bigint.md R214 to R216). -/

namespace Sys2Proof.Proofs

open Sys2Proof.Machine Sys2Proof.Laws

/-! ### Candidates that need no draw -/

theorem millerRabin_composite_small {rounds n : Nat} (h : n < 2 ∨ (n ≠ 2 ∧ n % 2 = 0)) (ws : List Word) :
    millerRabin rounds n ws = some (false, ws) := by
  unfold millerRabin
  by_cases hlt : n < 2
  · rw [if_pos hlt]
  · rw [if_neg hlt, if_neg (by omega), if_pos (by omega)]

theorem millerRabin_two_three {rounds n : Nat} (h : n = 2 ∨ n = 3) (ws : List Word) :
    millerRabin rounds n ws = some (true, ws) := by
  rw [millerRabin, if_neg (by omega), if_pos h]

theorem exists_millerRabin_of_small_or_even (rounds : Nat) {n : Nat} (h : n < 5 ∨ n % 2 = 0) :
    ∃ r, ∀ ws, millerRabin rounds n ws = some (r, ws) := by
  by_cases hsmall : n = 2 ∨ n = 3
  · exact ⟨true, millerRabin_two_three hsmall⟩
  · exact ⟨false, millerRabin_composite_small (by omega)⟩

/-! ### The rounds of an odd candidate, in the terms of 45_bigint.md R214 -/

section Rounds

variable {rounds n : Nat} {ws : List Word} (hn : 5 ≤ n) (hodd : n % 2 = 1)
include hn hodd

theorem millerRabin_of_rounds_passed (hpass : ∀ i, i < rounds → RoundPassed (roundBase n ((Nat.size n + 31) / 32) ws i) n)
    (hlen : rounds * ((Nat.size n + 31) / 32) ≤ ws.length) :
    millerRabin rounds n ws = some (true, ws.drop (rounds * ((Nat.size n + 31) / 32))) := by
  simp only [roundPassed_iff hn hodd, natSize_eq_bitlen] at *
  rw [millerRabin_odd hn hodd]
  exact (millerRabinRounds_spec _ _ n (ceilDiv (bitlen n) 32) rounds ws).1 hpass hlen

variable {j : Nat} (hj : j < rounds) (hpass : ∀ i, i < j → RoundPassed (roundBase n ((Nat.size n + 31) / 32) ws i) n)
include hj hpass

theorem millerRabin_of_round_failed (hfail : ¬ RoundPassed (roundBase n ((Nat.size n + 31) / 32) ws j) n)
    (hlen : (j + 1) * ((Nat.size n + 31) / 32) ≤ ws.length) :
    millerRabin rounds n ws = some (false, ws.drop ((j + 1) * ((Nat.size n + 31) / 32))) := by
  simp only [roundPassed_iff hn hodd, natSize_eq_bitlen, Bool.not_eq_true] at *
  rw [millerRabin_odd hn hodd]
  exact (millerRabinRounds_spec _ _ n (ceilDiv (bitlen n) 32) rounds ws).2.1 j hj hpass hfail hlen

theorem millerRabin_of_words_missing (hthere : j * ((Nat.size n + 31) / 32) ≤ ws.length)
    (hmissing : ws.length < (j + 1) * ((Nat.size n + 31) / 32)) : millerRabin rounds n ws = none := by
  simp only [roundPassed_iff hn hodd, natSize_eq_bitlen] at *
  rw [millerRabin_odd hn hodd]
  exact (millerRabinRounds_spec _ _ n (ceilDiv (bitlen n) 32) rounds ws).2.2 j hj hpass hthere hmissing

end Rounds

/-- The first round draws: without a word the test of an odd candidate waits. -/
theorem millerRabin_nil {rounds n : Nat} (hrounds : 1 ≤ rounds) (hn : 5 ≤ n) (hodd : n % 2 = 1) : millerRabin rounds n [] = none := by
  have hsize : 0 < Nat.size n := Nat.size_pos.mpr (by omega)
  exact millerRabin_of_words_missing hn hodd (j := 0) (by omega) (by simp) (by simp) (by simp; omega)

/-! ### BPRIME -/

theorem takeAllBut_drop {s : State} {m : Nat} (h : m ≤ s.rng.length) :
    takeAllBut (s.rng.drop m) s = { s with rng := s.rng.drop m, rngPos := s.rngPos + m } := by
  rw [takeAllBut, List.length_drop, Nat.sub_sub_self h]

theorem takeAllBut_all (s : State) : takeAllBut s.rng s = s := by rw [takeAllBut, Nat.sub_self]; rfl

section Bprime

variable {s : State} {b : XReg} {r : Bool} (hdrawn : s.drawn = [])
include hdrawn

/-- A test that draws nothing ends alike with an abort pending and with none. -/
theorem exec_bprime_of_no_draw (h : ∀ ws, millerRabin s.cfg.mrRounds (xRead s b) ws = some (r, ws)) :
    exec (.bprime b) s = .next (ended .ok { s with prime := r }) := by
  rw [exec_bprime]
  cases habort : s.abortReq with
  | true => simp [withDraws, habort, h, complete, finish, ended]
  | false => rw [withDraws_of_enough habort (h _), hdrawn, List.nil_append, takeAllBut_all]; rfl

theorem exec_bprime_of_words (habort : s.abortReq = false) {m : Nat} (hm : m ≤ s.rng.length)
    (h : millerRabin s.cfg.mrRounds (xRead s b) s.rng = some (r, s.rng.drop m)) :
    exec (.bprime b) s = .next (ended .ok { s with prime := r, rng := s.rng.drop m, rngPos := s.rngPos + m }) := by
  rw [exec_bprime, withDraws_of_enough habort (by rw [hdrawn]; exact h), takeAllBut_drop hm]
  rfl

theorem exec_bprime_of_words_missing (habort : s.abortReq = false) (h : millerRabin s.cfg.mrRounds (xRead s b) s.rng = none) :
    exec (.bprime b) s = .next { s with drawn := s.rng, rng := [], rngPos := s.rngPos + s.rng.length } := by
  simp [exec_bprime, withDraws, habort, hdrawn, h, waitForWord]

theorem exec_bprime_of_abort (habort : s.abortReq = true) (h : millerRabin s.cfg.mrRounds (xRead s b) [] = none) :
    exec (.bprime b) s = .next (ended .aborted s) := by
  rw [exec_bprime, withDraws_of_abort habort (by rw [hdrawn]; exact h)]
  rfl

end Bprime

/-- Settles O27: the small and the even candidates draw nothing, and the others end by their rounds. -/
theorem primalityResult : Obligations.PrimalityResult := by
  unfold Obligations.PrimalityResult
  intro s b hlegal hdrawn n w
  obtain ⟨-, -, ⟨hrounds, -⟩, -⟩ := hlegal
  refine ⟨fun h => ⟨_, exec_bprime_of_no_draw hdrawn (millerRabin_composite_small h), rfl⟩,
    fun h => ⟨_, exec_bprime_of_no_draw hdrawn (millerRabin_two_three h), rfl⟩,
    fun hn hodd habort => exec_bprime_of_abort hdrawn habort (millerRabin_nil (by omega) hn hodd),
    fun hn hodd habort => ⟨fun j hj hpass hfail hlen => ?_, fun hpass hlen => ?_, fun j hj hpass hthere hmissing => ?_⟩⟩
  · exact exec_bprime_of_words hdrawn habort hlen (millerRabin_of_round_failed hn hodd hj hpass hfail hlen)
  · exact exec_bprime_of_words hdrawn habort hlen (millerRabin_of_rounds_passed hn hodd hpass hlen)
  · exact exec_bprime_of_words_missing hdrawn habort (millerRabin_of_words_missing hn hodd hj hpass hthere hmissing)

/-! ### A prime is never reported composite -/

theorem primeTestWords_le (rounds p : Nat) : primeTestWords rounds p ≤ rounds * ((Nat.size p + 31) / 32) := by
  rw [primeTestWords, natSize_eq_bitlen]
  split_ifs
  · exact Nat.zero_le _
  · exact le_rfl

/-- A prime passes on any words that hold those of its test. -/
theorem millerRabin_prime_drop {p rounds : Nat} (hp : p.Prime) {ws : List Word} (h : primeTestWords rounds p ≤ ws.length) :
    millerRabin rounds p ws = some (true, ws.drop (primeTestWords rounds p)) := by
  conv_lhs => rw [← List.take_append_drop (primeTestWords rounds p) ws]
  exact millerRabin_prime hp _ (List.length_take_of_le h)

/-- Settles O28: every round passes a prime, so the test can only wait, be aborted or report it prime. -/
theorem primesAreNeverReportedComposite : Obligations.PrimesAreNeverReportedComposite := by
  unfold Obligations.PrimesAreNeverReportedComposite
  refine ⟨fun s b hp hdrawn habort hlen => ?_, fun s t b hp hbusy hexec hidle hok => ?_⟩
  · have hwords := (primeTestWords_le s.cfg.mrRounds (xRead s b)).trans hlen
    exact ⟨_, exec_bprime_of_words hdrawn habort hwords (millerRabin_prime_drop hp hwords), rfl, rfl, rfl⟩
  · rcases execBprime_cases hexec with ⟨-, -, rfl⟩ | ⟨r, rest, -, hr, rfl⟩ | ⟨-, -, rfl⟩ | ⟨r, rest, -, hr, rfl⟩
    · cases hok
    · exact millerRabin_prime_true hp hr
    · rw [waitForWord_seq, hbusy] at hidle
      cases hidle
    · exact millerRabin_prime_true hp hr

end Sys2Proof.Proofs

/-! The search for a random prime, and BRANDPRIME: candidates from the words, tested one after another
(45_bigint.md R217, R218). -/

namespace Sys2Proof.Proofs

open Sys2Proof.Machine Sys2Proof.Laws

/-! ### The search, candidate by candidate -/

theorem randPrime_nil {rounds bits : Nat} (hb : 0 < bits) : randPrime rounds bits [] = none := by
  have hfew : drawWords (ceilDiv bits 32) [] = none := drawWords_none.mpr (ceilDiv_pos hb)
  simp [randPrime, randPrimeLoop, hfew]

/-- More fuel than words is enough fuel. -/
theorem randPrimeLoop_eq_randPrime {rounds bits fuel : Nat} (hb : 0 < bits) {ws : List Word} (h : ws.length < fuel) :
    randPrimeLoop fuel rounds bits ws = randPrime rounds bits ws :=
  Option.ext fun _ => ⟨fun hr => randPrimeLoop_fuel hb hr (by omega), fun hr => randPrimeLoop_fuel hb hr h⟩

section Candidate

variable {rounds bits c : Nat} {us rest left : List Word} (hb : 2 ≤ bits) (hc : IsCandidate bits us c)
  (hlen : us.length = (bits + 31) / 32)
include hb hc hlen

theorem randPrime_of_passed (h : millerRabin rounds c rest = some (true, left)) :
    randPrime rounds bits (us ++ rest) = some (c, left) := by
  obtain rfl := isCandidate_eq hb hc
  simp only [randPrime, randPrimeLoop, drawWords_append (show us.length = ceilDiv bits 32 from hlen), h]

theorem randPrime_of_failed (h : millerRabin rounds c rest = some (false, left)) :
    randPrime rounds bits (us ++ rest) = randPrime rounds bits left := by
  obtain rfl := isCandidate_eq hb hc
  have hleft := (local_millerRabin _ _).length_le h
  have hloop : randPrime rounds bits (us ++ rest) = randPrimeLoop (us ++ rest).length rounds bits left := by
    simp only [randPrime, randPrimeLoop, drawWords_append (show us.length = ceilDiv bits 32 from hlen), h]
  rw [hloop, randPrimeLoop_eq_randPrime (by omega) (by rw [List.length_append]; omega)]

/-- A prime candidate with the words of its test is the prime found. -/
theorem randPrime_of_prime (hp : c.Prime) (hwords : primeTestWords rounds c ≤ rest.length) :
    randPrime rounds bits (us ++ rest) = some (c, rest.drop (primeTestWords rounds c)) :=
  randPrime_of_passed hb hc hlen (millerRabin_prime_drop hp hwords)

end Candidate

/-- The candidate has exactly the wanted bits, and is odd (45_bigint.md R217). -/
theorem isCandidate_bounds {bits c : Nat} {us : List Word} (hb : 2 ≤ bits) (hc : IsCandidate bits us c) :
    2 ^ (bits - 1) ≤ c ∧ c < 2 ^ bits ∧ c % 2 = 1 := by
  obtain rfl := isCandidate_eq hb hc
  exact ⟨le_primeCandidate bits _, primeCandidate_lt (by omega) _, primeCandidate_odd bits _⟩

/-! ### BRANDPRIME -/

section Brandprime

variable {s : State} {a : XReg} (h2 : 2 ≤ argNat s) (hbits : argNat s ≤ s.cfg.bigBits)

include h2 hbits

theorem exec_brandprime_of_abort (hdrawn : s.drawn = []) (habort : s.abortReq = true) :
    exec (.brandprime a) s = .next (ended .aborted s) := by
  rw [exec_brandprime_of_size a h2 hbits,
    withDraws_of_abort habort (by rw [hdrawn]; exact randPrime_nil (by omega))]
  rfl

theorem exec_brandprime_of_found (hdrawn : s.drawn = []) (habort : s.abortReq = false) {p : Nat} {rest : List Word}
    (h : randPrime s.cfg.mrRounds (argNat s) s.rng = some (p, rest)) :
    exec (.brandprime a) s = .next (ended .ok (xWrite a p (takeAllBut rest s))) := by
  rw [exec_brandprime_of_size a h2 hbits, withDraws_of_enough habort (by rw [hdrawn]; exact h)]
  rfl

/-- The prime found is written, and the words used are taken. -/
theorem exists_written_of_found (hdrawn : s.drawn = []) (habort : s.abortReq = false) {p : Nat} {left : List Word}
    (h : randPrime s.cfg.mrRounds (argNat s) s.rng = some (p, left)) :
    ∃ t, exec (.brandprime a) s = .next t ∧
      t = ended .ok { s with x := t.x, rng := left, rngPos := s.rngPos + (s.rng.length - left.length) } ∧
      ∀ i, xRead t i = if i = a then p else xRead s i :=
  ⟨_, exec_brandprime_of_found h2 hbits hdrawn habort h, rfl, fun i => xRead_xWrite a i p _⟩

/-- Without an abort a busy command whose move ends has found its prime. -/
theorem found_of_exec_brandprime (hdrawn : s.drawn = []) (habort : s.abortReq = false) (hbusy : s.seq = .busy) {u : State}
    (hexec : exec (.brandprime a) s = .next u) (hidle : u.seq = .idle) :
    ∃ p rest, randPrime s.cfg.mrRounds (argNat s) s.rng = some (p, rest) ∧ u = ended .ok (xWrite a p (takeAllBut rest s)) := by
  rw [exec_brandprime_of_size a h2 hbits] at hexec
  rcases withDraws_cases hexec with ⟨ha, -, -⟩ | ⟨-, -, ha, -, -⟩ | ⟨-, -, he⟩ | ⟨p, rest, -, hp, he⟩
  · rw [habort] at ha
    cases ha
  · rw [habort] at ha
    cases ha
  · rw [next_iff.mp he.symm, waitForWord_seq, hbusy] at hidle
    cases hidle
  · rw [hdrawn] at hp
    exact ⟨p, rest, hp, complete_next.mp he.symm⟩

end Brandprime

/-- Words taken in two goes, the second by a running command. -/
theorem finish_takeAllBut_takeAllBut {s : State} {left rest : List Word} (hleft : left.length ≤ s.rng.length)
    (hrest : rest.length ≤ left.length) (a : XReg) (p : Nat) :
    ended .ok (xWrite a p (takeAllBut rest { takeAllBut left s with seq := .busy })) =
      ended .ok (xWrite a p (takeAllBut rest s)) := by
  have hcount : s.rngPos + (s.rng.length - left.length) + (left.length - rest.length) =
      s.rngPos + (s.rng.length - rest.length) := by omega
  simp only [ended, xWrite, takeAllBut, hcount]

/-- Settles O29: the first candidate's test decides between its prime and the search in the words left. -/
theorem randomPrimeResult : Obligations.RandomPrimeResult := by
  unfold Obligations.RandomPrimeResult
  refine fun s a => ⟨exec_brandprime_of_bad_size a, fun h2 hbits hdrawn => ⟨exec_brandprime_of_abort h2 hbits hdrawn, ?_⟩⟩
  intro habort c us rest hc hlen hrng
  obtain ⟨hlow, hhigh, hodd⟩ := isCandidate_bounds h2 hc
  refine ⟨hlow, hhigh, hodd, fun left hpass =>
      exists_written_of_found h2 hbits hdrawn habort (hrng ▸ randPrime_of_passed h2 hc hlen hpass),
    fun left u hfail hexec hidle => ?_, fun hp hwords => ?_⟩
  · have hsearch := randPrime_of_failed h2 hc hlen hfail
    rw [← hrng] at hsearch
    obtain ⟨p, last, hfound, rfl⟩ := found_of_exec_brandprime (s := { takeAllBut left s with seq := .busy }) h2 hbits hdrawn
      habort rfl hexec hidle
    have hleft : left.length ≤ s.rng.length := by
      rw [hrng, List.length_append]
      exact ((local_millerRabin _ _).length_le hfail).trans (Nat.le_add_left _ _)
    rw [exec_brandprime_of_found h2 hbits hdrawn habort (hsearch.trans hfound),
      finish_takeAllBut_takeAllBut hleft ((local_randPrime _ (Nat.zero_lt_of_lt h2)).length_le hfound)]
  · obtain ⟨t, hexec, ht, hx⟩ :=
      exists_written_of_found (a := a) h2 hbits hdrawn habort (hrng ▸ randPrime_of_prime h2 hc hlen hp hwords)
    have hcount : s.rng.length - (rest.drop (primeTestWords s.cfg.mrRounds c)).length =
        (s.arg.toNat + 31) / 32 + primeTestWords s.cfg.mrRounds c := by
      rw [hrng, List.length_append, List.length_drop]
      omega
    rw [hcount] at ht
    exact ⟨t, hexec, ht, hx⟩

end Sys2Proof.Proofs

/-! RSAKEYGEN: the two primes, the key pair of them, and its completion on words that make two prime candidates (46_rsa.md R241). -/

namespace Sys2Proof.Proofs

open Sys2Proof.Machine Sys2Proof.Laws

/-! ### The primes -/

theorem drawPrimePair_of_found {rounds bits p q : Nat} {ws r left : List Word} (hp : randPrime rounds bits ws = some (p, r))
    (hq : randPrime rounds bits r = some (q, left)) : drawPrimePair rounds bits ws = some ((p, q), left) := by
  rw [drawPrimePair, hp]
  dsimp only
  rw [hq]

theorem drawPrimePair_nil {rounds bits : Nat} (hb : 0 < bits) : drawPrimePair rounds bits [] = none := by
  rw [drawPrimePair, randPrime_nil hb]

theorem three_le_of_randPrime {rounds bits p : Nat} {ws r : List Word} (hb : 2 ≤ bits)
    (h : randPrime rounds bits ws = some (p, r)) : 3 ≤ p := by
  obtain ⟨v, rfl⟩ := randPrime_candidate h
  have htwo := two_le_primeCandidate hb v
  have hodd := primeCandidate_odd bits v
  omega

/-- φ of two numbers of at least 3 is above 1, so a residue of 1 modulo φ is 1. -/
theorem one_lt_phi {p q : Nat} (hp : 3 ≤ p) (hq : 3 ≤ q) : 1 < (p - 1) * (q - 1) :=
  calc 1 < 2 * 2 := by decide
    _ ≤ (p - 1) * (q - 1) := Nat.mul_le_mul (by omega) (by omega)

/-! ### The command -/

section RsaKeyGen

variable {s : State} {a b c : XReg} (h2 : 2 ≤ argNat s) (hbits : 2 * argNat s ≤ s.cfg.bigBits) (hdrawn : s.drawn = [])
include h2 hbits hdrawn

theorem exec_rsakeygen_of_abort (habort : s.abortReq = true) : exec (.rsakeygen a b c) s = .next (ended .aborted s) := by
  rw [exec_rsakeygen_of_size a b c h2 hbits,
    withDraws_of_abort habort (by rw [hdrawn]; exact drawPrimePair_nil (Nat.zero_lt_of_lt h2))]
  rfl

variable (habort : s.abortReq = false) {p q : Nat} {r left : List Word}
  (hp : randPrime s.cfg.mrRounds (argNat s) s.rng = some (p, r)) (hq : randPrime s.cfg.mrRounds (argNat s) r = some (q, left))
include habort hp hq

theorem exec_rsakeygen_of_found :
    exec (.rsakeygen a b c) s = rsakeygenCommit a b c (p, q) (takeAllBut left s) := by
  rw [exec_rsakeygen_of_size a b c h2 hbits,
    withDraws_of_enough habort (by rw [hdrawn]; exact drawPrimePair_of_found hp hq)]

theorem exec_rsakeygen_of_coprime (he : Nat.Coprime (xRead s c) ((p - 1) * (q - 1))) :
    exec (.rsakeygen a b c) s = .next (ended .ok (xWrite b q (xWrite a p
      (writeKeyPair (xRead s c) (p * q) (invMod (xRead s c) ((p - 1) * (q - 1))) (takeAllBut left s))))) :=
  (exec_rsakeygen_of_found h2 hbits hdrawn habort hp hq).trans (if_neg (not_not.mpr he))

theorem exec_rsakeygen_of_not_coprime (he : ¬ Nat.Coprime (xRead s c) ((p - 1) * (q - 1))) :
    exec (.rsakeygen a b c) s = .next (ended .notInvertible (takeAllBut left s)) :=
  (exec_rsakeygen_of_found h2 hbits hdrawn habort hp hq).trans (if_pos he)

/-- The key pair of two coprime primes: what RSAKEYGEN leaves, register by register. -/
theorem exists_keyPair (hab : a ≠ b) (he : Nat.Coprime (xRead s c) ((p - 1) * (q - 1))) :
    ∃ t, exec (.rsakeygen a b c) s = .next t ∧
      t = ended .ok { s with
        x := t.x, pubE := xRead s c, pubN := p * q, privD := t.privD, privN := p * q, pubValid := true, privValid := true
        rng := left, rngPos := s.rngPos + (s.rng.length - left.length) } ∧
      (∀ i, xRead t i = if i = a then p else if i = b then q else xRead s i) ∧
      t.privD < (p - 1) * (q - 1) ∧ xRead s c * t.privD % ((p - 1) * (q - 1)) = 1 := by
  have hphi := one_lt_phi (three_le_of_randPrime h2 hp) (three_le_of_randPrime h2 hq)
  refine ⟨_, exec_rsakeygen_of_coprime h2 hbits hdrawn habort hp hq he, rfl, fun i => ?_, invMod_lt (by omega), ?_⟩
  · rw [xRead_ended, xRead_xWrite, xRead_xWrite]
    by_cases hib : i = b
    · rw [if_pos hib, if_neg (hib ▸ hab.symm), if_pos hib]
    · rw [if_neg hib, if_neg hib]
      rfl
  · calc xRead s c * invMod (xRead s c) ((p - 1) * (q - 1)) % ((p - 1) * (q - 1))
        = 1 % ((p - 1) * (q - 1)) := invMod_mul (by omega) he
      _ = 1 := Nat.mod_eq_of_lt hphi

end RsaKeyGen

/-- Settles O30: the checks, the search of the two primes, and the key pair of them. -/
theorem rsaKeyGenResult : Obligations.RsaKeyGenResult := by
  unfold Obligations.RsaKeyGenResult
  exact fun s a b c hab => ⟨exec_rsakeygen_of_bad_size a b c, fun h2 hbits hdrawn =>
    ⟨exec_rsakeygen_of_abort h2 hbits hdrawn, fun habort p q r left hp hq =>
      ⟨exists_keyPair h2 hbits hdrawn habort hp hq hab, exec_rsakeygen_of_not_coprime h2 hbits hdrawn habort hp hq⟩⟩⟩

/-- The search takes the words of a prime candidate and of its test, and no more. -/
theorem randPrime_of_prime_append {rounds bits p : Nat} {us ts : List Word} (hb : 2 ≤ bits) (hp : p.Prime)
    (hus : us.length = (bits + 31) / 32) (hc : IsCandidate bits us p) (hts : ts.length = primeTestWords rounds p)
    (rest : List Word) : randPrime rounds bits (us ++ (ts ++ rest)) = some (p, rest) :=
  randPrime_of_passed hb hc hus (millerRabin_prime hp rest hts)

/-- Settles O31: the words make the search find first p and then q. -/
theorem rsaKeyGenCompletes : Obligations.RsaKeyGenCompletes := by
  unfold Obligations.RsaKeyGenCompletes
  intro s a b c p q us ts vs ws rest hab h2 hbits hdrawn habort hp hq hus hpc hts hvs hqc hws hrng he
  have hfirst : randPrime s.cfg.mrRounds (argNat s) s.rng = some (p, vs ++ (ws ++ rest)) := by
    rw [hrng, List.append_assoc, List.append_assoc, List.append_assoc]
    exact randPrime_of_prime_append h2 hp hus hpc hts _
  have hsecond := randPrime_of_prime_append h2 hq hvs hqc hws rest
  obtain ⟨t, hexec, ht, hx, -, hinv⟩ := exists_keyPair h2 hbits hdrawn habort hfirst hsecond hab he
  refine ⟨t, hexec, ?_⟩
  rw [hx, hx, if_pos rfl, if_neg hab.symm, if_pos rfl]
  rw [ht] at hinv ⊢
  exact ⟨rfl, rfl, rfl, rfl, rfl, rfl, rfl, rfl, rfl, rfl, rfl, hinv⟩

end Sys2Proof.Proofs

/-! Commands as their drawing parts: every command has a next state (60_exceptions.md R260), a waiting command goes on as if its
words had been there before (20_memory.md R82), and what an abort does to it (60_exceptions.md R275, R276). -/

namespace Sys2Proof.Proofs

open Sys2Proof.Machine Sys2Proof.Laws

theorem seq_ne_busy_of_error {c : ErrCode} {b : Bool} {s t : State}
    (h : (if b then raiseBufErr c else raiseErr c) s = .next t) : t.seq ≠ .busy := by
  cases b with
  | false => rw [raiseErr_next.mp h, finish_seq]; decide
  | true => rw [raiseBufErr_next.mp h, finish_seq]; decide

/-! ### Every move has a next state -/

theorem exists_next_ite {p : Prop} [Decidable p] {a b : Host.Outcome State Fault Refusal} (ha : ∃ t, a = .next t)
    (hb : ∃ t, b = .next t) : ∃ t, (if p then a else b) = .next t := by
  split
  · exact ha
  · exact hb

/-- A buffer command's error and another command's both have a next state. -/
theorem exists_next_error (c : ErrCode) (b : Bool) (s : State) :
    ∃ t, (if b then raiseBufErr c else raiseErr c) s = .next t := by
  cases b
  · exact ⟨_, rfl⟩
  · exact ⟨_, rfl⟩

theorem exists_next_of_draws {i : Instr} (hd : draws i = true) (s : State) : ∃ t, exec i s = .next t := by
  rcases drawing_shape i hd s with ⟨c, -, hexec⟩ | ⟨α, p, k, -, hk, -, -, hexec⟩
  · rw [hexec s.abortReq s.drawn s.rng s.rngPos]
    exact exists_next_ite ⟨_, rfl⟩ ⟨_, rfl⟩
  · rcases withDraws_cases (hexec s.abortReq s.drawn s.rng s.rngPos).symm with
      ⟨-, -, he⟩ | ⟨v, rest, -, -, he⟩ | ⟨-, -, he⟩ | ⟨v, rest, -, -, he⟩
    · exact he ▸ exists_next_error _ _ _
    · obtain ⟨t, ht, -⟩ := hk v s
      exact ⟨t, he.trans ht⟩
    · exact ⟨_, he⟩
    · obtain ⟨t, ht, -⟩ := hk v (takeAllBut rest s)
      exact ⟨t, he.trans ht⟩

theorem exists_next_of_exec (i : Instr) (s : State) : ∃ t, exec i s = .next t := by
  cases i with
  | nop | gfmul | xtime | sbox | invsbox | subbytes | invsubbytes | shiftrows | invshiftrows | mixcolumns | invmixcolumns
  | keyunbind | bmul => exact ⟨_, rfl⟩
  | addroundkey | aesenc | aesdec | bmodexp => exact exists_next_ite ⟨_, rfl⟩ ⟨_, rfl⟩
  | keybind | bmodinv => exact exists_next_ite ⟨_, rfl⟩ (exists_next_ite ⟨_, rfl⟩ ⟨_, rfl⟩)
  | symkeygen | bprime | brandprime | rsakeygen => exact exists_next_of_draws rfl s
  | cbcenc src =>
    cases src with
    | rng => exact exists_next_of_draws rfl s
    | ivreg => exact exists_next_ite ⟨_, rfl⟩ (exists_next_ite ⟨_, rfl⟩ (exists_next_ite ⟨_, rfl⟩ ⟨_, rfl⟩))
  | cbcdec | rsaenc =>
    refine exists_next_ite ⟨_, rfl⟩ (exists_next_ite ⟨_, rfl⟩ (exists_next_ite ⟨_, rfl⟩ ?_))
    exact exists_next_ite ⟨_, rfl⟩ ⟨_, rfl⟩
  | rsadec =>
    refine exists_next_ite ⟨_, rfl⟩ (exists_next_ite ⟨_, rfl⟩ (exists_next_ite ⟨_, rfl⟩ ?_))
    split
    · exact ⟨_, rfl⟩
    · exact ⟨_, rfl⟩

theorem exists_next_of_runSequencer (s : State) : ∃ t, runSequencer s = .next t := by
  refine exists_next_ite ⟨_, rfl⟩ ?_
  cases s.seq with
  | init | idle => exact ⟨_, rfl⟩
  | busy =>
    dsimp only [runCommand]
    split
    · exact exists_next_of_exec _ s
    · exact ⟨_, rfl⟩

theorem exists_next_of_handleEvent (e : Event) (s : State) : ∃ t, handleEvent e s = .next t := by
  cases e with
  | bus | offer | draw | resetAssert | resetRelease => exact ⟨_, rfl⟩
  | sequencer => exact exists_next_of_runSequencer s
  | busAtFinish acc =>
    obtain ⟨t, ht⟩ := exists_next_of_runSequencer { access acc s with abortReq := s.abortReq }
    refine exists_next_ite ⟨_, rfl⟩ ?_
    rw [ht]
    exact ⟨_, rfl⟩

/-- Settles O7: no branch of a command, of the sequencer or of an event ends otherwise. -/
theorem everyStepHasANextState : Obligations.EveryStepHasANextState := by
  unfold Obligations.EveryStepHasANextState
  refine ⟨fun s => ?_, fun i s => exists_next_of_exec i s⟩
  unfold step stepEvent
  split
  · exact exists_next_of_runSequencer s
  · exact exists_next_of_handleEvent _ _

/-! ### Failed commands -/

/-- A command that starts with no word drawn takes words from the front of those on offer. -/
theorem rng_suffix_of_exec {i : Instr} {s t : State} (hdrawn : s.drawn = []) (hexec : exec i s = .next t) :
    ∃ taken, s.rng = taken ++ t.rng := by
  cases hd : draws i with
  | false =>
    obtain ⟨-, -, -, -, hrng, -⟩ := finishes_of_not_draws hd hexec
    exact ⟨[], hrng.symm⟩
  | true =>
    rcases drawing_shape i hd s with ⟨c, -, h⟩ | ⟨α, p, k, hlocal, hk, -, -, h⟩
    · have he := (h s.abortReq s.drawn s.rng s.rngPos).symm.trans hexec
      split at he
      · exact ⟨[], (raiseBufErr_next.mp he) ▸ rfl⟩
      · exact ⟨[], (raiseErr_next.mp he) ▸ rfl⟩
    · have hkept : ∀ v u, k v u = .next t → t.rng = u.rng := fun v u he => by
        obtain ⟨t', ht', -, -, -, -, hrng, -⟩ := hk v u
        rw [next_iff.mp (ht'.symm.trans he), hrng]
      rcases withDraws_cases ((h s.abortReq s.drawn s.rng s.rngPos).symm.trans hexec) with
        ⟨-, -, he⟩ | ⟨v, rest, -, -, he⟩ | ⟨-, -, he⟩ | ⟨v, rest, -, hp, he⟩
      · refine ⟨[], ?_⟩
        split at he
        · exact (raiseBufErr_next.mp he.symm) ▸ rfl
        · exact (raiseErr_next.mp he.symm) ▸ rfl
      · exact ⟨[], (hkept v s he.symm).symm⟩
      · exact ⟨s.rng, (next_iff.mp he.symm) ▸ (List.append_nil _).symm⟩
      · obtain ⟨used, hused, -⟩ := hlocal _ _ _ hp
        rw [hdrawn] at hused
        exact ⟨used, (hkept v _ he.symm).symm ▸ hused⟩

/-- The words taken are the difference of the words on offer, counted. -/
theorem eq_of_takesWords_of_append {i : Instr} {s u : State} {taken : List Word} (hu : TakesWords i s u)
    (htaken : s.rng = taken ++ u.rng) : u = { s with rng := u.rng, rngPos := s.rngPos + taken.length } := by
  rcases hu with rfl | ⟨-, rest, rfl⟩
  · rw [List.self_eq_append_left.mp htaken]
    rfl
  · have hcount : s.rng.length - rest.length = taken.length := by
      rw [htaken, List.length_append, takeAllBut_rng, Nat.add_sub_cancel]
    simp only [takeAllBut, hcount]

/-- Settles O36: an error leaves the state its words were taken from, but for OUT of a buffer command. -/
theorem failedCommandsChangeNothing : Obligations.FailedCommandsChangeNothing := by
  unfold Obligations.FailedCommandsChangeNothing
  intro s t i hbusy hdrawn hexec hidle herr
  obtain ⟨taken, htaken⟩ := rng_suffix_of_exec hdrawn hexec
  cases moveEnds_of_exec hexec with
  | waits =>
    rw [waitForWord_seq, hbusy] at hidle
    cases hidle
  | completes => exact absurd rfl herr
  | @fails c u hc hu =>
    cases hbuf : isBufferCommand i with
    | false =>
      simp only [hbuf, Bool.false_eq_true, if_false] at htaken ⊢
      rw [eq_of_takesWords_of_append hu htaken]
      exact ⟨taken, s.outBuf, s.fresh, rfl, htaken, nofun, fun _ => ⟨rfl, rfl, rfl⟩⟩
    | true =>
      simp only [hbuf, if_true] at htaken ⊢
      rw [eq_of_takesWords_of_append hu htaken]
      exact ⟨taken, _, _, rfl, htaken, fun _ => rfl, nofun⟩

/-! ### Commands that wait -/

/-- A command that stays Busy waits in its drawing part, whose words so far do not decide it. -/
theorem exists_draw_of_waiting {i : Instr} {s t : State} {g : List Word}
    (hexec : exec i { s with rng := g } = .next t) (hwait : t.seq = .busy) :
    ∃ (α : Type) (p : Draw α) (k : α → State → Host.Outcome State Fault Refusal), DrawLocal p ∧
      (∀ v u r d, k v { u with abortReq := r, drawn := d } = k v u) ∧ p (s.drawn ++ g) = none ∧
      ∀ r d g n, exec i (withDrawState s r d g n) =
        withDraws p (if isBufferCommand i then raiseBufErr .aborted else raiseErr .aborted) k (withDrawState s r d g n) := by
  have hd : draws i = true := by
    by_contra hd
    obtain ⟨hidle, -⟩ := finishes_of_not_draws (Bool.not_eq_true _ ▸ hd) hexec
    rw [hwait] at hidle
    cases hidle
  rcases drawing_shape i hd s with ⟨c, -, h⟩ | ⟨α, p, k, hlocal, hk, hfree, -, h⟩
  · exact absurd hwait (seq_ne_busy_of_error ((ite_apply _ _ _ _).trans ((h s.abortReq s.drawn g s.rngPos).symm.trans hexec)))
  · have hends : ∀ v u, k v u = .next t → t.seq ≠ .busy := fun v u he => by
      obtain ⟨t', ht', hidle, -⟩ := hk v u
      rw [next_iff.mp (ht'.symm.trans he), hidle]
      decide
    refine ⟨α, p, k, hlocal, hfree, ?_, h⟩
    rcases withDraws_cases ((h s.abortReq s.drawn g s.rngPos).symm.trans hexec) with
      ⟨-, -, he⟩ | ⟨v, rest, -, -, he⟩ | ⟨-, hp, -⟩ | ⟨v, rest, -, -, he⟩
    · exact absurd hwait (seq_ne_busy_of_error he.symm)
    · exact absurd hwait (hends v _ he.symm)
    · exact hp
    · exact absurd hwait (hends v _ he.symm)

/-- A command that stays Busy draws, has no abort pending, and has taken the words there are. -/
theorem eq_waitForWord_of_waiting {i : Instr} {s t : State} (hexec : exec i s = .next t) (hwait : t.seq = .busy) :
    draws i = true ∧ s.abortReq = false ∧ t = waitForWord s := by
  cases moveEnds_of_exec hexec with
  | waits hd habort => exact ⟨hd, habort, rfl⟩
  | fails => cases hwait
  | completes => cases hwait

/-- A local part that waits on `a` takes a word of what comes behind. -/
theorem drawLocal_rest_lt {α : Type} {p : Draw α} (hp : DrawLocal p) {a ws rest : List Word} {w : Word} {v : α}
    (ha : p a = none) (h : p (a ++ w :: ws) = some (v, rest)) : rest.length ≤ ws.length := by
  have hle := hp.rest_le ha h
  by_contra hlt
  obtain ⟨used, hused, hmore⟩ := hp _ _ _ h
  have hsame : a = used := List.append_inj_left' hused (by rw [List.length_cons] at hle ⊢; omega)
  have hval := hmore []
  rw [List.append_nil, ← hsame, ha] at hval
  cases hval

/-- Words drawn before the move are as good as words on offer, when the drawing part takes at least those. -/
theorem withDraws_replay {α : Type} {p : Draw α} {onAbort : State → Host.Outcome State Fault Refusal}
    {k : α → State → Host.Outcome State Fault Refusal} {s : State} {a b : List Word} (habort : s.abortReq = false)
    (hfree : ∀ v u r d, k v { u with abortReq := r, drawn := d } = k v u) (hrng : s.rng = a ++ b)
    (hrest : ∀ v rest, p (s.drawn ++ (a ++ b)) = some (v, rest) → rest.length ≤ b.length) :
    withDraws p onAbort k { s with drawn := s.drawn ++ a, rng := b, rngPos := s.rngPos + a.length } =
      withDraws p onAbort k s := by
  simp only [withDraws, habort, Bool.false_eq_true, if_false, hrng, List.append_assoc]
  cases hp : p (s.drawn ++ (a ++ b)) with
  | none => simp only [waitForWord, habort, hrng, List.append_assoc, List.length_append, Nat.add_assoc]
  | some r =>
    obtain ⟨v, rest⟩ := r
    have hcount : s.rngPos + a.length + (b.length - rest.length) = s.rngPos + (s.rng.length - rest.length) := by
      have hle := hrest v rest hp
      rw [hrng, List.length_append]
      omega
    dsimp only
    rw [← hfree v (takeAllBut rest s) s.abortReq (s.drawn ++ a)]
    simp only [takeAllBut, habort, hcount]

/-- Settles O38: the drawing part runs on the words drawn and then on those offered, so only their order counts. -/
theorem waitingIsTransparent : Obligations.WaitingIsTransparent := by
  unfold Obligations.WaitingIsTransparent
  refine ⟨fun s t i more hbusy hexec hwait => ?_, fun s t i w ws hbusy hrng hexec hwait => ?_⟩
  · obtain ⟨-, habort, rfl⟩ := eq_waitForWord_of_waiting hexec hwait
    obtain ⟨α, p, k, hlocal, hfree, hp, h⟩ := exists_draw_of_waiting (g := s.rng) hexec hwait
    have hreplay := withDraws_replay (p := p) (k := k) (s := { s with rng := s.rng ++ more })
      (onAbort := if isBufferCommand i then raiseBufErr .aborted else raiseErr .aborted) habort hfree rfl
      fun v rest he => hlocal.rest_le hp (by rwa [List.append_assoc])
    exact ((h s.abortReq (s.drawn ++ s.rng) more (s.rngPos + s.rng.length)).trans hreplay).trans
      (h s.abortReq s.drawn (s.rng ++ more) s.rngPos).symm
  · obtain ⟨-, habort, -⟩ := eq_waitForWord_of_waiting hexec hwait
    obtain ⟨α, p, k, hlocal, hfree, hp, h⟩ := exists_draw_of_waiting (g := []) hexec hwait
    rw [List.append_nil] at hp
    have hreplay := withDraws_replay (p := p) (k := k) (s := s) (a := [w])
      (onAbort := if isBufferCommand i then raiseBufErr .aborted else raiseErr .aborted) habort hfree hrng
      fun v rest he => drawLocal_rest_lt hlocal hp he
    exact ((h s.abortReq (s.drawn ++ [w]) ws (s.rngPos + 1)).trans hreplay).trans (h s.abortReq s.drawn s.rng s.rngPos).symm

/-- Settles O37: a waiting command's next move with no word on offer is the move it made. -/
theorem waitingTakesWordsOnly : Obligations.WaitingTakesWordsOnly := by
  unfold Obligations.WaitingTakesWordsOnly
  intro s t i hbusy hexec hwait
  obtain ⟨hd, habort, rfl⟩ := eq_waitForWord_of_waiting hexec hwait
  have hagain := waitingIsTransparent.1 s _ i [] hbusy hexec hwait
  rw [List.append_nil] at hagain
  exact ⟨hd, habort, rfl, hagain.trans hexec⟩

/-- Settles O39: with the abort request set the drawing part runs on the words drawn alone, and those do not decide it. -/
theorem abortEndsAWaitingCommand : Obligations.AbortEndsAWaitingCommand := by
  unfold Obligations.AbortEndsAWaitingCommand
  intro s t i more hbusy hexec hwait
  obtain ⟨-, habort, rfl⟩ := eq_waitForWord_of_waiting hexec hwait
  obtain ⟨α, p, k, -, -, hp, h⟩ := exists_draw_of_waiting (g := s.rng) hexec hwait
  have hends := (h true (s.drawn ++ s.rng) more (s.rngPos + s.rng.length)).trans (withDraws_of_abort rfl hp)
  cases hbuf : isBufferCommand i with
  | false =>
    rw [hbuf] at hends
    exact ⟨_, hends, fun _ => rfl, nofun⟩
  | true =>
    rw [hbuf] at hends
    exact ⟨_, hends, nofun, fun _ => ⟨_, _, rfl⟩⟩

/-! ### Commands without an abort point -/

/-- Settles O41: a command without draws does not read the request, and a candidate that needs no draw is tested alike. -/
theorem abortIsIgnoredWithoutAbortPoint : Obligations.AbortIsIgnoredWithoutAbortPoint := by
  unfold Obligations.AbortIsIgnoredWithoutAbortPoint
  rintro s i r (hd | ⟨b, rfl, hn, hdrawn⟩)
  · obtain ⟨t, ht⟩ := exists_next_of_exec i s
    obtain ⟨hidle, hdone, habort, -, hrng, -⟩ := finishes_of_not_draws hd ht
    have hkept : { t with rng := s.rng } = t := by rw [← hrng]
    have hsame := exec_abort_of_not_draws hd s r s.rng
    rw [ht, mapNext, hkept] at hsame
    exact ⟨t, hsame, ht, habort, hidle, hdone⟩
  · obtain ⟨v, hv⟩ := exists_millerRabin_of_small_or_even s.cfg.mrRounds hn
    exact ⟨_, exec_bprime_of_no_draw (s := { s with abortReq := r }) hdrawn hv, exec_bprime_of_no_draw hdrawn hv, rfl, rfl, rfl⟩

end Sys2Proof.Proofs

/-! Steps event by event: the sequencer's move, the draw by itself, the write that starts a command (10_state.md R20, R29;
20_memory.md R82), and an abort requested after a command's last draw (60_exceptions.md R275). -/

namespace Sys2Proof.Proofs

open Sys2Proof.Machine Sys2Proof.Laws

/-! ### The oldest event -/

/-- A step handles the oldest event. -/
theorem step_event (s : State) (e : Event) (es : List Event) :
    step { s with inputs := e :: es } = handleEvent e { s with inputs := es } := rfl

theorem runSequencer_running {s : State} (hrun : Running s) : runSequencer s = runCommand s := by
  simp only [runSequencer, hrun.1, hrun.2, Bool.not_true, Bool.false_eq_true, if_false]

theorem runSequencer_of_decode_ok {s : State} {i : Instr} (hrun : Running s) (hdec : decode s.cmd = .ok i) :
    runSequencer s = exec i s := (runSequencer_running hrun).trans (runCommand_of_decode_ok hdec)

theorem runSequencer_idle {s : State} (hrst : s.rstn = true) (hidle : s.seq = .idle) : runSequencer s = .next s := by
  simp only [runSequencer, hrst, hidle, Bool.not_true, Bool.false_eq_true, if_false]

/-- A running command awaits a word exactly when it would wait with none on offer. -/
theorem awaitsWord_iff_waits {s t : State} {i : Instr} (hrun : Running s) (hdec : decode s.cmd = .ok i)
    (hexec : exec i { s with rng := [] } = .next t) : awaitsWord s = true ↔ t.seq = .busy := by
  rw [awaitsWord_iff]
  constructor
  · rintro ⟨-, -, j, u, hdec', hexec', hu⟩
    obtain rfl : i = j := Except.ok.inj (hdec.symm.trans hdec')
    rwa [next_iff.mp (hexec'.symm.trans hexec)]
  · exact fun ht => ⟨hrun.1, hrun.2, i, t, hdec, hexec, ht⟩

theorem drawOne_of_cons {s : State} {w : Word} {ws : List Word} (hrng : s.rng = w :: ws) :
    drawOne s = if awaitsWord s = true then takeWord w ws s else s := by
  simp only [drawOne, hrng]

theorem drawOne_of_no_word_or_not_running {s : State} (h : s.rng = [] ∨ ¬ Running s) : drawOne s = s := by
  rcases drawOne_cases s with ⟨hsame, -⟩ | ⟨w, ws, hrng, hawaits, -⟩
  · exact hsame
  · obtain ⟨hrst, hbusy, -⟩ := awaitsWord_iff.mp hawaits
    rcases h with hempty | hnot
    · rw [hempty] at hrng
      cases hrng
    · exact absurd ⟨hrst, hbusy⟩ hnot

/-- Settles O6: each event's effect is its own, and a running command's move is `exec` of its decoded word. -/
theorem stepRunsTheDecodedCommand : Obligations.StepRunsTheDecodedCommand := by
  unfold Obligations.StepRunsTheDecodedCommand
  refine ⟨fun s i hrun hdec => ⟨fun es => runSequencer_of_decode_ok (s := { s with inputs := es }) hrun hdec,
      fun hin => (step_running hrun hin).trans (runCommand_of_decode_ok hdec)⟩,
    fun s es hrst hidle => runSequencer_idle (s := { s with inputs := es }) hrst hidle,
    fun s acc es => rfl, fun s w es => rfl, ?_, fun s es h => ?_⟩
  · intro s t i w ws es hrun hdec hrng hexec
    have hawaits := awaitsWord_iff_waits (s := { s with inputs := es }) hrun hdec hexec
    have hdraw := drawOne_of_cons (s := { s with inputs := es }) hrng
    simp only [step_event, handleEvent, hdraw]
    exact ⟨fun ht => by rw [if_pos (hawaits.mpr ht)]; rfl, fun ht => by rw [if_neg (hawaits.not.mpr ht)]⟩
  · exact congrArg _ (drawOne_of_no_word_or_not_running (s := { s with inputs := es }) h)

/-- A write to CMD while a command runs is dropped. -/
theorem write_cmd_not_idle {s : State} (w : Word) (hrst : s.rstn = true) (hbusy : s.seq ≠ .idle) :
    access (.write 0x0018 w 0xF) s = { s with wbusy := true, resp := .okay } := by
  refine write_dropped w hrst (accessTarget_of_scalarTarget (t := .cmd) rfl) ?_
  rintro (hidle | hwritable)
  · exact hbusy ((busy_eq_false_iff s).mp hidle)
  · cases hwritable

/-- Settles O8: CMD is written while Idle alone, and read in every phase. -/
theorem commandWriteStartsTheCommand : Obligations.CommandWriteStartsTheCommand := by
  unfold Obligations.CommandWriteStartsTheCommand
  exact fun s w hrst => ⟨write_cmd_idle w hrst, write_cmd_not_idle w hrst, read_scalar (t := .cmd) hrst rfl rfl⟩

/-! ### An abort after the last draw -/

/-- An abort pending after the last draw is not seen. -/
theorem withDraws_of_all_drawn {α : Type} {p : Draw α} {onAbort : State → Host.Outcome State Fault Refusal}
    {k : α → State → Host.Outcome State Fault Refusal} {s : State} {v : α} {rest : List Word} (habort : s.abortReq = true)
    (hp : p s.drawn = some (v, rest)) : withDraws p onAbort k s = k v s := by
  simp only [withDraws, habort, hp, if_true]

section EndsWithoutWord

variable {i : Instr} {s t : State} (hexec : exec i { s with rng := [] } = .next t)
include hexec

/-- A command without draws ends alike on any words. -/
theorem exec_abort_of_ends_not_draws (hd : draws i = false) :
    exec i { s with abortReq := true } = .next { t with rng := s.rng } := by
  obtain ⟨u, hu⟩ := exists_next_of_exec i s
  have hnone := exec_abort_of_not_draws hd s s.abortReq []
  have hall := exec_abort_of_not_draws hd s true s.rng
  rw [hu, mapNext] at hnone hall
  rw [next_iff.mp (hnone.symm.trans hexec)]
  exact hall

variable (hbusy : s.seq = .busy) (habort : s.abortReq = false) (hidle : t.seq = .idle)
include hbusy habort hidle

/-- A drawing part that needs no word on offer has its value from the words drawn. -/
theorem exec_abort_of_ends_draws (hd : draws i = true) :
    exec i { s with abortReq := true } = .next { t with rng := s.rng } := by
  rcases drawing_shape i hd s with ⟨c, -, h⟩ | ⟨α, p, k, -, hk, hfree, hrng, h⟩
  · have hnone := (h s.abortReq s.drawn [] s.rngPos).symm.trans hexec
    have hall := h true s.drawn s.rng s.rngPos
    split at hnone
    · rw [if_pos ‹_›] at hall
      rw [raiseBufErr_next.mp hnone]
      exact hall
    · rw [if_neg ‹_›] at hall
      rw [raiseErr_next.mp hnone]
      exact hall
  · have hnone := (h s.abortReq s.drawn [] s.rngPos).symm.trans hexec
    rcases withDraws_cases hnone with ⟨ha, -, -⟩ | ⟨-, -, ha, -, -⟩ | ⟨-, -, he⟩ | ⟨v, rest, -, hp, he⟩
    · exact absurd (habort.symm.trans ha) (by decide)
    · exact absurd (habort.symm.trans ha) (by decide)
    · rw [next_iff.mp he.symm, waitForWord_seq] at hidle
      exact absurd (hbusy.symm.trans hidle) (by decide)
    · obtain ⟨u, hu, -, -, -, -, hurng, hupos, -⟩ := hk v s
      have ht := hrng v s rest (s.rngPos + (0 - rest.length))
      rw [hu, mapNext] at ht
      rw [next_iff.mp (he.trans ht).symm]
      have hsame : ({ u with rng := s.rng, rngPos := s.rngPos + (0 - rest.length) } : State) = u := by
        rw [Nat.zero_sub, Nat.add_zero, ← hurng, ← hupos]
      rw [List.append_nil] at hp
      calc exec i { s with abortReq := true }
          = k v { s with abortReq := true } := (h true s.drawn s.rng s.rngPos).trans (withDraws_of_all_drawn rfl hp)
        _ = .next u := (hfree v s true s.drawn).trans hu
        _ = .next _ := congrArg _ hsame.symm

/-- A command that ends without another word ends alike with an abort pending, and takes no word. -/
theorem exec_abort_of_ends_without_word : exec i { s with abortReq := true } = .next { t with rng := s.rng } := by
  cases hd : draws i with
  | false => exact exec_abort_of_ends_not_draws hexec hd
  | true => exact exec_abort_of_ends_draws hexec hbusy habort hidle hd

end EndsWithoutWord

theorem abortReq_of_exec {i : Instr} {s t : State} (habort : s.abortReq = false) (hexec : exec i s = .next t) :
    t.abortReq = false := by
  cases moveEnds_of_exec hexec with
  | waits => exact habort
  | fails => rfl
  | completes => rfl

/-- A write to CTRL with bit 1 set while Busy requests the abort. -/
theorem write_ctrl_abort {s : State} {v : Word} (hrun : Running s) (hv : v.getLsbD 1 = true) :
    access (.write 0x0010 v 0xF) s = { s with ie := v.getLsbD 0, abortReq := true, resp := .okay } := by
  have hreq : (s.abortReq || (v.getLsbD 1 && s.seq == .busy)) = true := by simp [hv, hrun.2]
  rw [write_ctrl v hrun.1, writeCtrl, hreq]

/-- Settles O40: the write sets the request, STATUS still reads BUSY, and the command, which needs no word, does not see the
request. -/
theorem abortAfterTheLastDrawIsIgnored : Obligations.AbortAfterTheLastDrawIsIgnored := by
  unfold Obligations.AbortAfterTheLastDrawIsIgnored
  intro s t i v es hrun hdec habort hv hexec hidle
  obtain ⟨hrst, hbusy⟩ := hrun
  have hwrite := write_ctrl_abort (s := { s with inputs := .bus (.read 0x0014) :: .sequencer :: es }) ⟨hrst, hbusy⟩ hv
  have hread := read_scalar (t := .status) (a := 0x0014) (s := { s with
    ie := v.getLsbD 0, abortReq := true, inputs := .sequencer :: es, resp := .okay }) hrst rfl rfl
  obtain ⟨d, hd⟩ : ∃ d, statusWord { s with
    ie := v.getLsbD 0, abortReq := true, inputs := .sequencer :: es, resp := .okay } = d := ⟨_, rfl⟩
  have hbit : d.getLsbD 0 = true := by
    rw [← hd, (getLsbD_statusWord _).1, busy, hbusy]
    rfl
  have hmove : exec i (withHost { s with abortReq := true } (v.getLsbD 0) (.data d) es) =
      .next (withHost { t with rng := s.rng } (v.getLsbD 0) (.data d) es) := by
    rw [exec_withHost, exec_abort_of_ends_without_word hexec hbusy habort hidle, mapNext]
  rw [readTarget, hd] at hread
  exact ⟨_, _, d, congrArg _ hwrite, hbusy, rfl, congrArg _ hread, rfl, hbit, hbusy, rfl,
    (runSequencer_of_decode_ok (s := withHost { s with abortReq := true } (v.getLsbD 0) (.data d) es) ⟨hrst, hbusy⟩ hdec).trans
      hmove, abortReq_of_exec (s := { s with rng := [] }) habort hexec⟩

end Sys2Proof.Proofs

/-! What commands do not read: RK while no symmetric key is bound (10_state.md R38), and DONE and WBUSY, so that an access in the
cycle of a finish leaves the finish as it is (60_exceptions.md R270). -/

namespace Sys2Proof.Proofs

open Sys2Proof.Machine Sys2Proof.Laws

/-! ### RK while no symmetric key is bound -/

/-- The second outcome is the first but for RK. -/
def SameButRk (o o' : Host.Outcome State Fault Refusal) : Prop := ∃ rk, o' = mapNext (fun t => { t with rk := rk }) o

theorem sameButRk_ite {c c' : Prop} [Decidable c] [Decidable c'] {a b a' b' : Host.Outcome State Fault Refusal} (hc : c ↔ c')
    (ha : SameButRk a a') (hb : SameButRk b b') : SameButRk (if c then a else b) (if c' then a' else b') := by
  by_cases h : c
  · rwa [if_pos h, if_pos (hc.mp h)]
  · rwa [if_neg h, if_neg (hc.not.mp h)]

theorem sameButRk_withDraws {α : Type} {p : Draw α} {onAbort : State → Host.Outcome State Fault Refusal}
    {k : α → State → Host.Outcome State Fault Refusal} {rk : RoundKeys}
    (habort : ∀ u, SameButRk (onAbort u) (onAbort { u with rk := rk }))
    (hk : ∀ v u, SameButRk (k v u) (k v { u with rk := rk }))
    (s : State) : SameButRk (withDraws p onAbort k s) (withDraws p onAbort k { s with rk := rk }) := by
  refine sameButRk_ite .rfl ?_ ?_
  · dsimp only
    split
    · exact habort s
    · exact hk _ s
  · dsimp only
    split
    · exact ⟨rk, rfl⟩
    · exact hk _ (takeAllBut _ s)

/-- With no symmetric key bound a command reads RK nowhere: those that would end with MissingKey. -/
theorem sameButRk_exec (i : Instr) {s : State} (hvalid : s.keyValid = false) (rk : RoundKeys) :
    SameButRk (exec i s) (exec i { s with rk := rk }) := by
  have hvalid' : ({ s with rk := rk } : State).keyValid = false := hvalid
  cases i with
  | nop | gfmul | xtime | sbox | invsbox | subbytes | invsubbytes | shiftrows | invshiftrows | mixcolumns | invmixcolumns
  | keyunbind | bmul => exact ⟨rk, rfl⟩
  | addroundkey j =>
    rw [exec_addroundkey_of_not_keyValid hvalid, exec_addroundkey_of_not_keyValid hvalid']
    exact ⟨rk, rfl⟩
  | aesenc =>
    rw [exec_aesenc_of_not_keyValid hvalid, exec_aesenc_of_not_keyValid hvalid']
    exact ⟨rk, rfl⟩
  | aesdec =>
    rw [exec_aesdec_of_not_keyValid hvalid, exec_aesdec_of_not_keyValid hvalid']
    exact ⟨rk, rfl⟩
  | cbcenc src =>
    rw [exec_cbcenc_of_not_keyValid src hvalid, exec_cbcenc_of_not_keyValid src hvalid']
    exact ⟨rk, rfl⟩
  | cbcdec =>
    rw [exec_cbcdec_of_not_keyValid hvalid, exec_cbcdec_of_not_keyValid hvalid']
    exact ⟨rk, rfl⟩
  | keybind m =>
    refine sameButRk_ite .rfl ⟨rk, rfl⟩ (sameButRk_ite .rfl ⟨rk, rfl⟩ ?_)
    cases m.sym with
    | false => exact ⟨rk, rfl⟩
    | true => exact ⟨keyExpansion s.key, rfl⟩
  | symkeygen =>
    exact sameButRk_ite .rfl ⟨rk, rfl⟩
      (sameButRk_withDraws (fun _ => ⟨rk, rfl⟩) (fun ws _ => ⟨keyExpansion (blockOfWords ws), rfl⟩) s)
  | bmodexp => exact sameButRk_ite .rfl ⟨rk, rfl⟩ ⟨rk, rfl⟩
  | bmodinv => exact sameButRk_ite .rfl ⟨rk, rfl⟩ (sameButRk_ite .rfl ⟨rk, rfl⟩ ⟨rk, rfl⟩)
  | bprime b =>
    exact sameButRk_withDraws (p := millerRabin s.cfg.mrRounds (xRead s b)) (k := fun r t => complete { t with prime := r })
      (fun _ => ⟨rk, rfl⟩) (fun _ _ => ⟨rk, rfl⟩) s
  | brandprime a =>
    exact sameButRk_ite .rfl ⟨rk, rfl⟩ (sameButRk_withDraws (k := fun p t => complete (xWrite a p t)) (fun _ => ⟨rk, rfl⟩)
      (fun _ _ => ⟨rk, rfl⟩) s)
  | rsakeygen a b c =>
    exact sameButRk_ite .rfl ⟨rk, rfl⟩ (sameButRk_withDraws (k := rsakeygenCommit a b c) (fun _ => ⟨rk, rfl⟩)
      (fun _ _ => sameButRk_ite .rfl ⟨rk, rfl⟩ ⟨rk, rfl⟩) s)
  | rsaenc =>
    exact sameButRk_ite .rfl ⟨rk, rfl⟩ (sameButRk_ite .rfl ⟨rk, rfl⟩ (sameButRk_ite .rfl ⟨rk, rfl⟩
      (sameButRk_ite .rfl ⟨rk, rfl⟩ ⟨rk, rfl⟩)))
  | rsadec =>
    refine sameButRk_ite .rfl ⟨rk, rfl⟩ (sameButRk_ite .rfl ⟨rk, rfl⟩ (sameButRk_ite .rfl ⟨rk, rfl⟩ ?_))
    dsimp only [inBytes, inLenNat]
    split
    · exact ⟨rk, rfl⟩
    · exact ⟨rk, rfl⟩

/-- Settles O60: the two outcomes are the same but for RK. -/
theorem unboundRoundKeysAreNotUsed : Obligations.UnboundRoundKeysAreNotUsed := by
  unfold Obligations.UnboundRoundKeysAreNotUsed
  intro s t i rk hvalid hexec
  obtain ⟨rk', hsame⟩ := sameButRk_exec i hvalid rk
  rw [hexec] at hsame
  exact ⟨rk', hsame⟩

/-! ### DONE and WBUSY -/

/-- DONE and WBUSY as the host may leave them. -/
abbrev withFlags (s : State) (done wbusy : Bool) : State := { s with done := done, wbusy := wbusy }

/-- DONE after a move: a finish sets it, a waiting command leaves it (60_exceptions.md R264). -/
def doneAfterMove : Seq → Bool → Bool
  | .idle, _ => true
  | .busy, d => d
  | .init, d => d

/-- The end of a move from a state whose DONE was `done` and whose WBUSY was `wbusy`. -/
abbrev movedFlags (done wbusy : Bool) (t : State) : State := withFlags t (doneAfterMove t.seq done) wbusy

theorem withDraws_withFlags {α : Type} {p : Draw α} {onAbort : State → Host.Outcome State Fault Refusal}
    {k : α → State → Host.Outcome State Fault Refusal} {d w : Bool}
    (habort : ∀ u, onAbort (withFlags u d w) = mapNext (movedFlags d w) (onAbort u))
    (hk : ∀ v u, k v (withFlags u d w) = mapNext (movedFlags d w) (k v u)) {s : State} (hbusy : s.seq = .busy) :
    withDraws p onAbort k (withFlags s d w) = mapNext (movedFlags d w) (withDraws p onAbort k s) := by
  refine ite_mapNext .rfl ?_ ?_
  · dsimp only
    split
    · exact habort s
    · exact hk _ s
  · dsimp only
    split
    · simp only [mapNext, movedFlags, waitForWord, doneAfterMove, hbusy]
    · exact hk _ (takeAllBut _ s)

theorem cbcencCommit_withFlags (iv : Block) (u : State) (d w : Bool) :
    cbcencCommit iv (withFlags u d w) = mapNext (movedFlags d w) (cbcencCommit iv u) := by
  simp only [cbcencCommit, complete, mapNext, finish, writeOut, inBytes, inLenNat, movedFlags, doneAfterMove]

/-- No command reads DONE or WBUSY; its finish sets DONE and leaves WBUSY. -/
theorem exec_withFlags (i : Instr) {s : State} (hbusy : s.seq = .busy) (d w : Bool) :
    exec i (withFlags s d w) = mapNext (movedFlags d w) (exec i s) := by
  cases i with
  | nop | gfmul | xtime | sbox | invsbox | subbytes | invsubbytes | shiftrows | invshiftrows | mixcolumns | invmixcolumns
  | keyunbind | bmul => rfl
  | addroundkey | aesenc | aesdec | bmodexp => exact ite_mapNext .rfl rfl rfl
  | keybind m =>
    refine ite_mapNext .rfl rfl (ite_mapNext .rfl rfl ?_)
    cases m.sym with
    | false => rfl
    | true => rfl
  | symkeygen => exact ite_mapNext .rfl rfl (withDraws_withFlags (fun _ => rfl) (fun _ _ => rfl) hbusy)
  | cbcenc src =>
    refine ite_mapNext .rfl rfl (ite_mapNext .rfl rfl (ite_mapNext .rfl rfl ?_))
    cases src with
    | rng => exact withDraws_withFlags (fun _ => rfl) (fun ws u => cbcencCommit_withFlags (blockOfWords ws) u d w) hbusy
    | ivreg => exact cbcencCommit_withFlags s.iv s d w
  | cbcdec =>
    refine ite_mapNext .rfl rfl (ite_mapNext .rfl rfl (ite_mapNext .rfl rfl (ite_mapNext .rfl rfl ?_)))
    simp only [complete, mapNext, finish, writeOut, inBytes, inLenNat, movedFlags, doneAfterMove]
  | bmodinv => exact ite_mapNext .rfl rfl (ite_mapNext .rfl rfl rfl)
  | bprime b =>
    exact withDraws_withFlags (p := millerRabin s.cfg.mrRounds (xRead s b)) (k := fun r t => complete { t with prime := r })
      (fun _ => rfl) (fun _ _ => rfl) hbusy
  | brandprime a =>
    exact ite_mapNext .rfl rfl (withDraws_withFlags (k := fun p t => complete (xWrite a p t)) (fun _ => rfl)
      (fun _ _ => rfl) hbusy)
  | rsakeygen a b c =>
    exact ite_mapNext .rfl rfl (withDraws_withFlags (k := rsakeygenCommit a b c) (fun _ => rfl)
      (fun _ _ => ite_mapNext .rfl rfl rfl) hbusy)
  | rsaenc =>
    refine ite_mapNext .rfl rfl (ite_mapNext .rfl rfl (ite_mapNext .rfl rfl (ite_mapNext .rfl rfl ?_)))
    simp only [complete, mapNext, finish, writeOut, inBytes, inLenNat, movedFlags, doneAfterMove]
  | rsadec =>
    refine ite_mapNext .rfl rfl (ite_mapNext .rfl rfl (ite_mapNext .rfl rfl ?_))
    dsimp only [inBytes, inLenNat]
    split
    · rfl
    · rfl

/-! ### The cycle of a finish -/

section Finish

variable {s t : State} (hrun : Running s) (hmove : runSequencer s = .next t) (hidle : t.seq = .idle)
include hrun hmove hidle

/-- A finishing move clears the abort request and leaves CMD. -/
theorem abortReq_cmd_of_finish : t.abortReq = false ∧ t.cmd = s.cmd := by
  rcases runSequencer_cases hmove with ⟨h | h, -⟩ | ⟨-, h, -⟩ | ⟨-, -, e, -, rfl⟩ | ⟨-, -, i, -, hexec⟩
  · exact absurd (hrun.1.symm.trans h) (by decide)
  · exact absurd (hrun.2.symm.trans h) (by decide)
  · exact absurd (hrun.2.symm.trans h) (by decide)
  · exact ⟨rfl, rfl⟩
  · refine ⟨?_, (keepsOthers_of_exec hexec).unwritten.1⟩
    cases moveEnds_of_exec hexec with
    | waits =>
      rw [waitForWord_seq, hrun.2] at hidle
      cases hidle
    | fails => rfl
    | completes => rfl

/-- A finishing move finishes alike whatever DONE, WBUSY, IE, the last answer and the events to come are. -/
theorem runSequencer_withFlags_withHost (d w e : Bool) (r : BusResponse) (es : List Event) :
    runSequencer (withHost (withFlags s d w) e r es) = .next (withHost (withFlags t true w) e r es) := by
  have hrun' : Running (withHost (withFlags s d w) e r es) := hrun
  rw [runSequencer_running hrun] at hmove
  rw [runSequencer_running hrun']
  rcases hdec : decode s.cmd with err | i
  · rw [next_iff.mp ((runCommand_of_decode_error hdec).symm.trans hmove),
      runCommand_of_decode_error (s := withHost (withFlags s d w) e r es) hdec]
    rfl
  · rw [runCommand_of_decode_ok hdec] at hmove
    rw [runCommand_of_decode_ok (s := withHost (withFlags s d w) e r es) hdec, exec_withHost, exec_withFlags i hrun.2, hmove,
      mapNext, mapNext, movedFlags, hidle]
    rfl

/-- An access in the cycle of a finish, of which the finish sees DONE, WBUSY, IE and the answer. -/
theorem step_busAtFinish {acc : Access} {d w e : Bool} {r : BusResponse} {es : List Event}
    (haccess : { access acc { s with inputs := es } with abortReq := s.abortReq } = withHost (withFlags s d w) e r es) :
    step { s with inputs := .busAtFinish acc :: es } = .next (withHost (withFlags t true w) e r es) := by
  have hbusy : ¬ (!busy { s with inputs := es }) = true := by simp [busy, hrun.2]
  have hnot : ¬ busy (withHost (withFlags t true w) e r es) = true := by simp [busy, hidle]
  rw [step_event, handleEvent, accessAtFinish, if_neg hbusy, haccess, runSequencer_withFlags_withHost hrun hmove hidle]
  exact congrArg _ (if_neg hnot)

end Finish

/-- Settles O53: each access is an ordinary access while Busy, and the finish goes on top of it. -/
theorem coincidentFinish : Obligations.CoincidentFinish := by
  unfold Obligations.CoincidentFinish
  intro s t es v hrst hbusy hmove hidle
  obtain ⟨habort, hcmd⟩ := abortReq_cmd_of_finish ⟨hrst, hbusy⟩ hmove hidle
  have hstatus : { access (.write 0x0014 v 0xF) { s with inputs := es } with abortReq := s.abortReq } =
      withHost (withFlags s (s.done && !v.getLsbD 1) (s.wbusy && !v.getLsbD 2)) s.ie .okay es := by
    rw [write_status (s := { s with inputs := es }) v hrst]
    rfl
  have hctrl : { access (.write 0x0010 v 0xF) { s with inputs := es } with abortReq := s.abortReq } =
      withHost (withFlags s s.done s.wbusy) (v.getLsbD 0) .okay es := by
    rw [write_ctrl (s := { s with inputs := es }) v hrst]
    rfl
  have hdropped : { access (.write 0x0018 v 0xF) { s with inputs := es } with abortReq := s.abortReq } =
      withHost (withFlags s s.done true) s.ie .okay es := by
    rw [write_cmd_not_idle (s := { s with inputs := es }) v hrst (by rw [hbusy]; decide)]
  exact ⟨⟨_, step_busAtFinish ⟨hrst, hbusy⟩ hmove hidle hstatus, rfl, rfl, hidle, rfl⟩,
    ⟨_, step_busAtFinish ⟨hrst, hbusy⟩ hmove hidle hctrl, habort, rfl, hidle, rfl, rfl⟩,
    ⟨_, step_busAtFinish ⟨hrst, hbusy⟩ hmove hidle hdropped, rfl, hcmd, hidle, rfl, rfl⟩⟩

end Sys2Proof.Proofs

/-! The register map both ways, and the windows of the host bus: what their words read as, bit by bit, and what a write of one
leaves of the others (10_state.md R21, R45 to R47; 20_memory.md R75, R77). -/

namespace Sys2Proof.Proofs

open Sys2Proof.Machine Sys2Proof.Laws

/-! ### The offset of a target -/

/-- The offset of a big-integer register's slot (10_state.md R21). -/
def bigBase : BigReg → Nat
  | .x i => 0x4000 + 0x200 * i.val
  | .pubE => 0x5000
  | .pubN => 0x5200
  | .privD => 0x5400
  | .privN => 0x5600

/-- The offset at which the register map holds a target (10_state.md R21). -/
def offsetOf : Target → Nat
  | .id => 0x0000
  | .cfg0 => 0x0004
  | .cfg1 => 0x0008
  | .cfg2 => 0x000C
  | .ctrl => 0x0010
  | .status => 0x0014
  | .cmd => 0x0018
  | .arg => 0x001C
  | .inLen => 0x0020
  | .outLen => 0x0024
  | .opa => 0x0028
  | .opb => 0x002C
  | .res => 0x0030
  | .iv j => 0x0040 + 4 * j
  | .key j => 0x0050 + 4 * j
  | .state j => 0x0060 + 4 * j
  | .rk k j => 0x0100 + 16 * k.val + 4 * j
  | .inBuf a => a
  | .outBuf a => a
  | .big r j => bigBase r + 4 * j

theorem offsetOf_of_scalarTarget {a : Nat} {t : Target} (h : scalarTarget a = some t) : a = offsetOf t := by
  unfold scalarTarget at h
  split at h
  case h_14 => cases h
  all_goals
    obtain rfl := Option.some.inj h
    rfl

theorem offsetOf_of_bigSlotTarget {c : Config} {a : Nat} {t : Target} (ha : a % 4 = 0) (hlow : 0x4000 ≤ a)
    (h : bigSlotTarget c a = some t) : a = offsetOf t := by
  obtain ⟨r, o, rfl, -, hslot⟩ := bigSlotTarget_cases h
  rcases hslot with ⟨h1, hr, ho⟩ | ⟨h1, -, hr, ho⟩ | ⟨h1, -, hr, ho⟩ | ⟨h1, -, hr, ho⟩ | ⟨h1, -, hr, ho⟩
  · rw [hr, ho, offsetOf, bigBase, Fin.val_ofNat]
    omega
  all_goals
    rw [hr, ho, offsetOf, bigBase]
    omega

/-- A mapped word stands at its target's offset. -/
theorem offsetOf_of_targetAt {c : Config} {a : Nat} {t : Target} (ha : a % 4 = 0) (h : targetAt c a = some t) :
    a = offsetOf t := by
  rcases targetAt_cases h with ⟨-, hl⟩ | ⟨-, -, rfl⟩ | ⟨-, -, rfl⟩ | ⟨hlow, hb⟩
  · rcases lowTarget_cases hl with ⟨-, hs⟩ | ⟨h1, -, rfl⟩ | ⟨h1, -, rfl⟩ | ⟨h1, -, rfl⟩ | ⟨h1, h2, rfl⟩
    · exact offsetOf_of_scalarTarget hs
    all_goals
      simp only [offsetOf, Fin.ofNat]
      omega
  · rfl
  · rfl
  · exact offsetOf_of_bigSlotTarget ha hlow hb

theorem bigTarget_of_lt {c : Config} (r : BigReg) {o j : Nat} (ho : o < c.bigBits / 8) (hj : o = 4 * j) :
    bigTarget c r o = some (.big r j) := by
  rw [bigTarget, if_pos ho, hj, Nat.mul_div_cancel_left _ (by decide)]

theorem bigSlotTarget_of_eq {c : Config} (hc : c.Legal) (r : BigReg) {a j : Nat} (hj : 4 * j < c.bigBits / 8)
    (ha : a = bigBase r + 4 * j) : bigSlotTarget c a = some (.big r j) := by
  obtain ⟨-, ⟨-, -, hmax⟩, -⟩ := hc
  unfold bigSlotTarget
  cases r with
  | x i =>
    have ha : a = 0x4000 + 0x200 * i.val + 4 * j := ha
    have hslot : Fin.ofNat 8 ((a - 0x4000) / 0x200) = i := by
      apply Fin.ext
      rw [Fin.val_ofNat]
      omega
    rw [if_pos (by omega), hslot]
    exact bigTarget_of_lt _ (by omega) (by omega)
  | pubE =>
    have ha : a = 0x5000 + 4 * j := ha
    rw [if_neg (by omega), if_pos (by omega)]
    exact bigTarget_of_lt _ (by omega) (by omega)
  | pubN =>
    have ha : a = 0x5200 + 4 * j := ha
    rw [if_neg (by omega), if_neg (by omega), if_pos (by omega)]
    exact bigTarget_of_lt _ (by omega) (by omega)
  | privD =>
    have ha : a = 0x5400 + 4 * j := ha
    rw [if_neg (by omega), if_neg (by omega), if_neg (by omega), if_pos (by omega)]
    exact bigTarget_of_lt _ (by omega) (by omega)
  | privN =>
    have ha : a = 0x5600 + 4 * j := ha
    rw [if_neg (by omega), if_neg (by omega), if_neg (by omega), if_neg (by omega), if_pos (by omega)]
    exact bigTarget_of_lt _ (by omega) (by omega)

theorem bigBase_bounds (r : BigReg) : 0x4000 ≤ bigBase r ∧ bigBase r < 0x5800 := by
  cases r with
  | x i => rw [bigBase]; omega
  | pubE | pubN | privD | privN => rw [bigBase]; omega

theorem bigBase_aligned (r : BigReg) : bigBase r % 4 = 0 := by
  cases r with
  | x i => rw [bigBase]; omega
  | pubE | pubN | privD | privN => rfl

/-- The register map holds each target that is in range at its offset. -/
theorem targetAt_of_eq_offsetOf {c : Config} (hc : c.Legal) {a : Nat} {t : Target} (ht : TargetInRange c t)
    (ha : a = offsetOf t) : targetAt c a = some t := by
  obtain ⟨⟨-, -, hbuf⟩, -⟩ := id hc
  unfold targetAt inBase outBase
  cases t with
  | id | cfg0 | cfg1 | cfg2 | ctrl | status | cmd | arg | inLen | outLen | opa | opb | res =>
    subst ha
    rfl
  | iv j =>
    have ht : j < 4 := ht
    have ha : a = 0x0040 + 4 * j := ha
    rw [if_pos (by omega), lowTarget, if_neg (by omega), if_pos (by omega), show (a - 0x0040) / 4 = j by omega]
  | key j =>
    have ht : j < 4 := ht
    have ha : a = 0x0050 + 4 * j := ha
    rw [if_pos (by omega), lowTarget, if_neg (by omega), if_neg (by omega), if_pos (by omega),
      show (a - 0x0050) / 4 = j by omega]
  | state j =>
    have ht : j < 4 := ht
    have ha : a = 0x0060 + 4 * j := ha
    rw [if_pos (by omega), lowTarget, if_neg (by omega), if_neg (by omega), if_neg (by omega), if_pos (by omega),
      show (a - 0x0060) / 4 = j by omega]
  | rk k j =>
    have ht : j < 4 := ht
    have ha : a = 0x0100 + 16 * k.val + 4 * j := ha
    have hk : Fin.ofNat 11 ((a - 0x0100) / 16) = k := by
      apply Fin.ext
      rw [Fin.val_ofNat]
      omega
    rw [if_pos (by omega), lowTarget, if_neg (by omega), if_neg (by omega), if_neg (by omega), if_neg (by omega),
      if_neg (by omega), if_pos (by omega), hk, show (a - 0x0100) % 16 / 4 = j by omega]
  | inBuf b =>
    obtain ⟨h1, h2⟩ : 0x1000 ≤ b ∧ b < 0x1000 + c.bufBytes := ht
    have ha : a = b := ha
    rw [if_neg (by omega), if_pos (by omega), if_pos (by omega), ha]
  | outBuf b =>
    obtain ⟨h1, h2⟩ : 0x2000 ≤ b ∧ b < 0x2000 + c.bufBytes := ht
    have ha : a = b := ha
    rw [if_neg (by omega), if_neg (by omega), if_pos (by omega), if_pos (by omega), ha]
  | big r j =>
    have ha : a = bigBase r + 4 * j := ha
    obtain ⟨hlow, -⟩ := bigBase_bounds r
    rw [if_neg (by omega), if_neg (by omega), if_neg (by omega), if_neg (by omega)]
    exact bigSlotTarget_of_eq hc r ht ha

theorem accessTarget_eq_some_iff {c : Config} (hc : c.Legal) {a : Addr} (ha : a.toNat % 4 = 0) {t : Target} :
    accessTarget c a = some t ↔ TargetInRange c t ∧ a.toNat = offsetOf t := by
  rw [accessTarget, if_neg (not_not.mpr ha)]
  exact ⟨fun h => ⟨targetAt_inRange h, offsetOf_of_targetAt ha h⟩, fun ⟨ht, he⟩ => targetAt_of_eq_offsetOf hc ht he⟩

/-! ### The bits of a word -/

/-- A word of four bytes, bit by bit (20_memory.md R75). -/
theorem getLsbD_wordOfBytes (f : Nat → Byte) {k : Nat} (hk : k < 32) :
    (wordOfBytes (f 0) (f 1) (f 2) (f 3)).getLsbD k = (f (k / 8)).getLsbD (k % 8) := by
  obtain ⟨q, r, hq, hr, rfl⟩ : ∃ q r, q < 4 ∧ r < 8 ∧ k = 8 * q + r := ⟨k / 8, k % 8, by omega, by omega, by omega⟩
  rw [show (8 * q + r) / 8 = q by omega, show (8 * q + r) % 8 = r by omega]
  simp only [wordOfBytes, BitVec.getLsbD_append]
  interval_cases q
  · rw [if_pos (by omega)]
    simp
  · rw [if_neg (by omega), if_pos (by omega)]
    congr 1
    omega
  · rw [if_neg (by omega), if_neg (by omega), if_pos (by omega)]
    congr 1
    omega
  · rw [if_neg (by omega), if_neg (by omega), if_neg (by omega)]
    congr 1
    omega

theorem getLsbD_memReadWord (m : Memory) (a : Nat) {k : Nat} (hk : k < 32) :
    (memReadWord m a).getLsbD k = (memRead m (a + k / 8)).getLsbD (k % 8) :=
  getLsbD_wordOfBytes (fun i => memRead m (a + i)) hk

/-- The word of a window of 16 bytes, from the offset of the byte its bit stands in. -/
theorem getLsbD_blockWord {b : Block} {j k : Nat} {i : Fin 16} (hk : k < 32) (h : 4 * j + k / 8 = i.val) :
    (blockWord b j).getLsbD k = b[i].getLsbD (k % 8) := by
  have hword := getLsbD_wordOfBytes (fun n => b.toList.getD (4 * j + n) 0) hk
  have hbyte : b.toList.getD i.val 0 = b[i] := by
    rw [List.getD_eq_getElem _ _ (by rw [Vector.length_toList]; exact i.isLt), Vector.getElem_toList]
    rfl
  rwa [h, hbyte] at hword

/-! ### What a read of a window gives -/

theorem eq_readTarget {s : State} {a : Addr} {w : Word} {t : Target} (hrst : s.rstn = true) (hc : s.cfg.Legal)
    (ha : a.toNat % 4 = 0) (hread : (access (.read a) s).resp = .data w) (ht : TargetInRange s.cfg t)
    (hoff : a.toNat = offsetOf t) (hphase : busy s = false ∨ readableWhileBusy t = true) : w = readTarget s t := by
  rw [read_mapped hrst ((accessTarget_eq_some_iff hc ha).mpr ⟨ht, hoff⟩) hphase] at hread
  exact (BusResponse.data.inj hread).symm

/-- A read of a window of 16 bytes at `base`, of which `window j` is the target of word j: bit by bit. -/
theorem getLsbD_read_window {s : State} {a : Addr} {w : Word} {b : Block} {window : Nat → Target} {base k : Nat} {i : Fin 16}
    (hrst : s.rstn = true) (hidle : s.seq = .idle) (hc : s.cfg.Legal) (ha : a.toNat % 4 = 0)
    (hread : (access (.read a) s).resp = .data w) (hk : k < 32) (hbase : base % 4 = 0)
    (hrange : ∀ j, j < 4 → TargetInRange s.cfg (window j)) (hoffset : ∀ j, offsetOf (window j) = base + 4 * j)
    (hword : ∀ j, readTarget s (window j) = blockWord b j) (hoff : a.toNat + k / 8 = base + i.val) :
    w.getLsbD k = b[i].getLsbD (k % 8) := by
  have hplace : a.toNat = offsetOf (window ((a.toNat - base) / 4)) := by rw [hoffset]; omega
  rw [eq_readTarget hrst hc ha hread (hrange _ (by omega)) hplace (.inl ((busy_eq_false_iff s).mpr hidle)), hword]
  exact getLsbD_blockWord hk (by omega)

/-- Settles O45: the offset names the word of the window, and the word's lanes are the bytes or bits of the register. -/
theorem windowReads : Obligations.WindowReads := by
  unfold Obligations.WindowReads
  intro s a w hrst hc ha hread k hk
  obtain ⟨⟨hbuf16, -, -⟩, ⟨hbig32, -, -⟩, -⟩ := id hc
  have hbig : ∀ (r : BigReg) (i : Nat), s.seq = .idle → i < s.cfg.bigBits → a.toNat * 8 + k = bigBase r * 8 + i →
      w.getLsbD k = (bigRead s r).testBit i := by
    intro r i hidle hi hoff
    have hbase : bigBase r % 4 = 0 := bigBase_aligned r
    have hword := eq_readTarget (t := .big r ((a.toNat - bigBase r) / 4)) hrst hc ha hread
      (show 4 * ((a.toNat - bigBase r) / 4) < s.cfg.bigBits / 8 by omega)
      (show a.toNat = bigBase r + 4 * ((a.toNat - bigBase r) / 4) by omega) (.inl ((busy_eq_false_iff s).mpr hidle))
    rw [hword, readTarget, getLsbD_bigWord _ _ _ hk]
    congr 1
    omega
  refine ⟨fun i hi hoff => ?_, fun hidle => ⟨fun i => ⟨fun hoff => ?_, fun hoff => ?_, fun hoff => ?_, fun j hoff => ?_⟩,
    fun i hi hoff => ?_, fun i hi => ⟨fun r => hbig (.x r) i hidle hi, hbig .pubE i hidle hi, hbig .pubN i hidle hi,
      hbig .privD i hidle hi, hbig .privN i hidle hi⟩⟩⟩
  · rw [eq_readTarget (t := .inBuf a.toNat) hrst hc ha hread
      (show 0x1000 ≤ a.toNat ∧ a.toNat < 0x1000 + s.cfg.bufBytes by omega) rfl (.inr rfl), readTarget,
      getLsbD_memReadWord _ _ hk, hoff]
    rfl
  · exact getLsbD_read_window (window := .iv) hrst hidle hc ha hread hk (by decide) (fun _ => id) (fun _ => rfl) (fun _ => rfl)
      hoff
  · exact getLsbD_read_window (window := .key) hrst hidle hc ha hread hk (by decide) (fun _ => id) (fun _ => rfl) (fun _ => rfl)
      hoff
  · exact getLsbD_read_window (window := .state) hrst hidle hc ha hread hk (by decide) (fun _ => id) (fun _ => rfl) (fun _ => rfl)
      hoff
  · exact getLsbD_read_window (window := .rk j) hrst hidle hc ha hread hk (by omega) (fun _ => id) (fun _ => rfl) (fun _ => rfl)
      hoff
  · rw [eq_readTarget (t := .outBuf a.toNat) hrst hc ha hread
      (show 0x2000 ≤ a.toNat ∧ a.toNat < 0x2000 + s.cfg.bufBytes by omega) rfl (.inl ((busy_eq_false_iff s).mpr hidle)),
      readTarget, getLsbD_memReadWord _ _ hk, hoff]
    rfl

end Sys2Proof.Proofs

/-! Writes of the host to registers and windows: the word written reads back, no other word changes, and the valid bits that a
write clears (10_state.md R30 to R47; 20_memory.md R77). -/

namespace Sys2Proof.Proofs

open Sys2Proof.Machine Sys2Proof.Laws

/-! ### The targets that a write only stores to -/

/-- The targets of the registers and windows that a host write only stores to (10_state.md R21). -/
def storesOnly : Target → Bool
  | .arg | .inLen | .opa | .opb | .iv _ | .key _ | .state _ | .inBuf _ | .big _ _ => true
  | .id | .cfg0 | .cfg1 | .cfg2 | .ctrl | .status | .cmd | .outLen | .res | .rk _ _ | .outBuf _ => false

theorem storesOnly_of_storingOffset {c : Config} (hc : c.Legal) {t : Target} (ht : TargetInRange c t)
    (h : StoringOffset c (offsetOf t)) : storesOnly t = true := by
  obtain ⟨⟨-, -, hbuf⟩, -⟩ := hc
  unfold StoringOffset at h
  cases t with
  | arg | inLen | opa | opb | iv | key | state | inBuf | big => rfl
  | id | cfg0 | cfg1 | cfg2 | ctrl | status | cmd | outLen | res =>
    simp only [offsetOf] at h
    omega
  | rk k j =>
    have ht : j < 4 := ht
    simp only [offsetOf] at h
    omega
  | outBuf a =>
    obtain ⟨h1, h2⟩ : 0x2000 ≤ a ∧ a < 0x2000 + c.bufBytes := ht
    simp only [offsetOf] at h
    omega

/-! ### Big-integer registers -/

theorem bigRead_bigHostWrite (r q : BigReg) (v : Nat) (s : State) :
    bigRead (bigHostWrite r v s) q = if q = r then v else bigRead s q := by
  cases r with
  | x i =>
    cases q with
    | x j => simp only [bigRead, bigHostWrite, xRead_xWrite, BigReg.x.injEq]
    | pubE | pubN | privD | privN => rfl
  | pubE | pubN | privD | privN => cases q <;> simp [bigRead, bigHostWrite, xRead]

/-- The other registers' words do not see a write of a big-integer register. -/
theorem readTarget_bigHostWrite {t : Target} (r : BigReg) (v : Nat) (s : State) (hstatus : t ≠ .status)
    (hbig : ∀ q j, t ≠ .big q j) : readTarget (bigHostWrite r v s) t = readTarget s t := by
  cases t with
  | status => exact absurd rfl hstatus
  | big q j => exact absurd rfl (hbig q j)
  | _ => cases r <;> rfl

/-! ### The word written, and the others -/

section Stores

variable {s : State} {t : Target} (v : Word) (hstores : storesOnly t = true) (hin : Memory.wf s.inBuf = true)
  (ht : TargetInRange s.cfg t)
include hstores hin ht

theorem readTarget_writeTarget_same : readTarget (writeTarget v s t) t = v := by
  cases t with
  | arg | inLen | opa | opb => rfl
  | iv j => exact blockWord_setBlockWord s.iv ht v
  | key j => exact blockWord_setBlockWord s.key ht v
  | state j => exact blockWord_setBlockWord s.state ht v
  | inBuf a => exact memReadWord_memWriteWord hin a v
  | big r j =>
    rw [writeTarget, readTarget, bigRead_bigHostWrite, if_pos rfl, bigWord_setBigWord]
  | id | cfg0 | cfg1 | cfg2 | ctrl | status | cmd | outLen | res | rk | outBuf => cases hstores

theorem readTarget_writeTarget_ne {q : Target} (hq : TargetInRange s.cfg q) (halign : offsetOf q % 4 = 0 ∧ offsetOf t % 4 = 0)
    (hne : q ≠ t) (hstatus : q ≠ .status) : readTarget (writeTarget v s t) q = readTarget s q := by
  obtain ⟨hqa, hta⟩ := halign
  cases t with
  | arg => cases q with
    | arg => exact absurd rfl hne
    | _ => rfl
  | inLen => cases q with
    | inLen => exact absurd rfl hne
    | _ => rfl
  | opa => cases q with
    | opa => exact absurd rfl hne
    | _ => rfl
  | opb => cases q with
    | opb => exact absurd rfl hne
    | _ => rfl
  | iv j =>
    rw [writeTarget]
    cases q with
    | iv i => exact blockWord_setBlockWord_ne s.iv hq (fun h => hne (congrArg _ h)) v
    | _ =>
      generalize setBlockWord s.iv j v = b
      rfl
  | key j =>
    rw [writeTarget]
    cases q with
    | key i => exact blockWord_setBlockWord_ne s.key hq (fun h => hne (congrArg _ h)) v
    | status => exact absurd rfl hstatus
    | _ =>
      generalize setBlockWord s.key j v = b
      rfl
  | state j =>
    rw [writeTarget]
    cases q with
    | state i => exact blockWord_setBlockWord_ne s.state hq (fun h => hne (congrArg _ h)) v
    | _ =>
      generalize setBlockWord s.state j v = b
      rfl
  | inBuf a =>
    rw [writeTarget]
    cases q with
    | inBuf b =>
      have hab : b ≠ a := fun h => hne (congrArg _ h)
      simp only [offsetOf] at hqa hta
      exact memReadWord_memWriteWord_ne hin v (by omega)
    | _ =>
      generalize memWriteWord s.inBuf a v = m
      rfl
  | big r j =>
    by_cases hbig : ∃ p i, q = .big p i
    · obtain ⟨p, i, rfl⟩ := hbig
      rw [writeTarget, readTarget, readTarget, bigRead_bigHostWrite]
      by_cases hp : p = r
      · subst hp
        rw [if_pos rfl, bigWord_setBigWord_ne _ (fun h => hne (congrArg _ h))]
      · rw [if_neg hp]
    · exact readTarget_bigHostWrite r _ s hstatus fun p i h => hbig ⟨p, i, h⟩
  | id | cfg0 | cfg1 | cfg2 | ctrl | status | cmd | outLen | res | rk | outBuf => cases hstores

end Stores

theorem phase_bigHostWrite (r : BigReg) (n : Nat) (s : State) :
    (bigHostWrite r n s).rstn = s.rstn ∧ (bigHostWrite r n s).seq = s.seq ∧ (bigHostWrite r n s).cfg = s.cfg := by
  cases r <;> exact ⟨rfl, rfl, rfl⟩

/-- A stored word leaves the phase and the parameters. -/
theorem phase_writeTarget {t : Target} (v : Word) (s : State) (h : storesOnly t = true) :
    (writeTarget v s t).rstn = s.rstn ∧ (writeTarget v s t).seq = s.seq ∧ (writeTarget v s t).cfg = s.cfg := by
  cases t with
  | arg | inLen | opa | opb | iv | key | state | inBuf => simp only [writeTarget, and_self]
  | big r j => exact phase_bigHostWrite r _ s
  | id | cfg0 | cfg1 | cfg2 | ctrl | status | cmd | outLen | res | rk | outBuf => cases h

theorem aligned_of_accessTarget {c : Config} {a : Addr} {t : Target} (h : accessTarget c a = some t) : a.toNat % 4 = 0 := by
  by_contra ha
  rw [accessTarget, if_pos ha] at h
  cases h

theorem not_unmapped_of_storingOffset {c : Config} {a : Nat} (hc : c.Legal) (h : StoringOffset c a) : ¬ Unmapped c a := by
  obtain ⟨⟨-, -, hbuf⟩, -⟩ := hc
  unfold StoringOffset at h
  unfold Unmapped
  omega

/-- Settles O46: a stored word is read back from its target, and every other offset names another target. -/
theorem writtenWordsReadBack : Obligations.WrittenWordsReadBack := by
  unfold Obligations.WrittenWordsReadBack
  intro s a v hrst hidle hc hbuf ha hstore
  obtain ⟨t, ht⟩ := exists_accessTarget ha (not_unmapped_of_storingOffset hc hstore)
  obtain ⟨hrange, hoff⟩ := (accessTarget_eq_some_iff hc ha).mp ht
  have hstores := storesOnly_of_storingOffset hc hrange (hoff ▸ hstore)
  obtain ⟨hrst', hidle', hcfg⟩ := phase_writeTarget v s hstores
  rw [hrst] at hrst'
  rw [hidle] at hidle'
  have hb := (busy_eq_false_iff s).mpr hidle
  have hb' := (busy_eq_false_iff (writeTarget v s t)).mpr hidle'
  rw [write_mapped v hrst ht (.inl hb)]
  refine ⟨?_, fun b hne hstatus => ?_⟩
  · rw [resp_read_setResp _ a hidle', read_mapped hrst' (hcfg ▸ ht) (.inl hb'),
      readTarget_writeTarget_same v hstores hbuf.inWf hrange]
  · rw [resp_read_setResp _ b hidle']
    rcases hq : accessTarget s.cfg b with _ | q
    · rw [read_refused hrst hq, read_refused hrst' (hcfg ▸ hq)]
    · have hba := aligned_of_accessTarget hq
      obtain ⟨hqrange, hqoff⟩ := (accessTarget_eq_some_iff hc hba).mp hq
      rw [read_mapped hrst hq (.inl hb), read_mapped hrst' (hcfg ▸ hq) (.inl hb')]
      have hqt : q ≠ t := by
        rintro rfl
        exact hne (BitVec.eq_of_toNat_eq (hqoff.trans hoff.symm))
      have hqs : q ≠ .status := by
        rintro rfl
        exact hstatus (BitVec.eq_of_toNat_eq hqoff)
      rw [readTarget_writeTarget_ne v hstores hbuf.inWf hrange hqrange ⟨hqoff ▸ hba, hoff ▸ ha⟩ hqt hqs]

/-! ### The valid bits -/

/-- The valid bits after a write: cleared by a write to a word of the key, else as before (10_state.md R45). -/
theorem valid_writeTarget_iff (v : Word) (s : State) (t : Target) :
    ((writeTarget v s t).keyValid = true ↔ s.keyValid = true ∧ ∀ j, t ≠ .key j) ∧
    ((writeTarget v s t).pubValid = true ↔ s.pubValid = true ∧ ∀ j, t ≠ .big .pubE j ∧ t ≠ .big .pubN j) ∧
    ((writeTarget v s t).privValid = true ↔ s.privValid = true ∧ ∀ j, t ≠ .big .privD j ∧ t ≠ .big .privN j) := by
  cases t with
  | big r j => cases r <;> simp [writeTarget, bigHostWrite]
  | _ => simp [writeTarget]

section KeyOffsets

variable {c : Config} {a : Addr} {t : Target} (hc : c.Legal) (ha : a.toNat % 4 = 0) (ht : accessTarget c a = some t)
include hc ha ht

/-- A target in range whose offset this is, is the target of this offset. -/
theorem eq_of_accessTarget {q : Target} (hrange : TargetInRange c q) (hoff : a.toNat = offsetOf q) : t = q :=
  Option.some.inj (ht.symm.trans ((accessTarget_eq_some_iff hc ha).mpr ⟨hrange, hoff⟩))

theorem keyOffset_iff : KeyOffset a.toNat ↔ ∃ j, t = .key j := by
  obtain ⟨hrange, hoff⟩ := (accessTarget_eq_some_iff hc ha).mp ht
  constructor
  · rintro ⟨h1, h2⟩
    exact ⟨(a.toNat - 0x0050) / 4, eq_of_accessTarget hc ha ht (show (a.toNat - 0x0050) / 4 < 4 by omega)
      (show a.toNat = 0x0050 + 4 * ((a.toNat - 0x0050) / 4) by omega)⟩
  · rintro ⟨j, rfl⟩
    have hj : j < 4 := hrange
    simp only [offsetOf] at hoff
    exact ⟨by omega, by omega⟩

/-- Two slots side by side, as those of a key are: their mapped offsets are those of the words of the two registers. -/
theorem bigPair_iff {r q : BigReg} {base : Nat} (hr : bigBase r = base) (hq : bigBase q = base + 0x200) (hbase : base % 0x200 = 0) :
    (base ≤ a.toNat ∧ a.toNat < base + 0x400 ∧ a.toNat % 0x200 < c.bigBits / 8) ↔ ∃ j, t = .big r j ∨ t = .big q j := by
  obtain ⟨hrange, hoff⟩ := (accessTarget_eq_some_iff hc ha).mp ht
  obtain ⟨-, ⟨-, -, hmax⟩, -⟩ := id hc
  constructor
  · rintro ⟨h1, h2, h3⟩
    by_cases hfirst : a.toNat < base + 0x200
    · refine ⟨(a.toNat - base) / 4, .inl (eq_of_accessTarget hc ha ht
        (show 4 * ((a.toNat - base) / 4) < c.bigBits / 8 by omega) ?_)⟩
      rw [offsetOf, hr]
      omega
    · refine ⟨(a.toNat - (base + 0x200)) / 4, .inr (eq_of_accessTarget hc ha ht
        (show 4 * ((a.toNat - (base + 0x200)) / 4) < c.bigBits / 8 by omega) ?_)⟩
      rw [offsetOf, hq]
      omega
  · rintro ⟨j, rfl | rfl⟩
    · have hj : 4 * j < c.bigBits / 8 := hrange
      rw [offsetOf, hr] at hoff
      exact ⟨by omega, by omega, by omega⟩
    · have hj : 4 * j < c.bigBits / 8 := hrange
      rw [offsetOf, hq] at hoff
      exact ⟨by omega, by omega, by omega⟩

theorem pubOffset_iff : PubOffset c a.toNat ↔ ∃ j, t = .big .pubE j ∨ t = .big .pubN j := bigPair_iff hc ha ht rfl rfl rfl

theorem privOffset_iff : PrivOffset c a.toNat ↔ ∃ j, t = .big .privD j ∨ t = .big .privN j := bigPair_iff hc ha ht rfl rfl rfl

end KeyOffsets

theorem not_keyOffsets_of_unmapped {c : Config} {a : Nat} (h : Unmapped c a) :
    ¬ KeyOffset a ∧ ¬ PubOffset c a ∧ ¬ PrivOffset c a := by
  unfold Unmapped at h
  unfold KeyOffset PubOffset PrivOffset
  omega

/-- Settles O47: an unmapped write is refused, and a mapped one clears the bit of the key whose word it names. -/
theorem keyWritesUnbind : Obligations.KeyWritesUnbind := by
  unfold Obligations.KeyWritesUnbind
  intro s a v hrst hidle hc ha
  rcases ht : accessTarget s.cfg a with _ | t
  · obtain ⟨hkey, hpub, hpriv⟩ := not_keyOffsets_of_unmapped ((accessTarget_eq_none_iff.mp ht).resolve_left (not_not.mpr ha))
    rw [write_refused v 0xF hrst ht]
    simp [hkey, hpub, hpriv]
  · obtain ⟨hkey, hpub, hpriv⟩ := valid_writeTarget_iff v s t
    rw [write_mapped v hrst ht (.inl ((busy_eq_false_iff s).mpr hidle)), keyOffset_iff hc ha ht, pubOffset_iff hc ha ht,
      privOffset_iff hc ha ht]
    simp only [not_exists, not_or]
    exact ⟨hkey, hpub, hpriv⟩

end Sys2Proof.Proofs

/-! Reset: what its assertion leaves, what an access does while it is low, and the reads after the end of Init
(70_reset_and_hazards.md R300 to R302). -/

namespace Sys2Proof.Proofs

open Sys2Proof.Machine Sys2Proof.Laws

/-! ### While `rst_n` is low -/

theorem access_in_reset {s : State} (acc : Access) (hrst : s.rstn = false) : access acc s = { s with resp := .noResponse } := by
  cases acc with
  | read a => exact read_in_reset a hrst
  | write a v strb => simp only [access, hostWrite, hrst, Bool.not_false, if_true]

theorem runSequencer_in_reset {s : State} (hrst : s.rstn = false) : runSequencer s = .next s := by
  simp only [runSequencer, hrst, Bool.not_false, if_true]

/-! ### The reads after Init -/

theorem blockWord_zero {j : Nat} (hj : j < 4) : blockWord Block.zero j = 0 := by
  have h : ∀ i < 4, blockWord Block.zero i = 0 := by decide
  exact h j hj

theorem roundKeys_zero (k : RoundIdx) : RoundKeys.zero[k] = Block.zero := by
  simp [RoundKeys.zero]

theorem bigWord_zero (j : Nat) : bigWord 0 j = 0 := by
  rw [bigWord, Nat.zero_shiftRight]
  rfl

theorem memReadWord_nil (a : Nat) : memReadWord [] a = 0 := by
  simp only [memReadWord, memRead_nil]
  decide

/-- The core after the release of reset and the end of Init. -/
def afterReset (s : State) : State := endInit (releaseReset (assertReset s))

/-- STATUS does not depend on what reset leaves alone, so the default core shows it. -/
theorem statusWord_assertReset (s : State) : statusWord (assertReset s) = 0x00000001 :=
  calc statusWord (assertReset s) = statusWord (assertReset State.reset) := rfl
    _ = 0x00000001 := by decide

theorem statusWord_afterReset (s : State) : statusWord (afterReset s) = 0x00000000 :=
  calc statusWord (afterReset s) = statusWord (afterReset State.reset) := rfl
    _ = 0x00000000 := by decide

/-- Every register but the identification and the parameters reads 0 after Init. -/
theorem readTarget_afterReset {s : State} {t : Target} (ht : TargetInRange s.cfg t)
    (hid : t ≠ .id ∧ t ≠ .cfg0 ∧ t ≠ .cfg1 ∧ t ≠ .cfg2) : readTarget (afterReset s) t = 0 := by
  obtain ⟨hid, h0, h1, h2⟩ := hid
  cases t with
  | id => exact absurd rfl hid
  | cfg0 => exact absurd rfl h0
  | cfg1 => exact absurd rfl h1
  | cfg2 => exact absurd rfl h2
  | status => exact statusWord_afterReset s
  | ctrl | cmd | arg | inLen | outLen | opa | opb | res => rfl
  | iv j | key j | state j => exact blockWord_zero ht
  | rk k j =>
    rw [readTarget]
    exact (congrArg (blockWord · j) (roundKeys_zero k)).trans (blockWord_zero ht)
  | inBuf a | outBuf a => exact memReadWord_nil a
  | big r j =>
    have hzero : bigRead (afterReset s) r = 0 := by
      cases r with
      | x i => simp [bigRead, xRead, afterReset, endInit]
      | pubE | pubN | privD | privN => rfl
    rw [readTarget, hzero, bigWord_zero]

/-- Settles O54: assertion leaves the reset state in Init, release and one move make it Idle, and each target then reads its
reset value. -/
theorem resetSequence : Obligations.ResetSequence := by
  unfold Obligations.ResetSequence
  intro s
  refine ⟨assertReset s, releaseReset (assertReset s), afterReset s, rfl, rfl, rfl, rfl,
    statusWord_assertReset s, rfl, rfl, fun acc => access_in_reset acc rfl, runSequencer_in_reset rfl, rfl, rfl, rfl, rfl, rfl,
    rfl, rfl, ?_⟩
  intro a ha hc hm h2
  obtain ⟨t, ht⟩ := exists_accessTarget ha hm
  obtain ⟨hrange, hoff⟩ := (accessTarget_eq_some_iff hc ha).mp ht
  rw [read_mapped (s := afterReset s) rfl ht (.inl rfl)]
  by_cases hid : t = .id ∨ t = .cfg0 ∨ t = .cfg1 ∨ t = .cfg2
  · rcases hid with rfl | rfl | rfl | rfl
    · obtain rfl : a = 0x0000 := BitVec.eq_of_toNat_eq hoff
      rfl
    · obtain rfl : a = 0x0004 := BitVec.eq_of_toNat_eq hoff
      rfl
    · obtain rfl : a = 0x0008 := BitVec.eq_of_toNat_eq hoff
      rfl
    · exact absurd (BitVec.eq_of_toNat_eq hoff) h2
  · simp only [not_or] at hid
    obtain ⟨hnid, hn0, hn1, -⟩ := id hid
    have hnamed : ∀ {b : Addr} {q : Target}, scalarTarget b.toNat = some q → t ≠ q → a ≠ b := by
      rintro b q hq hne rfl
      exact hne (Option.some.inj (ht.symm.trans (accessTarget_of_scalarTarget hq)))
    rw [readTarget_afterReset hrange hid, if_neg (hnamed (q := .id) rfl hnid), if_neg (hnamed (q := .cfg0) rfl hn0),
      if_neg (hnamed (q := .cfg1) rfl hn1)]

end Sys2Proof.Proofs
